-- ==== Sys2Proof/Word.lean ====
section
/-! DEFINITION. The bit widths the spec writes, named once (00_scope.md section 6, 30_encoding.md R55, R56, R74). -/

namespace Sys2Proof

/-- One whole register access, or one command operand: `REG_WIDTH = ARG_WIDTH = 32` (R4, R42). -/
abbrev Word := BitVec 32

/-- A byte: a received or transmitted character, a protocol id (00_scope.md section 6). -/
abbrev Byte := BitVec 8

/-- The 16-bit result of TPRECV (R62). -/
abbrev Result := BitVec 16

/-- A command opcode, `CW[71:64]` (R56). -/
abbrev Opcode := BitVec 8

/-- A command word on the command port (R55). -/
abbrev CmdWord := BitVec 72

/-- A bus header `we` then `offset[11:0]` (R74). -/
abbrev Header := BitVec 13

/-- A register's offset from `UART_BASE` (R64). -/
abbrev Offset := BitVec 12

/-- `zext_32` of a byte (00_scope.md section 6). -/
def Byte.toWord (b : Byte) : Word := b.setWidth 32

/-- `v[7:0]` of a 32-bit value. -/
def lowByte (v : Word) : Byte := v.setWidth 8

end Sys2Proof
end

