-- ==== Sys2Proof/Config.lean ====
section
/-! DEFINITION. The build variants and the parameters of the block (00_scope.md R1, R2, R4), and the free
values: opaque constants, with no body, for everything the spec draws "under no law". -/

namespace Sys2Proof

/-- The four build variants (R1). -/
inductive Variant where
  | noOpDriver
  | pollingOnlyDriver
  | interruptDriver
  | telemetryDriver
  deriving DecidableEq, Repr

/-- The three build switches of the source (R1). -/
structure BuildSwitches where
  simulated : Bool
  debug : Bool
  telemetry : Bool
  deriving DecidableEq, Repr

/-- The variant a choice of switches names, or none: debug and telemetry together are no configuration
(R2). DEDUCED: simulated together with another switch is none of the four variants either (log 16). -/
def Variant.ofSwitches : BuildSwitches → Option Variant
  | ⟨true, false, false⟩ => some .noOpDriver
  | ⟨false, false, false⟩ => some .pollingOnlyDriver
  | ⟨false, true, false⟩ => some .interruptDriver
  | ⟨false, false, true⟩ => some .telemetryDriver
  | ⟨true, true, _⟩ => none
  | ⟨true, _, true⟩ => none
  | ⟨_, true, true⟩ => none

/-- What a push into a full buffer does (R4, D20). -/
inductive OverflowPolicy where
  | dropNewest
  | overwriteOldest
  deriving DecidableEq, Repr

/-- The parameters of R4 that are open or have an alternative. They are fixed before reset and no step
changes them (R1, R33). The parameters with one value are constants of Machine/Operands.lean. -/
structure Config where
  /-- `VARIANT` (R1). -/
  variant : Variant
  /-- `MASTER_CLOCK`, the clock TPINIT divides (R4, R151). -/
  masterClock : Word
  /-- `TELEMETRY_BAUD`, a partial map from protocol id to baud rate; the first entry of an id counts. -/
  telemetryBaud : List (Byte × Word)
  /-- `UART_BASE` (R41, R44). -/
  uartBase : Nat
  /-- `UART_CLOCK_ID` (R96). -/
  clockId : Nat
  /-- `UART_IRQ_LINE` (R97, R187). -/
  irqLine : Nat
  /-- `UART_PIN_MASK` (R95); 32 bits wide by DESIGN CHOICE (log 17). -/
  pinMask : Word
  /-- `PDC_RX_ACTIVE` (R169). -/
  pdcRxActive : Bool
  /-- `OVERFLOW_POLICY` (R99). -/
  overflowPolicy : OverflowPolicy
  /-- `DIVISOR_WIDTH` (R4, D4). -/
  divisorWidth : Nat
  /-- Whether a write of `MR` with another value than `MODE_VALUE` is refused: optional in R84 (log 12). -/
  refuseOtherModes : Bool
  deriving DecidableEq, Repr

/-- DESIGN CHOICE (log 5): the configuration `State.reset` has. The numbers that the spec leaves OPEN are
those its test vectors chose (95_test_vectors.md section 2.8); no statement rests on them. -/
def Config.example : Config where
  variant := .telemetryDriver
  masterClock := 48000000#32
  telemetryBaud := [(1#8, 9600#32), (2#8, 57600#32)]
  uartBase := 0
  clockId := 0
  irqLine := 0
  pinMask := 3#32
  pdcRxActive := true
  overflowPolicy := .dropNewest
  divisorWidth := 16
  refuseOtherModes := false

/-- `SIMU` of R1. -/
def Config.simu (c : Config) : Bool := c.variant == .noOpDriver

/-- `DEBUG` of R1. -/
def Config.debug (c : Config) : Bool := c.variant == .interruptDriver

/-- `TELEM` of R1. -/
def Config.telem (c : Config) : Bool := c.variant == .telemetryDriver

/-- Free value: the n-th draw of a 32-bit value (R81, R85, R88). DESIGN CHOICE of form (log 8). -/
opaque Config.freeWord : Nat → Word

/-- Free value: the n-th draw between two outcomes; true is the new byte of an overrun (R166, log 9). -/
opaque Config.freeChoice : Nat → Bool

/-- Free value: which of the six agents of R6 the n-th free turn is given to (R172). DESIGN CHOICE of form (log 3). -/
opaque Config.freeAgent : Nat → Fin 6

/-- Free value: the byte on the line at the n-th free turn (R33, R165). DESIGN CHOICE of form (log 3). -/
opaque Config.freeLineByte : Nat → Byte

/-- Free value: what reading latch `x[n]` gives while it is unwritten. No run of the block does so
(R11, R32); a state no run reaches may (log 10). -/
opaque Config.unwrittenLatch : Nat → Word

/-- Free value: what `RHR` or `THR` gives where it holds no byte. No run of the block uses it (log 10). -/
opaque Config.unwrittenByte : Byte

end Sys2Proof
end

