-- ==== Sys2Proof/Syntax.lean ====
section
/-! DEFINITION. The instructions: one constructor per row of spec/opcode_table.json, and what a fetch
gives the decoder: a command word (R56) or a bus access (R74). -/

namespace Sys2Proof

/-- The nine registers of the block (R25, R64). -/
inductive RegName where
  | CR | MR | IER | IDR | SR | RHR | THR | BRGR | PTCR
  deriving DecidableEq, Repr

/-- One constructor per row of the opcode table: six commands and ten register accesses. -/
inductive Instr where
  /-- CONFIGURE `baudrate, masterClock` (R110). -/
  | configure (baudrate masterClock : Word)
  /-- STOP (R120). -/
  | stop
  /-- PUTC `c` (R130). -/
  | putc (c : Byte)
  /-- TPINIT `protocol` (R150). -/
  | tpinit (protocol : Byte)
  /-- TPRECV (R155). -/
  | tprecv
  /-- RXISR, the receive interrupt handler (R140). -/
  | rxisr
  /-- `RegWrite(CR, v)` (R83). -/
  | regWriteCR (v : Word)
  /-- `RegWrite(MR, v)` (R84). -/
  | regWriteMR (v : Word)
  /-- `RegRead(MR)` (R85). -/
  | regReadMR
  /-- `RegWrite(IER, m)` (R90). -/
  | regWriteIER (m : Word)
  /-- `RegWrite(IDR, m)` (R91). -/
  | regWriteIDR (m : Word)
  /-- `RegRead(SR)` (R81). -/
  | regReadSR
  /-- `RegRead(RHR)` (R88). -/
  | regReadRHR
  /-- `RegWrite(THR, c)` (R89). -/
  | regWriteTHR (c : Word)
  /-- `RegWrite(BRGR, d)` (R86). -/
  | regWriteBRGR (d : Word)
  /-- `RegWrite(PTCR, v)` (R92). -/
  | regWritePTCR (v : Word)
  deriving DecidableEq, Repr

/-- What is presented to the decoder: a 72-bit command word (R55), or the 13-bit header of a register
access with the 32 data lines beside it (R74). -/
inductive Fetch where
  | cmd (cw : CmdWord)
  | bus (header : Header) (data : Word)
  deriving DecidableEq, Repr

/-- Why a word or a header spells no instruction (R60, R61, R94). -/
inductive DecodeError where
  /-- The opcode spells no command (R61). -/
  | reservedOpcode (opc : Opcode)
  /-- A reserved operand bit is 1 (R60). -/
  | reservedOperandBits (cw : CmdWord)
  /-- The header names no access the source defines (R94). -/
  | badBusAccess (we : Bool) (offset : Offset)
  deriving DecidableEq, Repr

end Sys2Proof
end

