-- ==== Sys2Proof/WellFormed.lean ====
section
/-! DEFINITION. Which configurations the block takes (00_scope.md R2, R5), and which operands the spec gives
a meaning to under a configuration (R83, R86, R92, R113, R151). The operand checks are not run by the
machine: an ill-formed operand is refused by the instruction's own rule. -/

namespace Sys2Proof

/-- How many bits of a mask are 1. -/
def popCount (m : Word) : Nat := ((List.range 32).filter (fun i => m.getLsbD i)).length

/-- "exactly two pins" (R5). -/
def Config.pinsOk (c : Config) : Bool := popCount c.pinMask == 2

/-- `MASTER_CLOCK > 0` when `TELEM` (R5). -/
def Config.clockOk (c : Config) : Bool := !c.telem || c.masterClock != 0#32

/-- `TELEMETRY_BAUD(p) > 0` wherever it is defined (R5): the map gives no protocol of its list a zero. -/
def Config.baudOk (c : Config) : Bool := c.telemetryBaud.all (fun e => c.telemetryBaud.lookup e.1 != some 0#32)

/-- `DIVISOR_WIDTH <= REG_WIDTH` (R5). -/
def Config.widthOk (c : Config) : Bool := decide (c.divisorWidth ≤ 32)

/-- `UART_BASE` is a multiple of 4 (R44). -/
def Config.baseOk (c : Config) : Bool := c.uartBase % 4 == 0

/-- A well-formed configuration (R5, R44). -/
def Config.wf (c : Config) : Bool :=
  c.pinsOk && c.clockOk && c.baudOk && c.widthOk && c.baseOk

/-- CONFIGURE's admission of a baud rate and a clock, as a check on the operands (R113). -/
def divisorAdmitted (c : Config) (baudrate masterClock : Word) : Bool :=
  baudrate != 0#32 && masterClock != 0#32 &&
    decide (masterClock.toNat / (16 * baudrate.toNat) < 2 ^ c.divisorWidth)

/-- A value of a command register with enable and disable bits (R83, R92): no bit outside the named ones,
and neither pair asked for both ways at once. -/
def pairsLegal (named : Word) (en₁ dis₁ en₂ dis₂ : Nat) (v : Word) : Bool :=
  (v &&& ~~~named) == 0#32 && !(v.getLsbD en₁ && v.getLsbD dis₁) && !(v.getLsbD en₂ && v.getLsbD dis₂)

/-- The operands of an instruction are ones its rule gives a meaning to under `c`. -/
def Instr.wf (c : Config) : Instr → Bool
  | .configure baudrate masterClock => divisorAdmitted c baudrate masterClock
  | .stop => true
  | .putc _ => true
  | .tpinit p =>
    match c.telemetryBaud.lookup p with
    | none => false
    | some baud => divisorAdmitted c baud c.masterClock
  | .tprecv => true
  | .rxisr => true
  | .regWriteCR v => pairsLegal 0x000000FC#32 4 5 6 7 v
  | .regWriteMR v => !c.refuseOtherModes || v == 0x00000800#32
  | .regReadMR => true
  | .regWriteIER _ => true
  | .regWriteIDR _ => true
  | .regReadSR => true
  | .regReadRHR => true
  | .regWriteTHR _ => true
  | .regWriteBRGR d => decide (d.toNat < 2 ^ c.divisorWidth)
  | .regWritePTCR v => pairsLegal 0x00000303#32 0 1 8 9 v

end Sys2Proof
end

