-- ==== Sys2Proof/Decode.lean ====
section
/-! DEFINITION. The encodings of 30_encoding.md: the decoder, total on every word and header, and the encoder. -/

namespace Sys2Proof

/-- The opcode map (R57). -/
def Opcode.configure : Opcode := 0x01#8
/-- STOP's opcode (R57). -/
def Opcode.stop : Opcode := 0x02#8
/-- PUTC's opcode (R57). -/
def Opcode.putc : Opcode := 0x03#8
/-- TPINIT's opcode (R57). -/
def Opcode.tpinit : Opcode := 0x04#8
/-- TPRECV's opcode (R57). -/
def Opcode.tprecv : Opcode := 0x05#8
/-- RXISR's internal opcode (R57). -/
def Opcode.rxisr : Opcode := 0x06#8

/-- `OPC = CW[71:64]` (R56). -/
def CmdWord.opc (cw : CmdWord) : Opcode := cw.extractLsb' 64 8

/-- `A = CW[63:32]` (R56). -/
def CmdWord.opA (cw : CmdWord) : Word := cw.extractLsb' 32 32

/-- `B = CW[31:0]` (R56). -/
def CmdWord.opB (cw : CmdWord) : Word := cw.extractLsb' 0 32

/-- A command word from its three fields (R56). -/
def CmdWord.ofFields (opc : Opcode) (a b : Word) : CmdWord := (opc ++ a ++ b : BitVec (8 + 32 + 32))

/-- Decoding of a command word, the tests in the order of R59: opcode first, then reserved operand bits.
The word of RXISR decodes to RXISR; its meaning refuses it on the command port (R61, log 19). -/
def decodeCmd (cw : CmdWord) : Except DecodeError Instr :=
  let a := cw.opA
  let b := cw.opB
  if cw.opc = Opcode.configure then .ok (.configure a b)
  else if cw.opc = Opcode.stop then
    if a = 0#32 ∧ b = 0#32 then .ok .stop else .error (.reservedOperandBits cw)
  else if cw.opc = Opcode.putc then
    if a.extractLsb' 8 24 = 0#24 ∧ b = 0#32 then .ok (.putc (lowByte a)) else .error (.reservedOperandBits cw)
  else if cw.opc = Opcode.tpinit then
    if a.extractLsb' 8 24 = 0#24 ∧ b = 0#32 then .ok (.tpinit (lowByte a)) else .error (.reservedOperandBits cw)
  else if cw.opc = Opcode.tprecv then
    if a = 0#32 ∧ b = 0#32 then .ok .tprecv else .error (.reservedOperandBits cw)
  else if cw.opc = Opcode.rxisr then .ok .rxisr
  else .error (.reservedOpcode cw.opc)

/-- The offset of a register from `UART_BASE` (R64). -/
def RegName.offset : RegName → Offset
  | .CR => 0x000#12
  | .MR => 0x004#12
  | .IER => 0x008#12
  | .IDR => 0x00C#12
  | .SR => 0x014#12
  | .RHR => 0x018#12
  | .THR => 0x01C#12
  | .BRGR => 0x020#12
  | .PTCR => 0x120#12

/-- The effective address of a register, `UART_BASE + offset(NAME)` (R41, 40_register_interface.md). -/
def RegName.address (c : Config) (r : RegName) : Nat := c.uartBase + r.offset.toNat

/-- The write-enable bit of a header (R74). -/
def Header.we (h : Header) : Bool := h.getLsbD 12

/-- `offset[11:0]` of a header (R74). -/
def Header.offset (h : Header) : Offset := h.extractLsb' 0 12

/-- A header from its fields (R74). -/
def Header.ofFields (we : Bool) (r : RegName) : Header := (BitVec.ofBool we ++ r.offset : BitVec (1 + 12))

/-- Decoding of a register access (R74). A read ignores the data lines. Every header that is not one of
the ten is an access the source does not define (R94): R64 reserves the other offsets up to `0x1FF`; that the offsets
`0x200` to `0xFFF`, of which no rule speaks, are refused like them is a DESIGN CHOICE (log 27). -/
def decodeBus (h : Header) (data : Word) : Except DecodeError Instr :=
  if h = 0x1000#13 then .ok (.regWriteCR data)
  else if h = 0x1004#13 then .ok (.regWriteMR data)
  else if h = 0x0004#13 then .ok .regReadMR
  else if h = 0x1008#13 then .ok (.regWriteIER data)
  else if h = 0x100C#13 then .ok (.regWriteIDR data)
  else if h = 0x0014#13 then .ok .regReadSR
  else if h = 0x0018#13 then .ok .regReadRHR
  else if h = 0x101C#13 then .ok (.regWriteTHR data)
  else if h = 0x1020#13 then .ok (.regWriteBRGR data)
  else if h = 0x1120#13 then .ok (.regWritePTCR data)
  else .error (.badBusAccess h.we h.offset)

/-- The decoder. -/
def decode : Fetch → Except DecodeError Instr
  | .cmd cw => decodeCmd cw
  | .bus h data => decodeBus h data

/-- The encoder: reserved and unused bits are 0 (R60), the data lines of a read are 0. -/
def encode : Instr → Fetch
  | .configure baudrate masterClock => .cmd (CmdWord.ofFields Opcode.configure baudrate masterClock)
  | .stop => .cmd (CmdWord.ofFields Opcode.stop 0#32 0#32)
  | .putc c => .cmd (CmdWord.ofFields Opcode.putc c.toWord 0#32)
  | .tpinit p => .cmd (CmdWord.ofFields Opcode.tpinit p.toWord 0#32)
  | .tprecv => .cmd (CmdWord.ofFields Opcode.tprecv 0#32 0#32)
  | .rxisr => .cmd (CmdWord.ofFields Opcode.rxisr 0#32 0#32)
  | .regWriteCR v => .bus (Header.ofFields true .CR) v
  | .regWriteMR v => .bus (Header.ofFields true .MR) v
  | .regReadMR => .bus (Header.ofFields false .MR) 0#32
  | .regWriteIER m => .bus (Header.ofFields true .IER) m
  | .regWriteIDR m => .bus (Header.ofFields true .IDR) m
  | .regReadSR => .bus (Header.ofFields false .SR) 0#32
  | .regReadRHR => .bus (Header.ofFields false .RHR) 0#32
  | .regWriteTHR c => .bus (Header.ofFields true .THR) c
  | .regWriteBRGR d => .bus (Header.ofFields true .BRGR) d
  | .regWritePTCR v => .bus (Header.ofFields true .PTCR) v

/-- How the opcode table's numbering of a row's bits is read: a row of at most 48 bits is a bus access, its
13-bit header in bits 12..0 (bits 15..13 zero) and its data lines in bits 47..16; a longer row is a
command word (log 18). -/
def fetchOfTableWord (nbits w : Nat) : Option Fetch :=
  if nbits ≤ 48 then
    if (w / 2 ^ 13) % 8 = 0 then some (.bus (BitVec.ofNat 13 w) (BitVec.ofNat 32 (w / 2 ^ 16))) else none
  else if w < 2 ^ 72 then some (.cmd (BitVec.ofNat 72 w))
  else none

/-- What the decoder reads from an instruction whose bits are `w`, numbered as the opcode table does. -/
def decodeTableWord (nbits w : Nat) : Option Instr :=
  match fetchOfTableWord nbits w with
  | none => none
  | some f =>
    match decode f with
    | .ok i => some i
    | .error _ => none

end Sys2Proof
end

