-- ==== Sys2Proof/Machine/State.lean ====
section
/-! DEFINITION. The state of the block (10_state.md), its faults and refusals (60_exceptions.md R182, R183), and
the state after reset (R32). Plain data throughout. -/

namespace Sys2Proof.Machine

/-- The faults of the model: the closed list of R182. -/
inductive Fault where
  /-- Raised by every register access made while `CLK = 0` (R80). Safe: the hardware does something the
  source leaves undefined, the model stops. -/
  | unclockedAccess (reg : RegName)
  deriving DecidableEq, Repr

/-- The refusals of the model: the closed list of R183, and two of the model's own. All are safe: the
machine stops where the spec gives no meaning. -/
inductive Refusal where
  /-- Raised by an arm of `exec` whose instruction has no meaning yet. Safe. -/
  | notModelled (mnemonic : String)
  /-- Raised at construction by a configuration that is not well formed (R2, R5). Safe. -/
  | badConfiguration
  /-- Raised at command acceptance by an opcode that spells no command (R61). Safe. -/
  | reservedOpcode (opc : Opcode)
  /-- Raised at command acceptance by a 1 in a reserved operand bit (R60). Safe. -/
  | reservedOperandBits (cw : CmdWord)
  /-- Raised at command acceptance by TPINIT or TPRECV outside `TelemetryDriver` (R152). Safe. -/
  | notInVariant (opc : Opcode)
  /-- Raised by CONFIGURE's admission when `baudrate = 0` (R113). Safe. -/
  | zeroBaudrate
  /-- Raised by CONFIGURE's admission when `masterClock = 0` (R113). Safe. -/
  | zeroMasterClock
  /-- Raised by admission and by `RegWrite(BRGR)` for a divisor of more than `DIVISOR_WIDTH` bits
  (R86, R113, R151). Safe. -/
  | divisorTooWide (d : Nat)
  /-- Raised by TPINIT's admission for a protocol with no baud rate (R151). Safe. -/
  | unknownProtocol (p : Byte)
  /-- Raised by `RegWrite(CR)` for a reserved bit, or enable and disable together (R83). Safe. -/
  | badControlWrite (v : Word)
  /-- Raised by `RegWrite(MR)` for another value than `MODE_VALUE`, when `cfg.refuseOtherModes` (R84). Safe. -/
  | badModeValue (v : Word)
  /-- Raised by `RegWrite(PTCR)` for a reserved bit, or enable and disable together (R92). Safe. -/
  | badTransferWrite (v : Word)
  /-- Raised by `RegWrite(THR)` while `TXE = 0` (R89). Safe. -/
  | thrOverwrite (c : Word)
  /-- Raised by a harness access the source does not define (R44, R94). Safe. -/
  | badBusAccess (we : Bool) (offset : Int)
  /-- The model's own: raised where a step number stands in the sequencer that its command does not have,
  which no run reaches (R12, log 20). Safe. -/
  | noSuchStep (op : Opcode) (step : Nat)
  deriving DecidableEq, Repr

/-- The execution context (R13). -/
inductive Ctx where
  | fg
  | irq
  deriving DecidableEq, Repr

/-- The pin mode the block asks for, a symbolic record with no bits (R75). -/
inductive PinMode where
  | peripheralInputNoPullUp
  deriving DecidableEq, Repr

/-- `PINS` (R15). -/
inductive Pins where
  | none
  | peripheral (mask : Word) (mode : PinMode)
  deriving DecidableEq, Repr

/-- `PORT`, the conceptual port state (R28). -/
inductive PortState where
  | unconfigured
  | configuredIdle
  | running
  | stopped
  deriving DecidableEq, Repr

/-- The events of the history `H` (R29). -/
inductive Event where
  | cmd (op : Opcode) (a b : Word)
  | done (op : Opcode) (res : Option Result)
  | pinCfg (mask : Word) (mode : PinMode)
  | clkEn (id : Nat)
  | regW (reg : RegName) (v : Word)
  | regR (reg : RegName) (v : Word)
  | lineEn (n : Nat)
  | lineDis (n : Nat)
  | push (b : Byte) (kept : Bool)
  | dispatch
  | ret
  | rxArrive (b : Byte) (overrun : Bool)
  | txOut (b : Byte)
  | txReady
  | pdcTake (b : Byte)
  | pop (b : Byte)
  | fault (f : Fault)
  | refuse (q : Refusal)
  deriving DecidableEq, Repr

/-- Whose step is next (R6, R172), with what it brings: the byte on the line, or a harness's access of
`size` bytes, by its bus header (R74) or by its address in the register space (R41, R44, R94). DESIGN CHOICE of
form (log 2, log 18). -/
inductive Turn where
  | fg
  | irq
  | rxArrive (b : Byte)
  | txDrain
  | pdcTake
  | pop
  | bus (header : Header) (size : Nat) (data : Word)
  | mem (we : Bool) (addr : Nat) (size : Nat) (data : Word)
  deriving DecidableEq, Repr

/-- The state of the machine. -/
structure State where
  /-- The configuration (R4), changed by no step (R33). -/
  cfg : Config
  /-- `SEQ.op` (R12). -/
  seqOp : Opcode
  /-- `SEQ.step` (R12). -/
  seqStep : BitVec 4
  /-- `CTX` (R13). -/
  ctx : Ctx
  /-- `ISTEP` (R13). -/
  istep : BitVec 2
  /-- Latch `x[0]`, `A` (R11). -/
  latchA : Option Word
  /-- Latch `x[1]`, `B` (R11). -/
  latchB : Option Word
  /-- Latch `x[2]`, `RES` (R11). -/
  latchRes : Option Result
  /-- Latch `x[3]`, `T` (R11). -/
  latchT : Option Word
  /-- Latch `x[4]`, `TI` (R11). -/
  latchTI : Option Byte
  /-- `CLK`, the peripheral clock gate (R14). -/
  clk : Bool
  /-- `PINS` (R15). -/
  pins : Pins
  /-- `LINE_EN`, the controller's line enable (R24). -/
  lineEn : Bool
  /-- `RXEN` (R16). -/
  rxen : Bool
  /-- `TXEN` (R16). -/
  txen : Bool
  /-- `MR`, or unwritten (R17). -/
  mr : Option Word
  /-- `BRGR`, or unwritten (R18): a number below `2 ^ DIVISOR_WIDTH` in a register's width (log 13). -/
  brgr : Option Word
  /-- `IMR_RXRDY` (R19). -/
  imrRxrdy : Bool
  /-- `PDC_RXEN` (R20). -/
  pdcRxen : Bool
  /-- `PDC_TXEN` (R20). -/
  pdcTxen : Bool
  /-- `RXRDY`, the receive-ready flag (R21). -/
  rxrdy : Bool
  /-- `RHR`, or none (R21). -/
  rhr : Option Byte
  /-- `TXE`, the transmit-empty flag (R22). -/
  txe : Bool
  /-- `THR_VALID` (R22). -/
  thrValid : Bool
  /-- `THR`, or unwritten (R22, R32). -/
  thr : Option Byte
  /-- `RXBUF`, oldest first (R27). -/
  rxbuf : List Byte
  /-- `PORT` (R28). -/
  port : PortState
  /-- `H`, oldest first (R29). -/
  hist : List Event
  /-- `LINE_OUT`, oldest first (R30). -/
  lineOut : List Byte
  /-- `PDC_SINK` (R30). -/
  pdcSink : List Byte
  /-- `FAULT` (R31). -/
  fault : Option Fault
  /-- `REFUSED` (R31). -/
  refused : Option Refusal
  /-- The model's own: the command words the foreground has still to present (R53, R175, log 2). -/
  cmds : List CmdWord
  /-- The model's own: whose steps come next, first one first (R172, log 2); then free choices (log 3). -/
  agenda : List Turn
  /-- The model's own: how many free values have been drawn (log 8). -/
  draws : Nat
  deriving DecidableEq, Repr

/-- The state after reset under a configuration: the table of R32. -/
def State.resetOf (c : Config) : State where
  cfg := c
  seqOp := 0x00#8
  seqStep := 0#4
  ctx := .fg
  istep := 0#2
  latchA := none
  latchB := none
  latchRes := none
  latchT := none
  latchTI := none
  clk := false
  pins := .none
  lineEn := false
  rxen := false
  txen := false
  mr := none
  brgr := none
  imrRxrdy := false
  pdcRxen := false
  pdcTxen := false
  rxrdy := false
  rhr := none
  txe := false
  thrValid := false
  thr := none
  rxbuf := []
  port := .unconfigured
  hist := []
  lineOut := []
  pdcSink := []
  fault := none
  refused := none
  cmds := []
  agenda := []
  draws := 0

/-- The machine right after reset. Its configuration is a DESIGN CHOICE (log 5), every other field R32's. -/
def State.reset : State := State.resetOf Config.example

/-- Construction of the block from build switches and parameters: a choice that is no configuration, or
one that is not well formed, is refused (R2, R5, R183). -/
def State.construct (b : BuildSwitches) (c : Config) : State :=
  match Variant.ofSwitches b with
  | none => { State.resetOf c with refused := some .badConfiguration, hist := [.refuse .badConfiguration] }
  | some v =>
    let c' := { c with variant := v }
    if c'.wf then State.resetOf c'
    else { State.resetOf c' with refused := some .badConfiguration, hist := [.refuse .badConfiguration] }

end Sys2Proof.Machine
end

