-- ==== Sys2Proof/Machine/Operands.lean ====
section
/-! DEFINITION. The block's operands: constants of 00_scope.md R4 and 30_encoding.md R65 to R73, the latches, the
operand assembly of R58 and the divisor of R111. -/

namespace Sys2Proof.Machine

/-- `RXBUF_CAPACITY` (R4). -/
def rxbufCapacity : Nat := 512

/-- `OVERSAMPLE` (R4). -/
def oversample : Nat := 16

/-- `NO_DATA`, the sentinel (R4, R62). -/
def noData : Result := 0xFFFF#16

/-- `MODE_VALUE` (R4, R66). -/
def modeValue : Word := 0x00000800#32

/-- Bit `RSTRX` of `CR` (R65). -/
def bitRSTRX : Nat := 2
/-- Bit `RSTTX` of `CR` (R65). -/
def bitRSTTX : Nat := 3
/-- Bit `RXEN` of `CR` (R65). -/
def bitRXEN : Nat := 4
/-- Bit `RXDIS` of `CR` (R65). -/
def bitRXDIS : Nat := 5
/-- Bit `TXEN` of `CR` (R65). -/
def bitTXEN : Nat := 6
/-- Bit `TXDIS` of `CR` (R65). -/
def bitTXDIS : Nat := 7
/-- Bit `RXRDY` of `IER`, `IDR` (R67). -/
def bitIntRXRDY : Nat := 0
/-- Bit `RXRDY` of `SR` (R68). -/
def bitSrRXRDY : Nat := 0
/-- Bit `TXEMPTY` of `SR` (R68). -/
def bitSrTXEMPTY : Nat := 9
/-- Bit `RXTEN` of `PTCR` (R72). -/
def bitRXTEN : Nat := 0
/-- Bit `RXTDIS` of `PTCR` (R72). -/
def bitRXTDIS : Nat := 1
/-- Bit `TXTEN` of `PTCR` (R72). -/
def bitTXTEN : Nat := 8
/-- Bit `TXTDIS` of `PTCR` (R72). -/
def bitTXTDIS : Nat := 9

/-- The one-bit mask of bit `i`. -/
def bit (i : Nat) : Word := 1#32 <<< i

/-- The named bits of `CR` (R65). -/
def namedCR : Word := bit bitRSTRX ||| bit bitRSTTX ||| bit bitRXEN ||| bit bitRXDIS ||| bit bitTXEN ||| bit bitTXDIS

/-- The named bits of `PTCR` (R72). -/
def namedPTCR : Word := bit bitRXTEN ||| bit bitRXTDIS ||| bit bitTXTEN ||| bit bitTXTDIS

/-- `CR_RESET_DISABLE` (R73). -/
def crResetDisable : Word := bit bitRSTRX ||| bit bitRSTTX ||| bit bitRXDIS ||| bit bitTXDIS

/-- `CR_ENABLE` (R73). -/
def crEnable : Word := bit bitRXEN ||| bit bitTXEN

/-- `PTCR_DISABLE_BOTH` (R73). -/
def ptcrDisableBoth : Word := bit bitRXTDIS ||| bit bitTXTDIS

/-- `PTCR_ARM_RX` (R73). -/
def ptcrArmRx : Word := bit bitRXTEN

/-- `INT_RXRDY` (R73). -/
def intRxrdy : Word := bit bitIntRXRDY

/-- What latch `A` gives: its value, or a free one while unwritten (log 10). -/
def State.readA (s : State) : Word := s.latchA.getD (Config.unwrittenLatch 0)

/-- What latch `B` gives. -/
def State.readB (s : State) : Word := s.latchB.getD (Config.unwrittenLatch 1)

/-- What latch `T` gives. -/
def State.readT (s : State) : Word := s.latchT.getD (Config.unwrittenLatch 3)

/-- What latch `TI` gives. -/
def State.readTI (s : State) : Byte := s.latchTI.getD (lowByte (Config.unwrittenLatch 4))

/-- The byte operand of PUTC, `A[7:0]` (R58). -/
def State.putcByte (s : State) : Byte := lowByte s.readA

/-- The protocol operand of TPINIT, `A[7:0]` (R58). -/
def State.tpinitProtocol (s : State) : Byte := lowByte s.readA

/-- The byte in `RHR`, a free one where it holds none (log 10). -/
def State.rhrByte (s : State) : Byte := s.rhr.getD Config.unwrittenByte

/-- The byte in `THR`, a free one where it holds none (log 10). -/
def State.thrByte (s : State) : Byte := s.thr.getD Config.unwrittenByte

/-- `TELEMETRY_BAUD(p)` (R151). -/
def telemetryBaudOf (c : Config) (p : Byte) : Option Word := c.telemetryBaud.lookup p

/-- The divisor `masterClock div (OVERSAMPLE * baudrate)` in the natural numbers (R111, R112). -/
def divisor (baudrate masterClock : Word) : Nat := masterClock.toNat / (oversample * baudrate.toNat)

/-- The result of TPRECV for a received byte, `zext_16` of it (R157). -/
def resultOfByte (b : Byte) : Result := b.setWidth 16

end Sys2Proof.Machine
end

