-- ==== Sys2Proof/Machine/Flags.lean ====
section
/-! DEFINITION. The two status flags and what touches them (10_state.md R34), the status word (30_encoding.md
R68), the interrupt request (60_exceptions.md R185), and the tests of command-register values (R83, R92). -/

namespace Sys2Proof.Machine

/-- Field `v[i]` of a 32-bit value. -/
def field (v : Word) (i : Nat) : Bool := v.getLsbD i

/-- A one-bit field in place. -/
def fieldWord (b : Bool) (i : Nat) : Word := if b then bit i else 0#32

/-- The bits of `SR` the source names (R68). -/
def namedSR : Word := bit bitSrRXRDY ||| bit bitSrTXEMPTY

/-- The status word: `RXRDY` and `TXE` in their places, every other bit from `free` (R68, R81). -/
def statusWord (rxrdy txe : Bool) (free : Word) : Word :=
  (free &&& ~~~namedSR) ||| fieldWord rxrdy bitSrRXRDY ||| fieldWord txe bitSrTXEMPTY

/-- `v.TXEMPTY` of a status value (R131). -/
def srTxempty (v : Word) : Bool := field v bitSrTXEMPTY

/-- `v.RXRDY` of a status value (R156). -/
def srRxrdy (v : Word) : Bool := field v bitSrRXRDY

/-- A value with bits outside the named ones (R83, R92). -/
def hasReserved (named v : Word) : Bool := (v &&& ~~~named) != 0#32

/-- The values `RegWrite(CR)` refuses (R83). -/
def badControl (v : Word) : Bool :=
  hasReserved namedCR v || (field v bitRXEN && field v bitRXDIS) || (field v bitTXEN && field v bitTXDIS)

/-- The values `RegWrite(PTCR)` refuses (R92). -/
def badTransfer (v : Word) : Bool :=
  hasReserved namedPTCR v || (field v bitRXTEN && field v bitRXTDIS) || (field v bitTXTEN && field v bitTXTDIS)

/-- A flag after a write whose reset bit for its side is `reset` (R83). -/
def flagAfterReset (reset was : Bool) : Bool := if reset then false else was

/-- Receive-ready cleared by a read of `RHR` or by the block-transfer engine (R88, R169). -/
def State.clearRxrdy (s : State) : State := { s with rxrdy := false }

/-- A byte arrives in an empty holding register (R165). -/
def State.receiveByte (b : Byte) (s : State) : State := { s with rhr := some b, rxrdy := true }

/-- A byte is handed to the transmitter: transmit-empty is cleared (R89). -/
def State.holdByte (c : Byte) (s : State) : State := { s with thr := some c, thrValid := true, txe := false }

/-- The transmitter reports empty (R167). -/
def State.reportEmpty (s : State) : State := { s with thrValid := false, txe := true }

/-- `IRQ_REQ` (R185). -/
def State.irqReq (s : State) : Bool := s.clk && s.rxrdy && s.imrRxrdy

/-- The dispatch condition of R189, but for the two marks, which every step tests first. -/
def State.dispatchEnabled (s : State) : Bool :=
  s.cfg.debug && s.ctx == .fg && s.irqReq && s.lineEn &&
    s.seqOp != Opcode.configure && s.seqOp != Opcode.stop

end Sys2Proof.Machine
end

