-- ==== Sys2Proof/Machine/Ops.lean ====
section
/-! DEFINITION. The shared operations: marks and events, the register accesses, platform requests and buffer push of
40_register_interface.md, the sequencer's own moves (R12, R59), and taking and leaving the one interrupt
(60_exceptions.md R190, R193).

An operation that may set a mark answers `.ok` with the state in which the caller goes on, or `.error` with
the marked state, in which nothing goes on. -/

namespace Sys2Proof.Machine

/-- The three outcomes of a step of this machine. -/
abbrev StepResult := Host.Outcome State Fault Refusal

/-! ### Marks and events -/

/-- `emit e` (R29): one event at the end of `H`. -/
def State.emit (e : Event) (s : State) : State := { s with hist := s.hist ++ [e] }

/-- `fault F` (R182): the mark and one event, no other effect. -/
def State.raiseFault (f : Fault) (s : State) : State := { s with fault := some f, hist := s.hist ++ [.fault f] }

/-- `refuse Q` (R183): the mark and one event, no other effect. -/
def State.refuse (q : Refusal) (s : State) : State := { s with refused := some q, hist := s.hist ++ [.refuse q] }

/-- The refusal that a word or header spelling no instruction meets (R60, R61, R94). -/
def refusalOf : DecodeError → Refusal
  | .reservedOpcode opc => .reservedOpcode opc
  | .reservedOperandBits cw => .reservedOperandBits cw
  | .badBusAccess we offset => .badBusAccess we (Int.ofNat offset.toNat)

/-- A state with a mark has no enabled step (R31, R172): the machine stops with that mark. -/
def whenLive (s : State) (k : StepResult) : StepResult :=
  match s.fault with
  | some f => .fault f
  | none =>
    match s.refused with
    | some q => .refused q
    | none => k

/-- Go on with `k` where the operation made its effect; a marked state is the next state as it is. -/
def thenNext (r : Except State State) (k : State → State) : StepResult :=
  match r with
  | .ok s => .next (k s)
  | .error s => .next s

/-- The same for an operation that returns a value. -/
def thenNextWith {α : Type} (r : Except State (α × State)) (k : α → State → State) : StepResult :=
  match r with
  | .ok (v, s) => .next (k v s)
  | .error s => .next s

/-! ### Register accesses (R80 to R92) -/

/-- The clock-gate precondition of every register access (R80). -/
def clocked {α : Type} (reg : RegName) (s : State) (k : Except State α) : Except State α :=
  if s.clk then k else .error (s.raiseFault (.unclockedAccess reg))

/-- `draw(32-bit values)`: the next free value, and the counter advanced (log 8). -/
def State.drawn (s : State) : State := { s with draws := s.draws + 1 }

/-- `RegRead(SR)` (R81). -/
def regReadSR (s : State) : Except State (Word × State) :=
  clocked .SR s <|
    let v := statusWord s.rxrdy s.txe (Config.freeWord s.draws)
    .ok (v, s.drawn.emit (.regR .SR v))

/-- An enable after a write with its enable and disable bits, the disable first (R83, R92, D13). -/
def enableAfter (enable disable was : Bool) : Bool := if enable then true else if disable then false else was

/-- The effects of a legal `CR` value (R83): a receiver reset leaves nothing ready, a transmitter reset nothing
pending and transmit-empty clear. -/
def controlEffects (v : Word) (s : State) : State :=
  { s with
    rxrdy := flagAfterReset (field v bitRSTRX) s.rxrdy
    rhr := if field v bitRSTRX then none else s.rhr
    thrValid := flagAfterReset (field v bitRSTTX) s.thrValid
    txe := flagAfterReset (field v bitRSTTX) s.txe
    rxen := enableAfter (field v bitRXEN) (field v bitRXDIS) s.rxen
    txen := enableAfter (field v bitTXEN) (field v bitTXDIS) s.txen }

/-- `RegWrite(CR, v)` (R83). -/
def regWriteCR (v : Word) (s : State) : Except State State :=
  clocked .CR s <|
    if badControl v then .error (s.refuse (.badControlWrite v))
    else .ok ((controlEffects v s).emit (.regW .CR v))

/-- `RegWrite(MR, v)` (R84); the refusal of other values is the optional one (log 12). -/
def regWriteMR (v : Word) (s : State) : Except State State :=
  clocked .MR s <|
    if s.cfg.refuseOtherModes && v != modeValue then .error (s.refuse (.badModeValue v))
    else .ok ({ s with mr := some v }.emit (.regW .MR v))

/-- `RegRead(MR)` (R85). -/
def regReadMR (s : State) : Except State (Word × State) :=
  clocked .MR s <|
    match s.mr with
    | none =>
      let v := Config.freeWord s.draws
      .ok (v, s.drawn.emit (.regR .MR v))
    | some v => .ok (v, s.emit (.regR .MR v))

/-- `RegWrite(BRGR, d)` (R86). -/
def regWriteBRGR (d : Word) (s : State) : Except State State :=
  clocked .BRGR s <|
    if 2 ^ s.cfg.divisorWidth ≤ d.toNat then .error (s.refuse (.divisorTooWide d.toNat))
    else .ok ({ s with brgr := some d }.emit (.regW .BRGR d))

/-- `RegRead(RHR)` (R88). -/
def regReadRHR (s : State) : Except State (Word × State) :=
  clocked .RHR s <|
    if s.rxrdy then
      let v := s.rhrByte.toWord
      .ok (v, s.clearRxrdy.emit (.regR .RHR v))
    else
      let v := Config.freeWord s.draws
      .ok (v, s.drawn.clearRxrdy.emit (.regR .RHR v))

/-- `RegWrite(THR, c)` (R89). -/
def regWriteTHR (c : Word) (s : State) : Except State State :=
  clocked .THR s <|
    if s.txe then .ok ((s.holdByte (lowByte c)).emit (.regW .THR c))
    else .error (s.refuse (.thrOverwrite c))

/-- `RegWrite(IER, m)` (R90). -/
def regWriteIER (m : Word) (s : State) : Except State State :=
  clocked .IER s <|
    .ok ({ s with imrRxrdy := if field m bitIntRXRDY then true else s.imrRxrdy }.emit (.regW .IER m))

/-- `RegWrite(IDR, m)` (R91). -/
def regWriteIDR (m : Word) (s : State) : Except State State :=
  clocked .IDR s <|
    .ok ({ s with imrRxrdy := if field m bitIntRXRDY then false else s.imrRxrdy }.emit (.regW .IDR m))

/-- `RegWrite(PTCR, v)` (R92). -/
def regWritePTCR (v : Word) (s : State) : Except State State :=
  clocked .PTCR s <|
    if badTransfer v then .error (s.refuse (.badTransferWrite v))
    else .ok ({ s with
      pdcRxen := enableAfter (field v bitRXTEN) (field v bitRXTDIS) s.pdcRxen
      pdcTxen := enableAfter (field v bitTXTEN) (field v bitTXTDIS) s.pdcTxen }.emit (.regW .PTCR v))

/-! ### Platform requests (R95 to R98) and the buffer push (R99) -/

/-- `PinCfg(UART_PIN_MASK, mode)` (R95). -/
def pinCfg (s : State) : State :=
  { s with pins := .peripheral s.cfg.pinMask .peripheralInputNoPullUp }.emit
    (.pinCfg s.cfg.pinMask .peripheralInputNoPullUp)

/-- `ClkEn(UART_CLOCK_ID)` (R96). -/
def clkEn (s : State) : State := { s with clk := true }.emit (.clkEn s.cfg.clockId)

/-- `LineEn(UART_IRQ_LINE)` (R97). -/
def lineEnable (s : State) : State := { s with lineEn := true }.emit (.lineEn s.cfg.irqLine)

/-- `LineDis(UART_IRQ_LINE)` (R98). -/
def lineDisable (s : State) : State := { s with lineEn := false }.emit (.lineDis s.cfg.irqLine)

/-- `BufPush(b)` (R99); the other overflow policy removes the oldest byte and appends the new (D20). -/
def bufPush (b : Byte) (s : State) : State :=
  if s.rxbuf.length < rxbufCapacity then { s with rxbuf := s.rxbuf ++ [b] }.emit (.push b true)
  else
    match s.cfg.overflowPolicy with
    | .dropNewest => s.emit (.push b false)
    | .overwriteOldest => { s with rxbuf := s.rxbuf.drop 1 ++ [b] }.emit (.push b true)

/-! ### The sequencer (R12, R56, R59) -/

/-- `SEQ.step <- SEQ.step + 1` (R12). -/
def State.advance (s : State) : State := { s with seqStep := s.seqStep + 1 }

/-- `SEQ.step <- n`. -/
def State.atStep (n : BitVec 4) (s : State) : State := { s with seqStep := n }

/-- Completion: the sequencer idles and `Done` is emitted (R12, R116, R121, R132, R153, R156, R157). -/
def State.complete (op : Opcode) (res : Option Result) (s : State) : State :=
  { s with seqOp := 0x00#8, seqStep := 0#4 }.emit (.done op res)

/-- `PORT <- p` (R28). -/
def State.setPort (p : PortState) (s : State) : State := { s with port := p }

/-- The part of acceptance that follows the tests: `Cmd` is emitted, the sequencer and the operand latches
are loaded (R56, R59). -/
def State.load (op : Opcode) (a b : Word) (s : State) : State :=
  { s with seqOp := op, seqStep := 0#4, latchA := some a, latchB := some b }.emit (.cmd op a b)

/-- Acceptance of a driver-core command, CONFIGURE, STOP or PUTC: in `NoOpDriver` it completes at once with
no effect (R3, R59). -/
def acceptCore (op : Opcode) (a b : Word) (s : State) : State :=
  if s.cfg.simu then (s.emit (.cmd op a b)).emit (.done op none) else s.load op a b

/-- Acceptance of a telemetry command, TPINIT or TPRECV: refused outside `TelemetryDriver` (R59, R152). -/
def acceptTelemetry (op : Opcode) (a b : Word) (s : State) : State :=
  if s.cfg.telem then s.load op a b else s.refuse (.notInVariant op)

/-- One step of a command: accepted where the sequencer is idle in the foreground, its next
micro-operation where it is the command in progress; while the handler runs or another command is in
progress it is not accepted, the foreground waits and nothing changes (R13, R59). -/
def runCommand (op : Opcode) (accept : State → State) (micro : State → StepResult) (s : State) : StepResult :=
  whenLive s <|
    match s.ctx with
    | .irq => .next s
    | .fg =>
      if s.seqOp = 0x00#8 then .next (accept s)
      else if s.seqOp = op then micro s
      else .next s

/-- Where the sequencer stands at a step its command does not have: no run does (log 20). -/
def noStep (s : State) : StepResult := .refused (.noSuchStep s.seqOp s.seqStep.toNat)

/-! ### Taking and leaving the receive interrupt (R190, R193) -/

/-- Dispatch, the exception entry (R190): nothing is saved, no mask changes. -/
def takeInterrupt (s : State) : State := { s with ctx := .irq, istep := 0#2 }.emit .dispatch

/-- Return (R193). -/
def returnFromInterrupt (s : State) : State := { s with ctx := .fg, istep := 0#2 }.emit .ret

/-! ### Steps that CONFIGURE and TPINIT share (R110, R113, R150) -/

/-- Admission on a baud rate and a clock: the refusal it meets, or the divisor (R113). -/
def admission (c : Config) (baudrate masterClock : Word) : Except Refusal Word :=
  if baudrate = 0#32 then .error .zeroBaudrate
  else if masterClock = 0#32 then .error .zeroMasterClock
  else if 2 ^ c.divisorWidth ≤ divisor baudrate masterClock then
    .error (.divisorTooWide (divisor baudrate masterClock))
  else .ok (BitVec.ofNat 32 (divisor baudrate masterClock))

/-- Steps 1 to 6 of CONFIGURE and of TPINIT, without the advance of the sequencer (R110, R150). -/
def configurationStep (n : Nat) (s : State) : Except State State :=
  match n with
  | 1 => .ok (clkEn s)
  | 2 => regWriteCR crResetDisable s
  | 3 => regWriteMR modeValue s
  | 4 => regWriteBRGR s.readT s
  | 5 => regWritePTCR ptcrDisableBoth s
  | _ => regWriteCR crEnable s

end Sys2Proof.Machine
end

