-- ==== Sys2Proof/Machine/Configuration.lean ====
section
/-! DEFINITION. The configuration family: CONFIGURE and STOP (41_configuration.md). -/

namespace Sys2Proof.Machine

/-- Step 0 of CONFIGURE: admission, then `PinCfg` (R110, R113). -/
def configureAdmit (s : State) : Except State State :=
  match admission s.cfg s.readA s.readB with
  | .error q => .error (s.refuse q)
  | .ok t => .ok (pinCfg { s with latchT := some t })

/-- Completion of CONFIGURE (R116). -/
def configureDone (s : State) : State :=
  (s.setPort (if s.cfg.debug then .running else .configuredIdle)).complete Opcode.configure none

/-- The micro-operations of CONFIGURE, one a step (R110). -/
def configureMicro (s : State) : StepResult :=
  match s.seqStep.toNat with
  | 0 => thenNext (configureAdmit s) State.advance
  | 1 => thenNext (configurationStep 1 s) State.advance
  | 2 => thenNext (configurationStep 2 s) State.advance
  | 3 => thenNext (configurationStep 3 s) State.advance
  | 4 => thenNext (configurationStep 4 s) State.advance
  | 5 => thenNext (configurationStep 5 s) State.advance
  | 6 => thenNext (configurationStep 6 s) (if s.cfg.debug then State.advance else configureDone)
  | 7 => if s.cfg.debug then thenNext (regWriteIER intRxrdy s) State.advance else noStep s
  | 8 => if s.cfg.debug then .next (configureDone (lineEnable s)) else noStep s
  | _ => noStep s

/-- CONFIGURE (R110 to R119). -/
def execConfigure (baudrate masterClock : Word) (s : State) : StepResult :=
  runCommand Opcode.configure (acceptCore Opcode.configure baudrate masterClock) configureMicro s

/-- The micro-operations of STOP (R120, R121). -/
def stopMicro (s : State) : StepResult :=
  match s.seqStep.toNat with
  | 0 => thenNext (regWriteIDR intRxrdy s) State.advance
  | 1 => .next (((lineDisable s).setPort .stopped).complete Opcode.stop none)
  | _ => noStep s

/-- STOP (R120 to R125). -/
def execStop (s : State) : StepResult :=
  runCommand Opcode.stop (acceptCore Opcode.stop 0#32 0#32) stopMicro s

end Sys2Proof.Machine
end

