-- ==== Sys2Proof/Machine/Receive.lean ====
section
/-! DEFINITION. The receive family: the handler RXISR (43_receive_interrupt.md). -/

namespace Sys2Proof.Machine

/-- Step 0 of RXISR after its read: the byte is latched (R141). -/
def rxisrLatched (v : Word) (s : State) : State := { s with latchTI := some (lowByte v), istep := 1#2 }

/-- The two steps of RXISR (R141, R142). -/
def rxisrMicro (s : State) : StepResult :=
  match s.istep.toNat with
  | 0 => thenNextWith (regReadRHR s) rxisrLatched
  | 1 => .next (returnFromInterrupt (bufPush s.readTI s))
  | _ => .refused (.noSuchStep Opcode.rxisr s.istep.toNat)

/-- RXISR (R140 to R146). In the foreground it is no command: a word with its opcode on the command port is
refused as a reserved opcode (R61, log 19). -/
def execRxisr (s : State) : StepResult :=
  whenLive s <|
    match s.ctx with
    | .fg => .next (s.refuse (.reservedOpcode Opcode.rxisr))
    | .irq => rxisrMicro s

end Sys2Proof.Machine
end

