-- ==== Sys2Proof/Machine/RegisterAccess.lean ====
section
/-! DEFINITION. The ten register accesses of 40_register_interface.md as instructions of their own: one access, in one
step (R45, R100), as a harness drives it (R94). The value a read returns is the one in its `RegR` event. -/

namespace Sys2Proof.Machine

/-- A read as a step of its own: no latch takes the value. -/
def readStep (r : Except State (Word × State)) : StepResult := thenNextWith r (fun _ s => s)

/-- A write as a step of its own. -/
def writeStep (r : Except State State) : StepResult := thenNext r (fun s => s)

/-- `RegWrite(CR, v)` (R83). -/
def execRegWriteCR (v : Word) (s : State) : StepResult := whenLive s (writeStep (regWriteCR v s))

/-- `RegWrite(MR, v)` (R84). -/
def execRegWriteMR (v : Word) (s : State) : StepResult := whenLive s (writeStep (regWriteMR v s))

/-- `RegRead(MR)` (R85). -/
def execRegReadMR (s : State) : StepResult := whenLive s (readStep (regReadMR s))

/-- `RegWrite(IER, m)` (R90). -/
def execRegWriteIER (m : Word) (s : State) : StepResult := whenLive s (writeStep (regWriteIER m s))

/-- `RegWrite(IDR, m)` (R91). -/
def execRegWriteIDR (m : Word) (s : State) : StepResult := whenLive s (writeStep (regWriteIDR m s))

/-- `RegRead(SR)` (R81). -/
def execRegReadSR (s : State) : StepResult := whenLive s (readStep (regReadSR s))

/-- `RegRead(RHR)` (R88). -/
def execRegReadRHR (s : State) : StepResult := whenLive s (readStep (regReadRHR s))

/-- `RegWrite(THR, c)` (R89). -/
def execRegWriteTHR (c : Word) (s : State) : StepResult := whenLive s (writeStep (regWriteTHR c s))

/-- `RegWrite(BRGR, d)` (R86). -/
def execRegWriteBRGR (d : Word) (s : State) : StepResult := whenLive s (writeStep (regWriteBRGR d s))

/-- `RegWrite(PTCR, v)` (R92). -/
def execRegWritePTCR (v : Word) (s : State) : StepResult := whenLive s (writeStep (regWritePTCR v s))

end Sys2Proof.Machine
end

