-- ==== Sys2Proof/Machine/Telemetry.lean ====
section
/-! DEFINITION. The telemetry family: TPINIT and TPRECV (44_telemetry_port.md). -/

namespace Sys2Proof.Machine

/-- Step 0 of TPINIT: the protocol's baud rate and the master clock go to the operand latches, then the
admission of CONFIGURE, then `PinCfg` (R150, R151). A refusal changes nothing else (R183, log 14). -/
def tpinitAdmit (s : State) : Except State State :=
  match telemetryBaudOf s.cfg s.tpinitProtocol with
  | none => .error (s.refuse (.unknownProtocol s.tpinitProtocol))
  | some baud =>
    match admission s.cfg baud s.cfg.masterClock with
    | .error q => .error (s.refuse q)
    | .ok t => .ok (pinCfg { s with latchA := some baud, latchB := some s.cfg.masterClock, latchT := some t })

/-- Completion of TPINIT (R153). -/
def tpinitDone (s : State) : State := (s.setPort .configuredIdle).complete Opcode.tpinit none

/-- The micro-operations of TPINIT (R150). -/
def tpinitMicro (s : State) : StepResult :=
  match s.seqStep.toNat with
  | 0 => thenNext (tpinitAdmit s) State.advance
  | 1 => thenNext (configurationStep 1 s) State.advance
  | 2 => thenNext (configurationStep 2 s) State.advance
  | 3 => thenNext (configurationStep 3 s) State.advance
  | 4 => thenNext (configurationStep 4 s) State.advance
  | 5 => thenNext (configurationStep 5 s) State.advance
  | 6 => thenNext (configurationStep 6 s) State.advance
  | 7 => thenNext (regWritePTCR ptcrArmRx s) tpinitDone
  | _ => noStep s

/-- TPINIT (R150 to R154). -/
def execTpinit (protocol : Byte) (s : State) : StepResult :=
  runCommand Opcode.tpinit (acceptTelemetry Opcode.tpinit protocol.toWord 0#32) tpinitMicro s

/-- Completion of TPRECV with a result (R156, R157). -/
def tprecvDone (res : Result) (s : State) : State :=
  { s with latchRes := some res }.complete Opcode.tprecv (some res)

/-- The poll of TPRECV: on to the read when a byte is ready, else the sentinel (R156). -/
def tprecvPolled (v : Word) (s : State) : State :=
  let s₁ := { s with latchT := some v }
  if srRxrdy v then s₁.atStep 1#4 else tprecvDone noData s₁

/-- The micro-operations of TPRECV (R155 to R157). -/
def tprecvMicro (s : State) : StepResult :=
  match s.seqStep.toNat with
  | 0 => thenNextWith (regReadSR s) tprecvPolled
  | 1 => thenNextWith (regReadRHR s) (fun v => tprecvDone (resultOfByte (lowByte v)))
  | _ => noStep s

/-- TPRECV (R155 to R160). -/
def execTprecv (s : State) : StepResult :=
  runCommand Opcode.tprecv (acceptTelemetry Opcode.tprecv 0#32 0#32) tprecvMicro s

end Sys2Proof.Machine
end

