-- ==== Sys2Proof/Machine/Transmit.lean ====
section
/-! DEFINITION. The transmit family: PUTC (42_transmit.md). -/

namespace Sys2Proof.Machine

/-- The poll of PUTC: on to the write when transmit-empty is set, else read again (R131). -/
def putcPolled (v : Word) (s : State) : State :=
  { s with latchT := some v }.atStep (if srTxempty v then 1#4 else 0#4)

/-- The micro-operations of PUTC (R130 to R132). -/
def putcMicro (s : State) : StepResult :=
  match s.seqStep.toNat with
  | 0 => thenNextWith (regReadSR s) putcPolled
  | 1 => thenNext (regWriteTHR s.putcByte.toWord s) (State.complete Opcode.putc none)
  | _ => noStep s

/-- PUTC (R130 to R135). -/
def execPutc (c : Byte) (s : State) : StepResult :=
  runCommand Opcode.putc (acceptCore Opcode.putc c.toWord 0#32) putcMicro s

end Sys2Proof.Machine
end

