-- ==== Sys2Proof/Machine/Dispatch.lean ====
section
/-! DEFINITION. The meaning of every instruction: one arm per constructor of Instr. -/

namespace Sys2Proof.Machine

def exec (i : Instr) (s : State) : Host.Outcome State Fault Refusal :=
  match i with
  | .configure baudrate masterClock => Sys2Proof.Machine.execConfigure baudrate masterClock s
  | .stop => Sys2Proof.Machine.execStop s
  | .putc c => Sys2Proof.Machine.execPutc c s
  | .tpinit protocol => Sys2Proof.Machine.execTpinit protocol s
  | .tprecv => Sys2Proof.Machine.execTprecv s
  | .rxisr => Sys2Proof.Machine.execRxisr s
  | .regWriteCR v => Sys2Proof.Machine.execRegWriteCR v s
  | .regWriteMR v => Sys2Proof.Machine.execRegWriteMR v s
  | .regReadMR => Sys2Proof.Machine.execRegReadMR s
  | .regWriteIER m => Sys2Proof.Machine.execRegWriteIER m s
  | .regWriteIDR m => Sys2Proof.Machine.execRegWriteIDR m s
  | .regReadSR => Sys2Proof.Machine.execRegReadSR s
  | .regReadRHR => Sys2Proof.Machine.execRegReadRHR s
  | .regWriteTHR c => Sys2Proof.Machine.execRegWriteTHR c s
  | .regWriteBRGR d => Sys2Proof.Machine.execRegWriteBRGR d s
  | .regWritePTCR v => Sys2Proof.Machine.execRegWritePTCR v s

end Sys2Proof.Machine
end

