-- ==== Sys2Proof/Machine/Environment.lean ====
section
/-! DEFINITION. The external agents (45_environment.md R165 to R171): each a step on the state, which changes nothing
where its conditions do not hold. -/

namespace Sys2Proof.Machine

/-- `ENV_RX.arrive(b)` (R165), with the overrun of R166: which byte survives is a free choice (log 9). -/
def rxArrive (b : Byte) (s : State) : State :=
  if s.clk && s.rxen then
    if s.rxrdy then
      { s with
        rhr := if Config.freeChoice s.draws then some b else s.rhr
        draws := s.draws + 1 }.emit (.rxArrive b true)
    else (s.receiveByte b).emit (.rxArrive b false)
  else s

/-- `ENV_TX.drain` (R167). -/
def txDrain (s : State) : State :=
  if s.clk && s.txen && !s.txe then
    if s.thrValid then
      { s.reportEmpty with lineOut := s.lineOut ++ [s.thrByte] }.emit (.txOut s.thrByte)
    else s.reportEmpty.emit .txReady
  else s

/-- `ENV_PDC.take` (R169). -/
def pdcTake (s : State) : State :=
  if s.cfg.pdcRxActive && s.clk && s.pdcRxen && s.rxrdy then
    { s.clearRxrdy with pdcSink := s.pdcSink ++ [s.rhrByte] }.emit (.pdcTake s.rhrByte)
  else s

/-- `CONS.pop` (R171). -/
def pop (s : State) : State :=
  if s.ctx = .fg ∧ s.seqOp = 0x00#8 then
    match s.rxbuf with
    | [] => s
    | b :: rest => { s with rxbuf := rest }.emit (.pop b)
  else s

end Sys2Proof.Machine
end

