-- ==== Sys2Proof/Machine/Agents.lean ====
section
/-! DEFINITION. One step of each agent (00_scope.md R6, 45_environment.md R172), and where each finds the instruction it
runs. A turn of an agent with no enabled step passes: nothing changes (log 2). -/

namespace Sys2Proof.Machine

/-- The command in progress, from the sequencer and the operand latches (R11, R12); none where the
sequencer is idle or holds no command's opcode. -/
def commandInProgress (s : State) : Option Instr :=
  if s.seqOp = Opcode.configure then some (.configure s.readA s.readB)
  else if s.seqOp = Opcode.stop then some .stop
  else if s.seqOp = Opcode.putc then some (.putc s.putcByte)
  else if s.seqOp = Opcode.tpinit then some (.tpinit s.tpinitProtocol)
  else if s.seqOp = Opcode.tprecv then some .tprecv
  else none

/-- A command word at the port of an idle sequencer: it is taken from the port, decoded, and its
instruction run, or refused (R59, R60, R61). -/
def presentWord (cw : CmdWord) (s : State) : StepResult :=
  match decode (.cmd cw) with
  | .ok i => exec i s
  | .error e => .next (s.refuse (refusalOf e))

/-- A step of the foreground sequencer (R13, R59, R172): frozen while the handler runs; idle, it takes the
next command word; busy, it runs the command in progress. -/
def fgTurn (s : State) : StepResult :=
  match s.ctx with
  | .irq => .next s
  | .fg =>
    if s.seqOp = 0x00#8 then
      match s.cmds with
      | [] => .next s
      | cw :: rest => presentWord cw { s with cmds := rest }
    else
      match commandInProgress s with
      | some i => exec i s
      | none => .next s

/-- A step of the interrupt agent (R172, R189, R190): the handler where it runs, else dispatch where that
is enabled. -/
def irqTurn (s : State) : StepResult :=
  match s.ctx with
  | .irq => exec .rxisr s
  | .fg => if s.dispatchEnabled then .next (takeInterrupt s) else .next s

/-- A harness's access of `size` bytes (R42, R44, R94). -/
def busTurn (header : Header) (size : Nat) (data : Word) (s : State) : StepResult :=
  if size = 4 then
    match decode (.bus header data) with
    | .ok i => exec i s
    | .error e => .next (s.refuse (refusalOf e))
  else .next (s.refuse (.badBusAccess header.we (Int.ofNat header.offset.toNat)))

/-- A harness's access by address, `MemRead` or `MemWrite` (00_scope.md section 6): the header is the
write-enable bit and the distance from `UART_BASE` (R41, R74); an address that no header names is no access of
the register block and is refused as one that R94 refuses (R40, log 24); for the offsets from `0x200` see log 27. -/
def memTurn (we : Bool) (addr size : Nat) (data : Word) (s : State) : StepResult :=
  if s.cfg.uartBase ≤ addr ∧ addr < s.cfg.uartBase + 2 ^ 12 then
    busTurn (BitVec.ofBool we ++ BitVec.ofNat 12 (addr - s.cfg.uartBase) : BitVec (1 + 12)) size data s
  else .next (s.refuse (.badBusAccess we ((addr : Int) - (s.cfg.uartBase : Int))))

/-- One step of the agent whose turn it is. -/
def runTurn (t : Turn) (s : State) : StepResult :=
  match t with
  | .fg => fgTurn s
  | .irq => irqTurn s
  | .rxArrive b => .next (Machine.rxArrive b s)
  | .txDrain => .next (Machine.txDrain s)
  | .pdcTake => .next (Machine.pdcTake s)
  | .pop => .next (Machine.pop s)
  | .bus header size data => busTurn header size data s
  | .mem we addr size data => memTurn we addr size data s

/-- The turn of the n-th free choice: any of the six agents of R6, a byte on the line with it where that is the
receiver's; never a harness's access (R173). DESIGN CHOICE of form (log 3). -/
def freeTurn (n : Nat) : Turn :=
  match (Config.freeAgent n).val with
  | 0 => .fg
  | 1 => .irq
  | 2 => .rxArrive (Config.freeLineByte n)
  | 3 => .txDrain
  | 4 => .pdcTake
  | _ => .pop

/-- The next turn, and the state with it taken: the first of the agenda, or, where the agenda has run out, a free
choice, so that no order and no fairness is built in (R172, R174). -/
def nextTurn (s : State) : Turn × State :=
  match s.agenda with
  | [] => (freeTurn s.draws, { s with draws := s.draws + 1 })
  | t :: rest => (t, { s with agenda := rest })

/-- A step of the machine: none in a marked state, else one step of the agent whose turn it is. -/
def stepAgent (s : State) : StepResult :=
  whenLive s (runTurn (nextTurn s).1 (nextTurn s).2)

/-- The state with a fetch put where the next step finds it (log 4, log 18, log 19): a bus access as the next
turn; the handler selected, in the interrupt context, for the word of RXISR; any other command word at the port
of an idle sequencer, the foreground next. -/
def placeFetch (f : Fetch) (s : State) : State :=
  match f with
  | .bus header data => { s with agenda := .bus header 4 data :: s.agenda }
  | .cmd cw =>
    if cw.opc = Opcode.rxisr then { s with ctx := .irq, istep := 0#2, agenda := .irq :: s.agenda }
    else
      { s with
        ctx := .fg, seqOp := 0x00#8, seqStep := 0#4, cmds := cw :: s.cmds, agenda := .fg :: s.agenda }

end Sys2Proof.Machine
end

