-- ==== Sys2Proof/Machine/Step.lean ====
section
/-! DEFINITION. The step of the machine, and how an instruction is put where the next step fetches it. -/

namespace Sys2Proof.Machine

/-- One step of one agent (R45, R49, R172). -/
def step (s : State) : Host.Outcome State Fault Refusal := stepAgent s

/-- The state with the instruction whose bits are `w`, numbered as the opcode table numbers them, where
`step` fetches its next instruction. Bits that spell no fetch at all leave the state as it is. -/
def State.withFetchWord (s : State) (nbits w : Nat) : State :=
  match fetchOfTableWord nbits w with
  | none => s
  | some f => placeFetch f s

end Sys2Proof.Machine
end

