-- ==== Sys2Proof/Safety.lean ====
section
/-! DEFINITION. The terms claims are stated in: live states, enabled turns, the end of a run, what the history shows,
and the invariant of the runs that no harness drives. -/

namespace Sys2Proof.Machine

/-- No mark is set (R31). -/
abbrev State.live (s : State) : Prop := s.fault = none ∧ s.refused = none

/-- Which turns have an enabled step (R172). A harness's access always has one (R94). -/
def enabled (t : Turn) (s : State) : Bool :=
  match t with
  | .fg =>
    s.ctx == .fg &&
      (if s.seqOp == 0x00#8 then !s.cmds.isEmpty else decide (s.seqOp.toNat ≤ 5))
  | .irq => s.ctx == .irq || s.dispatchEnabled
  | .rxArrive _ => s.clk && s.rxen
  | .txDrain => s.clk && s.txen && !s.txe
  | .pdcTake => s.cfg.pdcRxActive && s.clk && s.pdcRxen && s.rxrdy
  | .pop => s.ctx == .fg && s.seqOp == 0x00#8 && !s.rxbuf.isEmpty
  | .bus _ _ _ => true
  | .mem _ _ _ _ => true

/-- The end of a run (R175). -/
def runEnded (s : State) : Bool :=
  s.cmds.isEmpty && s.seqOp == 0x00#8 && s.ctx == .fg && !s.dispatchEnabled &&
    s.fault.isNone && s.refused.isNone

/-- `n` steps of one instruction, with no other agent between them, stopping where it stops. -/
def execRun : Nat → Instr → State → StepResult
  | 0, _, s => .next s
  | n + 1, i, s =>
    match exec i s with
    | .next t => execRun n i t
    | .fault f => .fault f
    | .refused q => .refused q

/-- The register an instruction of the bus family accesses (R74). -/
def accessedRegister : Instr → Option RegName
  | .configure _ _ => none
  | .stop => none
  | .putc _ => none
  | .tpinit _ => none
  | .tprecv => none
  | .rxisr => none
  | .regWriteCR _ => some .CR
  | .regWriteMR _ => some .MR
  | .regReadMR => some .MR
  | .regWriteIER _ => some .IER
  | .regWriteIDR _ => some .IDR
  | .regReadSR => some .SR
  | .regReadRHR => some .RHR
  | .regWriteTHR _ => some .THR
  | .regWriteBRGR _ => some .BRGR
  | .regWritePTCR _ => some .PTCR

/-- The step about to be taken is micro-operation `n` of the command whose opcode is `op` (R12, R172). -/
abbrev State.takesStep (s : State) (op : Opcode) (n : BitVec 4) : Prop :=
  (nextTurn s).1 = .fg ∧ s.ctx = .fg ∧ s.seqOp = op ∧ s.seqStep = n

/-- The step about to be taken is micro-operation `n` of CONFIGURE or of TPINIT (R110, R150). -/
abbrev State.takesConfiguration (s : State) (n : BitVec 4) : Prop := s.takesStep 0x01#8 n ∨ s.takesStep 0x04#8 n

/-- The step about to be taken is step `n` of the handler (R141, R142). -/
abbrev State.takesHandler (s : State) (n : BitVec 2) : Prop := (nextTurn s).1 = .irq ∧ s.ctx = .irq ∧ s.istep = n

/-! ### Infinite runs, and the three progress assumptions of R174

No assumption is built in: each is a premise that a claim names where it uses it. There is none for command acceptance,
arrivals, the block-transfer engine or the consumer. -/

/-- An infinite run: at each moment `turns` says whose step it is (R172), and the machine takes it. -/
def IsRun (turns : Nat → Turn) (states : Nat → State) : Prop :=
  ∀ n, step { states n with agenda := [turns n] } = .next (states (n + 1))

/-- A foreground micro-operation is enabled (R172). -/
abbrev State.microEnabled (s : State) : Prop := s.ctx = .fg ∧ 1 ≤ s.seqOp.toNat ∧ s.seqOp.toNat ≤ 5

/-- F1: a foreground or handler micro-operation that is enabled is eventually taken (R174, log 26). -/
def FairSequencer (turns : Nat → Turn) (states : Nat → State) : Prop :=
  ∀ n,
    ((states n).microEnabled → ∃ m, n ≤ m ∧ (states m).microEnabled ∧ turns m = .fg) ∧
    ((states n).ctx = .irq → ∃ m, n ≤ m ∧ (states m).ctx = .irq ∧ turns m = .irq)

/-- F2: an interrupt dispatch that stays enabled is eventually taken (R174): once enabled, it is taken at some
moment or is no longer enabled at some moment. -/
def FairDispatch (turns : Nat → Turn) (states : Nat → State) : Prop :=
  ∀ n, (states n).dispatchEnabled = true →
    ∃ m, n ≤ m ∧ ((states m).dispatchEnabled = false ∨ turns m = .irq)

/-- F3: the transmitter is not wedged: a drain step that stays enabled is eventually taken (R174). The source does not
guarantee it. -/
def FairDrain (turns : Nat → Turn) (states : Nat → State) : Prop :=
  ∀ n, enabled .txDrain (states n) = true →
    ∃ m, n ≤ m ∧ (enabled .txDrain (states m) = false ∨ turns m = .txDrain)

/-! ### What the history shows (R29, R176) -/

/-- The bytes written to `THR`, in order. -/
def thrWrites (h : List Event) : List Byte :=
  h.filterMap fun e => match e with
    | .regW .THR v => some (lowByte v)
    | _ => none

/-- The bytes the transmitter sent, in order. -/
def bytesOut (h : List Event) : List Byte :=
  h.filterMap fun e => match e with
    | .txOut b => some b
    | _ => none

/-- The bytes the block-transfer engine took, in order. -/
def bytesTaken (h : List Event) : List Byte :=
  h.filterMap fun e => match e with
    | .pdcTake b => some b
    | _ => none

/-- The bytes whose push was kept, in order. -/
def bytesKept (h : List Event) : List Byte :=
  h.filterMap fun e => match e with
    | .push b true => some b
    | _ => none

/-- The bytes popped, in order. -/
def bytesPopped (h : List Event) : List Byte :=
  h.filterMap fun e => match e with
    | .pop b => some b
    | _ => none

/-- The byte written to `THR` and not yet drained. -/
def State.pendingOut (s : State) : List Byte := if s.thrValid then [s.thrByte] else []

/-- Every result in a history is a byte or the sentinel, and is TPRECV's (R62). -/
def ResultsInRange (h : List Event) : Prop :=
  ∀ op r, Event.done op (some r) ∈ h → op = 0x05#8 ∧ (r.toNat ≤ 0xFF ∨ r = 0xFFFF#16)

/-! ### The invariant -/

/-- A turn that R173 rules out: something outside the block drives its registers. -/
def Turn.harness : Turn → Bool
  | .fg => false
  | .irq => false
  | .rxArrive _ => false
  | .txDrain => false
  | .pdcTake => false
  | .pop => false
  | .bus _ _ _ => true
  | .mem _ _ _ _ => true

/-- No harness's access is to come: the assumption of R173. -/
abbrev State.noHarness (s : State) : Prop := s.agenda.all (fun t => !t.harness) = true

/-- The flags and the holding registers agree (R21, R22, R89). -/
abbrev FlagsInv (s : State) : Prop :=
  (s.rxrdy = true → s.rhr.isSome = true) ∧
  (s.thrValid = true → s.thr.isSome = true ∧ s.txe = false) ∧
  (s.txe = true → s.txen = true)

/-- Nothing is on before the clock gate is (R14, R80, R214). -/
abbrev ClockInv (s : State) : Prop :=
  s.clk = false →
    s.rxen = false ∧ s.txen = false ∧ s.rxrdy = false ∧ s.txe = false ∧ s.thrValid = false ∧
    s.imrRxrdy = false ∧ s.lineEn = false ∧ s.pdcRxen = false ∧ s.mr = none ∧ s.brgr = none

/-- The registers hold only what the block writes (R73, R86, R170). -/
abbrev RegistersInv (s : State) : Prop :=
  (s.mr = none ∨ s.mr = some 0x00000800#32) ∧
  s.brgr.all (fun d => decide (d.toNat < 2 ^ s.cfg.divisorWidth)) = true ∧
  s.pdcTxen = false ∧
  (s.pdcRxen = true → s.cfg.variant = .telemetryDriver)

/-- The last step number of the command in progress (R12, R110, R120, R130, R150, R155). -/
def lastStep (c : Config) (op : Opcode) : Nat :=
  if op = 0x01#8 then (if c.variant = .interruptDriver then 8 else 6)
  else if op = 0x04#8 then 7
  else if op = 0x00#8 then 0
  else 1

/-- The sequencer stands at a step of a command of its variant, with what earlier steps established. -/
abbrev SequencerInv (s : State) : Prop :=
  s.seqOp.toNat ≤ 5 ∧
  s.seqStep.toNat ≤ lastStep s.cfg s.seqOp ∧
  (s.seqOp ≠ 0x00#8 → s.cfg.variant ≠ .noOpDriver ∧ s.latchA.isSome = true ∧ s.latchB.isSome = true) ∧
  (s.seqOp = 0x04#8 ∨ s.seqOp = 0x05#8 → s.cfg.variant = .telemetryDriver) ∧
  (s.seqOp = 0x01#8 ∨ s.seqOp = 0x04#8 → 1 ≤ s.seqStep.toNat →
    s.latchT.isSome = true ∧ s.latchT.all (fun d => decide (d.toNat < 2 ^ s.cfg.divisorWidth)) = true) ∧
  (s.seqOp = 0x01#8 ∨ s.seqOp = 0x04#8 → 2 ≤ s.seqStep.toNat → s.clk = true) ∧
  (s.seqOp = 0x02#8 ∨ s.seqOp = 0x03#8 ∨ s.seqOp = 0x05#8 → 1 ≤ s.seqStep.toNat → s.clk = true) ∧
  (s.seqOp = 0x03#8 → 1 ≤ s.seqStep.toNat → s.txe = true)

/-- The interrupt path exists in `InterruptDriver` only, and the handler finds a byte (R143, R144). -/
abbrev HandlerInv (s : State) : Prop :=
  (s.imrRxrdy = true ∨ s.lineEn = true → s.cfg.variant = .interruptDriver) ∧
  (s.ctx = .fg → s.istep = 0#2) ∧
  (s.ctx = .irq →
    s.cfg.variant = .interruptDriver ∧ s.clk = true ∧ s.seqOp ≠ 0x01#8 ∧ s.seqOp ≠ 0x02#8 ∧
    s.istep.toNat ≤ 1 ∧ (s.istep = 0#2 → s.rxrdy = true) ∧ (s.istep = 1#2 → s.latchTI.isSome = true))

/-- The receive buffer keeps its bound, and is used in `InterruptDriver` only (R27, R143). -/
abbrev BufferInv (s : State) : Prop :=
  s.rxbuf.length ≤ 512 ∧ (s.rxbuf ≠ [] → s.cfg.variant = .interruptDriver)

/-- The invariant of every run from reset that no harness drives. -/
abbrev BlockInv (s : State) : Prop :=
  s.noHarness ∧ FlagsInv s ∧ ClockInv s ∧ RegistersInv s ∧ SequencerInv s ∧ HandlerInv s ∧ BufferInv s

/-- What a CONFIGURE in progress has established before step `s.seqStep`, whatever the other agents did
between its steps (R110, R117). -/
abbrev ConfigureProgress (s : State) : Prop :=
  s.seqOp = 0x01#8 →
    s.latchA.isSome = true ∧ s.latchB.isSome = true ∧
    (1 ≤ s.seqStep.toNat →
      s.pins = .peripheral s.cfg.pinMask .peripheralInputNoPullUp ∧
      s.latchT = some (BitVec.ofNat 32 (s.readB.toNat / (16 * s.readA.toNat)))) ∧
    (2 ≤ s.seqStep.toNat → s.clk = true) ∧
    (3 ≤ s.seqStep.toNat → s.thrValid = false) ∧
    (3 ≤ s.seqStep.toNat → s.seqStep.toNat ≤ 6 →
      s.rxen = false ∧ s.txen = false ∧ s.rxrdy = false ∧ s.txe = false) ∧
    (4 ≤ s.seqStep.toNat → s.mr = some 0x00000800#32) ∧
    (5 ≤ s.seqStep.toNat → s.brgr = s.latchT) ∧
    (6 ≤ s.seqStep.toNat → s.pdcRxen = false ∧ s.pdcTxen = false) ∧
    (7 ≤ s.seqStep.toNat → s.rxen = true ∧ s.txen = true) ∧
    (8 ≤ s.seqStep.toNat → s.imrRxrdy = true)

end Sys2Proof.Machine
end

