-- ==== Sys2Proof/Certificates/Slice0/Obligations.lean ====
section
/-! DEFINITION. The statements for the provers, read from the numbered rules of spec/. Next states are written out as
record updates, so each statement is also the instruction's frame: a field that is not named is unchanged. The block
has no memory of bytes (20_memory.md R40); the registers, the buffer and the sinks are fields. -/

open Sys2Proof Sys2Proof.Machine

/-! ### Reset and construction -/

/-- The state after reset is the table of R32 (R211, R212), for every configuration; the configuration `State.reset`
has is the model's choice (log 5), as are the three fields of the model's own (log 2, log 8). -/
def Obligations.ResetStateIsTheResetTable : Prop :=
  (∀ c : Config,
    let s := State.resetOf c
    s.seqOp = 0x00#8 ∧ s.seqStep = 0#4 ∧ s.ctx = .fg ∧ s.istep = 0#2 ∧
    s.latchA = none ∧ s.latchB = none ∧ s.latchRes = none ∧ s.latchT = none ∧ s.latchTI = none ∧
    s.clk = false ∧ s.pins = .none ∧ s.lineEn = false ∧ s.rxen = false ∧ s.txen = false ∧
    s.mr = none ∧ s.brgr = none ∧ s.imrRxrdy = false ∧ s.pdcRxen = false ∧ s.pdcTxen = false ∧
    s.rxrdy = false ∧ s.rhr = none ∧ s.txe = false ∧ s.thrValid = false ∧ s.thr = none ∧
    s.rxbuf = [] ∧ s.port = .unconfigured ∧ s.hist = [] ∧ s.lineOut = [] ∧ s.pdcSink = [] ∧
    s.fault = none ∧ s.refused = none ∧ s.cfg = c) ∧
  State.reset = State.resetOf State.reset.cfg

/-- No switch, or one of the three alone, names a variant: the block starts at reset where exactly two pins are named,
the clock is not 0 under telemetry, no protocol's baud rate is 0, the divisor is no wider than a register and the base
is a multiple of 4, and is otherwise refused at construction and never takes a step. Debug and telemetry together are
refused (R1, R2, R5, R44, R183), and so is the simulated switch with another: DEDUCED where R1 is silent (log 16). -/
def Obligations.IllFormedConfigurationIsRefused : Prop :=
  ∀ (b : BuildSwitches) (c : Config),
    (∀ v : Variant,
      (b, v) ∈ [(⟨true, false, false⟩, .noOpDriver), (⟨false, false, false⟩, .pollingOnlyDriver),
        (⟨false, true, false⟩, .interruptDriver), (⟨false, false, true⟩, .telemetryDriver)] →
      let wellFormed : Prop :=
        (∃ i j : Fin 32, i ≠ j ∧ ∀ k : Fin 32, c.pinMask.getLsbD k = true ↔ k = i ∨ k = j) ∧
        (v = .telemetryDriver → c.masterClock ≠ 0#32) ∧
        (∀ p, c.telemetryBaud.lookup p ≠ some 0#32) ∧ c.divisorWidth ≤ 32 ∧ c.uartBase % 4 = 0
      (wellFormed → State.construct b c = State.resetOf { c with variant := v }) ∧
      (¬ wellFormed → step (State.construct b c) = .refused .badConfiguration)) ∧
    (b.debug = true → b.telemetry = true → step (State.construct b c) = .refused .badConfiguration) ∧
    (b.simulated = true → b.debug = true ∨ b.telemetry = true →
      step (State.construct b c) = .refused .badConfiguration)

/-! ### Encodings -/

/-- Decoding what the encoder writes gives the instruction back, for every instruction and all its operands. -/
def Obligations.DecodeOfEncodeIsTheInstruction : Prop :=
  ∀ i : Instr, decode (encode i) = .ok i

/-- A command word that decodes is the one the encoder writes, but for the unused bits of RXISR; a bus access
that decodes has the encoder's header, and a write carries its data lines (R56, R57, R60, R74). -/
def Obligations.DecodableFetchIsWhatTheEncoderWrites : Prop :=
  (∀ (cw : CmdWord) (i : Instr), decode (.cmd cw) = .ok i → i ≠ .rxisr → encode i = .cmd cw) ∧
  (∀ (h : Header) (d : Word) (i : Instr), decode (.bus h d) = .ok i →
    encode i = .bus h (if h.getLsbD 12 then d else 0#32))

/-- Words and headers written out from R56, R57 and R74 decode to the instructions they stand for. -/
def Obligations.WrittenOutWordsDecode : Prop :=
  decode (.cmd 0x0100004B0002DC6C00#72) = .ok (.configure 19200#32 48000000#32) ∧
  decode (.cmd 0x020000000000000000#72) = .ok .stop ∧
  decode (.cmd 0x030000004100000000#72) = .ok (.putc 0x41#8) ∧
  decode (.cmd 0x040000000100000000#72) = .ok (.tpinit 1#8) ∧
  decode (.cmd 0x050000000000000000#72) = .ok .tprecv ∧
  decode (.bus 0x1000#13 0xAC#32) = .ok (.regWriteCR 0xAC#32) ∧
  decode (.bus 0x0014#13 0x0#32) = .ok .regReadSR

/-- A word whose opcode is 0x00 or 0x06 to 0xFF, at the port of an idle sequencer, is refused and changes nothing but
the mark and the history (R61). That the word leaves the port and the turn the agenda is the model's choice (log 2,
log 7). -/
def Obligations.ReservedOpcodeIsRefused : Prop :=
  ∀ (s : State) (rest : List Turn) (cw : CmdWord) (cs : List CmdWord),
    s.live → s.ctx = .fg → s.seqOp = 0x00#8 → s.agenda = .fg :: rest → s.cmds = cw :: cs →
    (cw.extractLsb' 64 8 = 0x00#8 ∨ 0x06#8 ≤ cw.extractLsb' 64 8) →
    step s = .next { s with
      agenda := rest, cmds := cs,
      refused := some (.reservedOpcode (cw.extractLsb' 64 8)),
      hist := s.hist ++ [.refuse (.reservedOpcode (cw.extractLsb' 64 8))] }

/-- A word with a 1 in a reserved operand bit is refused before its variant is looked at and has no effect (R59, R60).
That the word leaves the port and the turn the agenda is the model's choice (log 2, log 7). -/
def Obligations.ReservedOperandBitsAreRefused : Prop :=
  ∀ (s : State) (rest : List Turn) (cw : CmdWord) (cs : List CmdWord),
    s.live → s.ctx = .fg → s.seqOp = 0x00#8 → s.agenda = .fg :: rest → s.cmds = cw :: cs →
    ((cw.extractLsb' 64 8 = 0x02#8 ∨ cw.extractLsb' 64 8 = 0x05#8) ∧ cw.extractLsb' 0 64 ≠ 0#64 ∨
     (cw.extractLsb' 64 8 = 0x03#8 ∨ cw.extractLsb' 64 8 = 0x04#8) ∧
       (cw.extractLsb' 40 24 ≠ 0#24 ∨ cw.extractLsb' 0 32 ≠ 0#32)) →
    step s = .next { s with
      agenda := rest, cmds := cs,
      refused := some (.reservedOperandBits cw),
      hist := s.hist ++ [.refuse (.reservedOperandBits cw)] }

/-- A harness's access, by header or by the address `UART_BASE` plus the header's offset, that is not a whole
register's, or whose header is none of the ten (a misaligned or a reserved offset, a wrong direction), is refused,
returns nothing and changes nothing (R44, R47, R94). The turns, and the test of the access before the clock, are the
model's choice (log 18, log 24), and so is it that an offset from 0x200 to 0xFFF, which R64 does not name, is refused
as a reserved one (log 27). -/
def Obligations.UndefinedBusAccessIsRefused : Prop :=
  ∀ (s : State) (rest : List Turn) (h : Header) (size : Nat) (data : Word),
    s.live →
    (s.agenda = .bus h size data :: rest ∨
      s.agenda = .mem (h.getLsbD 12) (s.cfg.uartBase + (h.extractLsb' 0 12).toNat) size data :: rest) →
    (size ≠ 4 ∨ h ∉ [0x1000#13, 0x1004#13, 0x0004#13, 0x1008#13, 0x100C#13, 0x0014#13, 0x0018#13,
      0x101C#13, 0x1020#13, 0x1120#13]) →
    step s = .next { s with
      agenda := rest,
      refused := some (.badBusAccess (h.getLsbD 12) (Int.ofNat (h.extractLsb' 0 12).toNat)),
      hist := s.hist ++ [.refuse (.badBusAccess (h.getLsbD 12) (Int.ofNat (h.extractLsb' 0 12).toNat))] }

/-! ### The step -/

/-- A step of the foreground at an idle sequencer runs the instruction its command word decodes to, the word taken
from the port. The port's list and the agenda are the model's own (log 2). -/
def Obligations.StepRunsThePresentedCommand : Prop :=
  ∀ (s : State) (rest : List Turn) (cw : CmdWord) (cs : List CmdWord) (i : Instr),
    s.live → s.ctx = .fg → s.seqOp = 0x00#8 → s.agenda = .fg :: rest → s.cmds = cw :: cs →
    decode (.cmd cw) = .ok i →
    step s = exec i { s with agenda := rest, cmds := cs }

/-- A step of the foreground at a busy sequencer runs the command in progress (R11, R12), a step of the interrupt agent
in the interrupt context the handler (R13, R172), and a harness's access the instruction its header decodes to (R74,
R94). The agenda is the model's own (log 2), and so is the harness's turn on it (log 18). -/
def Obligations.StepRunsTheInstructionInProgress : Prop :=
  ∀ (s : State) (rest : List Turn), s.live →
    (s.ctx = .fg → s.agenda = .fg :: rest →
      (s.seqOp = 0x01#8 → step s = exec (.configure s.readA s.readB) { s with agenda := rest }) ∧
      (s.seqOp = 0x02#8 → step s = exec .stop { s with agenda := rest }) ∧
      (s.seqOp = 0x03#8 → step s = exec (.putc (s.readA.setWidth 8)) { s with agenda := rest }) ∧
      (s.seqOp = 0x04#8 → step s = exec (.tpinit (s.readA.setWidth 8)) { s with agenda := rest }) ∧
      (s.seqOp = 0x05#8 → step s = exec .tprecv { s with agenda := rest })) ∧
    (s.ctx = .irq → s.agenda = .irq :: rest → step s = exec .rxisr { s with agenda := rest }) ∧
    (∀ h d i, s.agenda = .bus h 4 d :: rest → decode (.bus h d) = .ok i →
      step s = exec i { s with agenda := rest })

/-- A word of the opcode table that decodes and is put where the step fetches is run by the very next step: a bus
access in the state as it is, RXISR in the interrupt context, another command at an idle sequencer. How a word is
placed is the model's choice (log 4, log 18, log 19). -/
def Obligations.PlacedWordIsRunByTheNextStep : Prop :=
  ∀ (s : State) (nbits w : Nat) (i : Instr), s.live → decodeTableWord nbits w = some i →
    step (s.withFetchWord nbits w) =
      exec i (if (accessedRegister i).isSome then s
        else if i = .rxisr then { s with ctx := .irq, istep := 0#2 }
        else { s with ctx := .fg, seqOp := 0x00#8, seqStep := 0#4 })

/-- An access by address at any of the 4096 offsets from `UART_BASE` is the access of the header with that offset, so
that every register is reached at `UART_BASE + offset` (R41, R64, R74). At any other address, of which no rule speaks, it
is the model's choice that the access is refused whatever its size and the clock, as R94 refuses a reserved offset,
and that the refusal carries the signed distance from the base (log 24). The harness's turns are the model's own (log
18). -/
def Obligations.AddressedAccessIsTheRegistersAccess : Prop :=
  ∀ (s : State) (rest : List Turn) (we : Bool) (size : Nat) (data : Word),
    (∀ offset : BitVec 12,
      step { s with agenda := .mem we (s.cfg.uartBase + offset.toNat) size data :: rest } =
        step { s with agenda := .bus (BitVec.ofBool we ++ offset) size data :: rest }) ∧
    (∀ addr : Nat, s.live → s.agenda = .mem we addr size data :: rest →
      addr < s.cfg.uartBase ∨ s.cfg.uartBase + 0xFFF < addr →
      let refusal : Refusal := .badBusAccess we ((addr : Int) - (s.cfg.uartBase : Int))
      step s = .next { s with
        agenda := rest, refused := some refusal, hist := s.hist ++ [.refuse refusal] })

/-- In a state with a mark no step is enabled: the machine answers that mark, and so does every instruction
(R31, R172). -/
def Obligations.MarkedStateHasNoStep : Prop :=
  ∀ s : State,
    (∀ f, s.fault = some f → step s = .fault f ∧ ∀ i, exec i s = .fault f) ∧
    (∀ q, s.fault = none → s.refused = some q → step s = .refused q ∧ ∀ i, exec i s = .refused q)

/-- A turn whose agent has no enabled step passes: nothing but the agenda changes (R172). That a turn may be
offered to an agent that has no step is the model's choice (log 2). -/
def Obligations.TurnWithNoEnabledStepPasses : Prop :=
  ∀ (s : State) (t : Turn) (rest : List Turn), s.live → s.agenda = t :: rest → enabled t s = false →
    step s = .next { s with agenda := rest }

/-- In a state of the invariant, a turn with an enabled step takes it: the machine goes on and the history grows
(R172). -/
def Obligations.TurnWithAnEnabledStepIsTaken : Prop :=
  ∀ (s : State) (t : Turn) (rest : List Turn), BlockInv s → s.live → s.agenda = t :: rest → enabled t s = true →
    ∃ s', step s = .next s' ∧ s.hist.length < s'.hist.length

/-- Every step leaves the configuration, takes one turn off the agenda, presents command words in order, and only adds
to the end of the history (R1, R29, R33, R53). The agenda and the list of words are the model's own (log 2). -/
def Obligations.StepKeepsConfigurationAndExtendsHistory : Prop :=
  ∀ s t : State, step s = .next t →
    t.cfg = s.cfg ∧ t.agenda = s.agenda.tail ∧ (t.cmds = s.cmds ∨ t.cmds = s.cmds.tail) ∧
    s.hist <+: t.hist ∧ t.hist.length ≤ s.hist.length + 2

/-! ### Command acceptance -/

/-- At an idle sequencer in the foreground a command of its variant is accepted: `Cmd`, the opcode, step 0 and the
two operands are loaded and nothing else changes (R56, R59). -/
def Obligations.IdleSequencerAcceptsTheCommand : Prop :=
  ∀ (s : State), s.live → s.ctx = .fg → s.seqOp = 0x00#8 →
    (s.cfg.variant ≠ .noOpDriver →
      (∀ b m : Word, exec (.configure b m) s = .next { s with
        seqOp := 0x01#8, seqStep := 0#4, latchA := some b, latchB := some m,
        hist := s.hist ++ [.cmd 0x01#8 b m] }) ∧
      exec .stop s = .next { s with
        seqOp := 0x02#8, seqStep := 0#4, latchA := some 0#32, latchB := some 0#32,
        hist := s.hist ++ [.cmd 0x02#8 0#32 0#32] } ∧
      (∀ c : Byte, exec (.putc c) s = .next { s with
        seqOp := 0x03#8, seqStep := 0#4, latchA := some (c.setWidth 32), latchB := some 0#32,
        hist := s.hist ++ [.cmd 0x03#8 (c.setWidth 32) 0#32] })) ∧
    (s.cfg.variant = .telemetryDriver →
      (∀ p : Byte, exec (.tpinit p) s = .next { s with
        seqOp := 0x04#8, seqStep := 0#4, latchA := some (p.setWidth 32), latchB := some 0#32,
        hist := s.hist ++ [.cmd 0x04#8 (p.setWidth 32) 0#32] }) ∧
      exec .tprecv s = .next { s with
        seqOp := 0x05#8, seqStep := 0#4, latchA := some 0#32, latchB := some 0#32,
        hist := s.hist ++ [.cmd 0x05#8 0#32 0#32] })

/-- In `NoOpDriver` CONFIGURE, STOP and PUTC are accepted and complete at once, whatever their operands, with no change
but the two events of R59 (R3, R119, R125, R135). That the events are appended is DEDUCED: R119 says so of CONFIGURE,
where R3 says no event (log 25). -/
def Obligations.NoOpDriverCompletesWithNoEffect : Prop :=
  ∀ (s : State), s.live → s.ctx = .fg → s.seqOp = 0x00#8 → s.cfg.variant = .noOpDriver →
    (∀ b m : Word, exec (.configure b m) s =
      .next { s with hist := s.hist ++ [.cmd 0x01#8 b m, .done 0x01#8 none] }) ∧
    exec .stop s = .next { s with hist := s.hist ++ [.cmd 0x02#8 0#32 0#32, .done 0x02#8 none] } ∧
    (∀ c : Byte, exec (.putc c) s =
      .next { s with hist := s.hist ++ [.cmd 0x03#8 (c.setWidth 32) 0#32, .done 0x03#8 none] })

/-- TPINIT and TPRECV outside `TelemetryDriver` are refused and have no effect (R152). -/
def Obligations.TelemetryCommandsExistInTheirVariantOnly : Prop :=
  ∀ (s : State) (p : Byte), s.live → s.ctx = .fg → s.seqOp = 0x00#8 → s.cfg.variant ≠ .telemetryDriver →
    exec (.tpinit p) s = .next { s with
      refused := some (.notInVariant 0x04#8), hist := s.hist ++ [.refuse (.notInVariant 0x04#8)] } ∧
    exec .tprecv s = .next { s with
      refused := some (.notInVariant 0x05#8), hist := s.hist ++ [.refuse (.notInVariant 0x05#8)] }

/-- While another command is in progress, or the handler runs, a presented command is not accepted: it waits and
nothing changes (R13, R59). The step offers a word to an idle sequencer only; this says what `exec` does elsewhere.
That waiting is a step of `exec` is the model's reading (log 1). -/
def Obligations.BusySequencerDoesNotAccept : Prop :=
  ∀ (s : State) (b m : Word) (c p : Byte), s.live → (s.ctx = .irq ∨ s.seqOp ≠ 0x00#8) →
    (s.ctx = .irq ∨ s.seqOp ≠ 0x01#8 → exec (.configure b m) s = .next s) ∧
    (s.ctx = .irq ∨ s.seqOp ≠ 0x02#8 → exec .stop s = .next s) ∧
    (s.ctx = .irq ∨ s.seqOp ≠ 0x03#8 → exec (.putc c) s = .next s) ∧
    (s.ctx = .irq ∨ s.seqOp ≠ 0x04#8 → exec (.tpinit p) s = .next s) ∧
    (s.ctx = .irq ∨ s.seqOp ≠ 0x05#8 → exec .tprecv s = .next s)

/-! ### Register accesses -/

/-- A register access while the clock gate is off sets the fault and does nothing else; so do STOP, PUTC and TPRECV
at their first register access, the sequencer left where it is (R80, R122, R135, R155, R214). -/
def Obligations.UnclockedRegisterAccessFaults : Prop :=
  ∀ (s : State), s.live → s.clk = false →
    (∀ (i : Instr) (r : RegName), accessedRegister i = some r →
      exec i s = .next { s with
        fault := some (.unclockedAccess r), hist := s.hist ++ [.fault (.unclockedAccess r)] }) ∧
    (s.ctx = .fg → s.seqStep = 0#4 →
      (s.seqOp = 0x02#8 → exec .stop s = .next { s with
        fault := some (.unclockedAccess .IDR), hist := s.hist ++ [.fault (.unclockedAccess .IDR)] }) ∧
      (s.seqOp = 0x03#8 → ∀ c, exec (.putc c) s = .next { s with
        fault := some (.unclockedAccess .SR), hist := s.hist ++ [.fault (.unclockedAccess .SR)] }) ∧
      (s.seqOp = 0x05#8 → exec .tprecv s = .next { s with
        fault := some (.unclockedAccess .SR), hist := s.hist ++ [.fault (.unclockedAccess .SR)] }))

/-- A status read returns the two flags in their places, records the value, and changes nothing else but the count of
drawn values (R68, R81). The other bits are a free value, the count of draws the model's own (log 8). -/
def Obligations.StatusReadReturnsTheFlags : Prop :=
  ∀ (s : State), s.live →
    decode (.bus 0x0014#13 0#32) = .ok .regReadSR ∧
    (s.clk = false → exec .regReadSR s = .next { s with
      fault := some (.unclockedAccess .SR), hist := s.hist ++ [.fault (.unclockedAccess .SR)] }) ∧
    (s.clk = true → ∃ v : Word, v.getLsbD 0 = s.rxrdy ∧ v.getLsbD 9 = s.txe ∧
      exec .regReadSR s = .next { s with hist := s.hist ++ [.regR .SR v], draws := s.draws + 1 })

/-- A write of `CR` performs the commands whose bits are 1, disables before enables, or is refused where it has a
reserved bit or asks for both of a pair (R65, R83). -/
def Obligations.ControlWritePerformsItsCommands : Prop :=
  ∀ (v : Word) (s : State), s.live →
    decode (.bus 0x1000#13 v) = .ok (.regWriteCR v) ∧
    (s.clk = false → exec (.regWriteCR v) s = .next { s with
      fault := some (.unclockedAccess .CR), hist := s.hist ++ [.fault (.unclockedAccess .CR)] }) ∧
    (s.clk = true → v &&& ~~~0x000000FC#32 ≠ 0#32 ∨ (v.getLsbD 4 = true ∧ v.getLsbD 5 = true) ∨
        (v.getLsbD 6 = true ∧ v.getLsbD 7 = true) →
      exec (.regWriteCR v) s = .next { s with
        refused := some (.badControlWrite v), hist := s.hist ++ [.refuse (.badControlWrite v)] }) ∧
    (s.clk = true → v &&& ~~~0x000000FC#32 = 0#32 → ¬ (v.getLsbD 4 = true ∧ v.getLsbD 5 = true) →
        ¬ (v.getLsbD 6 = true ∧ v.getLsbD 7 = true) →
      exec (.regWriteCR v) s = .next { s with
        rxrdy := if v.getLsbD 2 then false else s.rxrdy
        rhr := if v.getLsbD 2 then none else s.rhr
        thrValid := if v.getLsbD 3 then false else s.thrValid
        txe := if v.getLsbD 3 then false else s.txe
        rxen := if v.getLsbD 4 then true else if v.getLsbD 5 then false else s.rxen
        txen := if v.getLsbD 6 then true else if v.getLsbD 7 then false else s.txen
        hist := s.hist ++ [.regW .CR v] })

/-- A write of `MR` stores the value; the optional refusal of other values than `MODE_VALUE` is taken where the
configuration asks for it; a read returns what was written, or a free value before the first write (R84, R85). The
optional refusal is a switch of the configuration (log 12), the free value a draw (log 8). -/
def Obligations.ModeRegisterReadsAndWrites : Prop :=
  ∀ (v : Word) (s : State), s.live → s.clk = true →
    (s.cfg.refuseOtherModes = false ∨ v = 0x00000800#32 →
      exec (.regWriteMR v) s = .next { s with mr := some v, hist := s.hist ++ [.regW .MR v] }) ∧
    (s.cfg.refuseOtherModes = true → v ≠ 0x00000800#32 →
      exec (.regWriteMR v) s = .next { s with
        refused := some (.badModeValue v), hist := s.hist ++ [.refuse (.badModeValue v)] }) ∧
    (s.mr = some v → exec .regReadMR s = .next { s with hist := s.hist ++ [.regR .MR v] }) ∧
    (s.mr = none → ∃ w : Word,
      exec .regReadMR s = .next { s with hist := s.hist ++ [.regR .MR w], draws := s.draws + 1 })

/-- A write of `BRGR` stores the divisor, 0 as any other, and one too wide is refused (R86). -/
def Obligations.DivisorWriteStoresTheDivisor : Prop :=
  ∀ (d : Word) (s : State), s.live →
    decode (.bus 0x1020#13 d) = .ok (.regWriteBRGR d) ∧
    (s.clk = false → exec (.regWriteBRGR d) s = .next { s with
      fault := some (.unclockedAccess .BRGR), hist := s.hist ++ [.fault (.unclockedAccess .BRGR)] }) ∧
    (s.clk = true → d.toNat < 2 ^ s.cfg.divisorWidth →
      exec (.regWriteBRGR d) s = .next { s with brgr := some d, hist := s.hist ++ [.regW .BRGR d] }) ∧
    (s.clk = true → 2 ^ s.cfg.divisorWidth ≤ d.toNat →
      exec (.regWriteBRGR d) s = .next { s with
        refused := some (.divisorTooWide d.toNat), hist := s.hist ++ [.refuse (.divisorTooWide d.toNat)] })

/-- A read of `RHR` returns the ready byte with zero upper bits and clears receive-ready, keeping the byte; with
nothing ready the value is free and the flag stays clear (R69, R88). The free value is a draw (log 8). -/
def Obligations.ReceiveHoldingReadAcknowledges : Prop :=
  ∀ (s : State), s.live → s.clk = true →
    (∀ b, s.rxrdy = true → s.rhr = some b →
      exec .regReadRHR s = .next { s with
        rxrdy := false, hist := s.hist ++ [.regR .RHR (b.setWidth 32)] }) ∧
    (s.rxrdy = false → ∃ w : Word,
      exec .regReadRHR s = .next { s with hist := s.hist ++ [.regR .RHR w], draws := s.draws + 1 })

/-- A write of `THR` while transmit-empty is set hands its low byte to the transmitter and clears the flag; while it
is clear the write is refused (R89). -/
def Obligations.TransmitHoldingWriteClearsEmpty : Prop :=
  ∀ (c : Word) (s : State), s.live →
    decode (.bus 0x101C#13 c) = .ok (.regWriteTHR c) ∧
    (s.clk = false → exec (.regWriteTHR c) s = .next { s with
      fault := some (.unclockedAccess .THR), hist := s.hist ++ [.fault (.unclockedAccess .THR)] }) ∧
    (s.clk = true → s.txe = true → exec (.regWriteTHR c) s = .next { s with
      thr := some (c.setWidth 8), thrValid := true, txe := false, hist := s.hist ++ [.regW .THR c] }) ∧
    (s.clk = true → s.txe = false → exec (.regWriteTHR c) s = .next { s with
      refused := some (.thrOverwrite c), hist := s.hist ++ [.refuse (.thrOverwrite c)] })

/-- A 1 in bit `RXRDY` of `IER` sets the mask bit and in `IDR` clears it; a 0 changes nothing, nor does any other
bit; `RXRDY` itself is not touched (R67, R90, R91). -/
def Obligations.InterruptMaskWritesSetAndClear : Prop :=
  ∀ (m : Word) (s : State), s.live →
    decode (.bus 0x1008#13 m) = .ok (.regWriteIER m) ∧
    decode (.bus 0x100C#13 m) = .ok (.regWriteIDR m) ∧
    (s.clk = false → exec (.regWriteIER m) s = .next { s with
      fault := some (.unclockedAccess .IER), hist := s.hist ++ [.fault (.unclockedAccess .IER)] }) ∧
    (s.clk = false → exec (.regWriteIDR m) s = .next { s with
      fault := some (.unclockedAccess .IDR), hist := s.hist ++ [.fault (.unclockedAccess .IDR)] }) ∧
    (s.clk = true → exec (.regWriteIER m) s = .next { s with
      imrRxrdy := s.imrRxrdy || m.getLsbD 0, hist := s.hist ++ [.regW .IER m] }) ∧
    (s.clk = true → exec (.regWriteIDR m) s = .next { s with
      imrRxrdy := s.imrRxrdy && !m.getLsbD 0, hist := s.hist ++ [.regW .IDR m] })

/-- A write of `PTCR` enables and disables the two transfers, or is refused where it has a reserved bit or asks for
both of a pair (R72, R92). -/
def Obligations.TransferControlWriteEnablesAndDisables : Prop :=
  ∀ (v : Word) (s : State), s.live →
    decode (.bus 0x1120#13 v) = .ok (.regWritePTCR v) ∧
    (s.clk = false → exec (.regWritePTCR v) s = .next { s with
      fault := some (.unclockedAccess .PTCR), hist := s.hist ++ [.fault (.unclockedAccess .PTCR)] }) ∧
    (s.clk = true → v &&& ~~~0x00000303#32 ≠ 0#32 ∨ (v.getLsbD 0 = true ∧ v.getLsbD 1 = true) ∨
        (v.getLsbD 8 = true ∧ v.getLsbD 9 = true) →
      exec (.regWritePTCR v) s = .next { s with
        refused := some (.badTransferWrite v), hist := s.hist ++ [.refuse (.badTransferWrite v)] }) ∧
    (s.clk = true → v &&& ~~~0x00000303#32 = 0#32 → ¬ (v.getLsbD 0 = true ∧ v.getLsbD 1 = true) →
        ¬ (v.getLsbD 8 = true ∧ v.getLsbD 9 = true) →
      exec (.regWritePTCR v) s = .next { s with
        pdcRxen := if v.getLsbD 0 then true else if v.getLsbD 1 then false else s.pdcRxen
        pdcTxen := if v.getLsbD 8 then true else if v.getLsbD 9 then false else s.pdcTxen
        hist := s.hist ++ [.regW .PTCR v] })

/-! ### CONFIGURE and STOP -/

/-- CONFIGURE's admission at step 0: a zero baud rate, then a zero clock, then a divisor too wide is refused with no
step performed; any other operands, a quotient of 0 among them, are admitted (R113). That latch `T` too keeps its value
on a refusal is the model's reading of R183, where R113 writes it first (log 14). -/
def Obligations.ConfigureRefusesInadmissibleOperands : Prop :=
  ∀ (s : State) (b m b' m' : Word), s.live → s.ctx = .fg → s.seqOp = 0x01#8 → s.seqStep = 0#4 →
    s.latchA = some b → s.latchB = some m →
    (b = 0#32 → exec (.configure b' m') s = .next { s with
      refused := some .zeroBaudrate, hist := s.hist ++ [.refuse .zeroBaudrate] }) ∧
    (b ≠ 0#32 → m = 0#32 → exec (.configure b' m') s = .next { s with
      refused := some .zeroMasterClock, hist := s.hist ++ [.refuse .zeroMasterClock] }) ∧
    (b ≠ 0#32 → m ≠ 0#32 → 2 ^ s.cfg.divisorWidth ≤ m.toNat / (16 * b.toNat) →
      exec (.configure b' m') s = .next { s with
        refused := some (.divisorTooWide (m.toNat / (16 * b.toNat))),
        hist := s.hist ++ [.refuse (.divisorTooWide (m.toNat / (16 * b.toNat)))] }) ∧
    (b ≠ 0#32 → m ≠ 0#32 → m.toNat / (16 * b.toNat) < 2 ^ s.cfg.divisorWidth →
      ∃ t, exec (.configure b' m') s = .next t ∧ t.refused = none ∧ t.seqOp = 0x01#8 ∧ t.seqStep = 1#4 ∧
        t.latchT = some (BitVec.ofNat 32 (m.toNat / (16 * b.toNat))))

/-- The divisor CONFIGURE latches is the truncated exact quotient, equal to the quotient taken in two divisions, and
0 where the clock is below 16 times the baud rate (R111, R112). -/
def Obligations.ConfigureDivisorIsTheTruncatedQuotient : Prop :=
  ∀ (s : State) (b m b' m' : Word), s.live → s.ctx = .fg → s.seqOp = 0x01#8 → s.seqStep = 0#4 →
    s.latchA = some b → s.latchB = some m → b ≠ 0#32 → m ≠ 0#32 →
    m.toNat / (16 * b.toNat) < 2 ^ s.cfg.divisorWidth →
    ∃ (t : State) (d : Word), exec (.configure b' m') s = .next t ∧ t.latchT = some d ∧
      16 * b.toNat * d.toNat ≤ m.toNat ∧ m.toNat < 16 * b.toNat * (d.toNat + 1) ∧
      d.toNat = m.toNat / b.toNat / 16 ∧ (m.toNat < 16 * b.toNat → d = 0#32)

/-- The micro-operations of CONFIGURE, one a step, in the source's order, and its completion after step 6, or after
step 8 in `InterruptDriver` (R110, R116). -/
def Obligations.ConfigureMicroOperationsInOrder : Prop :=
  ∀ (s : State) (b m b' m' d : Word), s.live → s.ctx = .fg → s.seqOp = 0x01#8 →
    s.latchA = some b → s.latchB = some m →
    (s.seqStep = 0#4 → b ≠ 0#32 → m ≠ 0#32 → m.toNat / (16 * b.toNat) < 2 ^ s.cfg.divisorWidth →
      exec (.configure b' m') s = .next { s with
        latchT := some (BitVec.ofNat 32 (m.toNat / (16 * b.toNat))), seqStep := 1#4,
        pins := .peripheral s.cfg.pinMask .peripheralInputNoPullUp,
        hist := s.hist ++ [.pinCfg s.cfg.pinMask .peripheralInputNoPullUp] }) ∧
    (s.seqStep = 1#4 → exec (.configure b' m') s = .next { s with
      clk := true, seqStep := 2#4, hist := s.hist ++ [.clkEn s.cfg.clockId] }) ∧
    (s.clk = true →
      (s.seqStep = 2#4 → exec (.configure b' m') s = .next { s with
        rxrdy := false, rhr := none, thrValid := false, txe := false, rxen := false, txen := false,
        seqStep := 3#4, hist := s.hist ++ [.regW .CR 0x000000AC#32] }) ∧
      (s.seqStep = 3#4 → exec (.configure b' m') s = .next { s with
        mr := some 0x00000800#32, seqStep := 4#4, hist := s.hist ++ [.regW .MR 0x00000800#32] }) ∧
      (s.seqStep = 4#4 → s.latchT = some d → d.toNat < 2 ^ s.cfg.divisorWidth →
        exec (.configure b' m') s = .next { s with
          brgr := some d, seqStep := 5#4, hist := s.hist ++ [.regW .BRGR d] }) ∧
      (s.seqStep = 5#4 → exec (.configure b' m') s = .next { s with
        pdcRxen := false, pdcTxen := false, seqStep := 6#4,
        hist := s.hist ++ [.regW .PTCR 0x00000202#32] }) ∧
      (s.seqStep = 6#4 → s.cfg.variant ≠ .interruptDriver →
        exec (.configure b' m') s = .next { s with
          rxen := true, txen := true, seqOp := 0x00#8, seqStep := 0#4, port := .configuredIdle,
          hist := s.hist ++ [.regW .CR 0x00000050#32, .done 0x01#8 none] }) ∧
      (s.cfg.variant = .interruptDriver →
        (s.seqStep = 6#4 → exec (.configure b' m') s = .next { s with
          rxen := true, txen := true, seqStep := 7#4, hist := s.hist ++ [.regW .CR 0x00000050#32] }) ∧
        (s.seqStep = 7#4 → exec (.configure b' m') s = .next { s with
          imrRxrdy := true, seqStep := 8#4, hist := s.hist ++ [.regW .IER 0x00000001#32] }) ∧
        (s.seqStep = 8#4 → exec (.configure b' m') s = .next { s with
          lineEn := true, seqOp := 0x00#8, seqStep := 0#4, port := .running,
          hist := s.hist ++ [.lineEn s.cfg.irqLine, .done 0x01#8 none] })))

/-- An admitted CONFIGURE that no other agent interrupts, from any state of the port and the registers: its events
in the source's order and its end state, in every variant that performs it (R110, R111, R115, R116, R117). -/
def Obligations.ConfigureRunsToItsEndState : Prop :=
  ∀ (s : State) (b m : Word), s.live → s.ctx = .fg → s.seqOp = 0x00#8 →
    b ≠ 0#32 → m ≠ 0#32 → m.toNat / (16 * b.toNat) < 2 ^ s.cfg.divisorWidth →
    let d : Word := BitVec.ofNat 32 (m.toNat / (16 * b.toNat))
    let events : List Event :=
      [.cmd 0x01#8 b m, .pinCfg s.cfg.pinMask .peripheralInputNoPullUp, .clkEn s.cfg.clockId,
        .regW .CR 0xAC#32, .regW .MR 0x800#32, .regW .BRGR d, .regW .PTCR 0x202#32, .regW .CR 0x50#32]
    let t : State := { s with
      seqOp := 0x00#8, seqStep := 0#4, latchA := some b, latchB := some m, latchT := some d,
      pins := .peripheral s.cfg.pinMask .peripheralInputNoPullUp, clk := true,
      rxen := true, txen := true, mr := some 0x800#32, brgr := some d,
      pdcRxen := false, pdcTxen := false, rxrdy := false, rhr := none, txe := false, thrValid := false }
    (s.cfg.variant = .pollingOnlyDriver ∨ s.cfg.variant = .telemetryDriver →
      execRun 8 (.configure b m) s = .next { t with
        port := .configuredIdle, hist := s.hist ++ events ++ [.done 0x01#8 none] }) ∧
    (s.cfg.variant = .interruptDriver →
      execRun 10 (.configure b m) s = .next { t with
        imrRxrdy := true, lineEn := true, port := .running,
        hist := s.hist ++ events ++ [.regW .IER 0x1#32, .lineEn s.cfg.irqLine, .done 0x01#8 none] })

/-- Whatever the environment does between its steps: what a CONFIGURE in progress has established stays, and at its
completion the end state of R117 holds (R50, R110, R116, R117). Harness accesses are ruled out (R173). -/
def Obligations.ConfigureReachesItsEndStateUnderInterleaving : Prop :=
  ∀ s t : State, s.noHarness → ConfigureProgress s → step s = .next t →
    ConfigureProgress t ∧
    (s.seqOp = 0x01#8 → t.seqOp = 0x00#8 →
      t.pins = .peripheral s.cfg.pinMask .peripheralInputNoPullUp ∧ t.clk = true ∧
      t.rxen = true ∧ t.txen = true ∧ t.mr = some 0x00000800#32 ∧
      t.brgr = some (BitVec.ofNat 32 (s.readB.toNat / (16 * s.readA.toNat))) ∧
      t.pdcRxen = false ∧ t.pdcTxen = false ∧ t.thrValid = false ∧
      (s.cfg.variant = .interruptDriver → t.imrRxrdy = true ∧ t.lineEn = true ∧ t.port = .running) ∧
      (s.cfg.variant ≠ .interruptDriver → t.port = .configuredIdle))

/-- The two micro-operations of STOP and its completion; nothing else is touched (R120, R121, R123). -/
def Obligations.StopMasksTheInterruptOnly : Prop :=
  ∀ (s : State), s.live → s.ctx = .fg → s.seqOp = 0x02#8 →
    (s.seqStep = 0#4 → s.clk = true → exec .stop s = .next { s with
      imrRxrdy := false, seqStep := 1#4, hist := s.hist ++ [.regW .IDR 0x00000001#32] }) ∧
    (s.seqStep = 1#4 → exec .stop s = .next { s with
      lineEn := false, seqOp := 0x00#8, seqStep := 0#4, port := .stopped,
      hist := s.hist ++ [.lineDis s.cfg.irqLine, .done 0x02#8 none] })

/-- STOP from an idle port with the clock on: accepted, performed and done in three steps, with the register state
but for the two enables as it was; a second STOP changes no register again (R120, R121, R123). -/
def Obligations.StopRunsToItsEndState : Prop :=
  ∀ (s : State), s.live → s.ctx = .fg → s.seqOp = 0x00#8 → s.cfg.variant ≠ .noOpDriver → s.clk = true →
    let events : List Event :=
      [.cmd 0x02#8 0#32 0#32, .regW .IDR 0x1#32, .lineDis s.cfg.irqLine, .done 0x02#8 none]
    let t : State := { s with
      seqOp := 0x00#8, seqStep := 0#4, latchA := some 0#32, latchB := some 0#32,
      imrRxrdy := false, lineEn := false, port := .stopped }
    execRun 3 .stop s = .next { t with hist := s.hist ++ events } ∧
    execRun 6 .stop s = .next { t with hist := s.hist ++ events ++ events }

/-- With the line masked or the source disabled, no step starts the handler and the buffer only loses what is popped;
either alone is enough (R124, R185, R187). -/
def Obligations.MaskedInterruptMutatesNoBuffer : Prop :=
  ∀ s t : State, s.ctx = .fg → s.imrRxrdy = false ∨ s.lineEn = false → step s = .next t →
    t.ctx = .fg ∧ (t.rxbuf = s.rxbuf ∨ (s.seqOp = 0x00#8 ∧ t.rxbuf = s.rxbuf.tail))

/-! ### PUTC -/

/-- The micro-operations of PUTC. The poll: one status read, on to the write when transmit-empty is set, the same step
again when it is not. The write: the byte of latch `A` goes to the transmitter, and PUTC is done (R130 to R132). The
count of draws is the model's own (log 8). -/
def Obligations.PutcPollsAndThenWritesItsByte : Prop :=
  ∀ (s : State) (c : Byte), s.live → s.ctx = .fg → s.seqOp = 0x03#8 → s.clk = true →
    (s.seqStep = 0#4 → ∃ v : Word, v.getLsbD 9 = s.txe ∧ v.getLsbD 0 = s.rxrdy ∧
      exec (.putc c) s = .next { s with
        latchT := some v, seqStep := if s.txe then 1#4 else 0#4,
        hist := s.hist ++ [.regR .SR v], draws := s.draws + 1 }) ∧
    (∀ a, s.seqStep = 1#4 → s.txe = true → s.latchA = some a →
      exec (.putc c) s = .next { s with
        thr := some (a.setWidth 8), thrValid := true, txe := false, seqOp := 0x00#8, seqStep := 0#4,
        hist := s.hist ++ [.regW .THR ((a.setWidth 8).setWidth 32), .done 0x03#8 none] })

/-- PUTC with transmit-empty set, from an idle port: accepted, one poll, the byte handed over, done (R130). The count
of draws is the model's own (log 8). -/
def Obligations.PutcRunsToItsEndState : Prop :=
  ∀ (s : State) (c : Byte), s.live → s.ctx = .fg → s.seqOp = 0x00#8 → s.cfg.variant ≠ .noOpDriver →
    s.clk = true → s.txe = true →
    ∃ v : Word, v.getLsbD 9 = true ∧
      execRun 3 (.putc c) s = .next { s with
        latchA := some (c.setWidth 32), latchB := some 0#32, latchT := some v, seqOp := 0x00#8, seqStep := 0#4,
        thr := some c, thrValid := true, txe := false, draws := s.draws + 1,
        hist := s.hist ++ [.cmd 0x03#8 (c.setWidth 32) 0#32, .regR .SR v,
          .regW .THR (c.setWidth 32), .done 0x03#8 none] }

/-- With no drain of the transmitter PUTC waits for ever: after any number of polls it stands at its poll, with one
status read recorded for each; and there is an infinite run with the fairness F1 and F2, and no harness, in which it
never leaves its poll, so that F3 is no consequence of them (R131, R133, R174). F1 is read as log 26 says. -/
def Obligations.PutcPollsForEverWithoutADrain : Prop :=
  ∀ (s : State), s.live → s.ctx = .fg → s.seqOp = 0x03#8 → s.seqStep = 0#4 → s.clk = true → s.txe = false →
    (∀ (n : Nat) (c : Byte), ∃ (t : State) (vs : List Word), execRun n (.putc c) s = .next t ∧
      t.seqOp = 0x03#8 ∧ t.seqStep = 0#4 ∧ t.live ∧ t.txe = false ∧ t.thr = s.thr ∧
      vs.length = n ∧ t.hist = s.hist ++ vs.map (Event.regR .SR)) ∧
    (s.dispatchEnabled = false → ∃ (turns : Nat → Turn) (states : Nat → State), states 0 = s ∧
      IsRun turns states ∧ (∀ n, (turns n).harness = false) ∧
      FairSequencer turns states ∧ FairDispatch turns states ∧
      ∀ n, (states n).seqOp = 0x03#8 ∧ (states n).seqStep = 0#4 ∧ (states n).thr = s.thr ∧
        (states n).cmds = s.cmds ∧ (states n).lineOut = s.lineOut)

/-- Nothing but a drain step ends PUTC's wait: after any other step PUTC still waits, no command is accepted and
nothing is popped. Under the fairness F1 and F3, and no other, PUTC in progress completes in every run of the agents
that no harness drives, the clock and the transmitter on: its byte is written and it is done (R131, R133, R134, R174,
R224). That a turn may pass, and the form of the next turn, is the model's choice (log 2, log 3), and F1 is read as
log 26 says. -/
def Obligations.OnlyADrainEndsPutcsWait : Prop :=
  (∀ s t : State, s.noHarness → s.seqOp = 0x03#8 → s.seqStep = 0#4 → s.txe = false →
    (nextTurn s).1 ≠ .txDrain → step s = .next t →
    t.seqOp = 0x03#8 ∧ t.seqStep = 0#4 ∧ t.txe = false ∧ t.cmds = s.cmds ∧
    (∀ b, Event.pop b ∉ t.hist.drop s.hist.length)) ∧
  (∀ (turns : Nat → Turn) (states : Nat → State), IsRun turns states → (∀ n, (turns n).harness = false) →
    FairSequencer turns states → FairDrain turns states →
    (states 0).seqOp = 0x03#8 → (states 0).clk = true → (states 0).txen = true →
    ∃ n, (states n).seqOp = 0x00#8 ∧ (states n).thr = some ((states 0).readA.setWidth 8) ∧
      [.regW .THR (((states 0).readA.setWidth 8).setWidth 32), .done 0x03#8 none] <:+ (states n).hist)

/-- Every byte on the line, and the one pending, was written to `THR`, in the order of the writes and each at most
once; no step breaks it (R135, R168). -/
def Obligations.LineOutKeepsTheOrderOfWrites : Prop :=
  ∀ s t : State, (s.lineOut ++ s.pendingOut).Sublist (thrWrites s.hist) → step s = .next t →
    (t.lineOut ++ t.pendingOut).Sublist (thrWrites t.hist)

/-! ### RXISR and the interrupt -/

/-- The interrupt agent's turn in the foreground: dispatch exactly under the conditions of R189, changing the context,
the handler's step and the history only; else nothing (R185, R189, R190). The agenda is the model's own (log 2). -/
def Obligations.DispatchIsTakenExactlyWhenAllowed : Prop :=
  ∀ (s : State) (rest : List Turn), s.live → s.ctx = .fg → s.agenda = .irq :: rest →
    ((s.cfg.variant = .interruptDriver ∧ s.clk = true ∧ s.rxrdy = true ∧ s.imrRxrdy = true ∧
        s.lineEn = true ∧ s.seqOp ≠ 0x01#8 ∧ s.seqOp ≠ 0x02#8) →
      step s = .next { s with agenda := rest, ctx := .irq, istep := 0#2, hist := s.hist ++ [.dispatch] }) ∧
    (¬ (s.cfg.variant = .interruptDriver ∧ s.clk = true ∧ s.rxrdy = true ∧ s.imrRxrdy = true ∧
        s.lineEn = true ∧ s.seqOp ≠ 0x01#8 ∧ s.seqOp ≠ 0x02#8) →
      step s = .next { s with agenda := rest })

/-- The two steps of RXISR. Step 0 reads the byte into its latch and acknowledges it. Step 1 pushes the latched byte,
kept while the buffer holds fewer than 512, and returns in the same way whether it was kept (R99, R141, R142, R193).
What the event of an overwriting push says is DEDUCED (log 23). -/
def Obligations.HandlerReadsOneByteThenPushesAndReturns : Prop :=
  ∀ (s : State) (b : Byte), s.live → s.ctx = .irq →
    (s.istep = 0#2 → s.clk = true → s.rxrdy = true → s.rhr = some b → exec .rxisr s = .next { s with
      rxrdy := false, latchTI := some b, istep := 1#2,
      hist := s.hist ++ [.regR .RHR (b.setWidth 32)] }) ∧
    (s.istep = 1#2 → s.latchTI = some b →
      (s.rxbuf.length < 512 → exec .rxisr s = .next { s with
        rxbuf := s.rxbuf ++ [b], ctx := .fg, istep := 0#2, hist := s.hist ++ [.push b true, .ret] }) ∧
      (512 ≤ s.rxbuf.length → s.cfg.overflowPolicy = .dropNewest → exec .rxisr s = .next { s with
        ctx := .fg, istep := 0#2, hist := s.hist ++ [.push b false, .ret] }) ∧
      (512 ≤ s.rxbuf.length → s.cfg.overflowPolicy = .overwriteOldest → exec .rxisr s = .next { s with
        rxbuf := s.rxbuf.tail ++ [b], ctx := .fg, istep := 0#2, hist := s.hist ++ [.push b true, .ret] }))

/-- In a state of the invariant the handler never faults and never reads a free value: its step is taken, and its
read returns the byte of the holding register (R144, R195). -/
def Obligations.HandlerNeverFaults : Prop :=
  ∀ s : State, BlockInv s → s.live → s.ctx = .irq →
    ∃ t, exec .rxisr s = .next t ∧ t.live ∧ t.draws = s.draws ∧
      (s.istep = 0#2 → ∃ b, s.rhr = some b ∧ t.latchTI = some b)

/-- While the handler runs the foreground is frozen: no step of any agent changes the sequencer or its latches, and no
command word is taken (R13, R191, R198). -/
def Obligations.HandlerFreezesTheForeground : Prop :=
  ∀ s t : State, s.ctx = .irq → step s = .next t →
    t.seqOp = s.seqOp ∧ t.seqStep = s.seqStep ∧ t.latchA = s.latchA ∧ t.latchB = s.latchB ∧
    t.latchRes = s.latchRes ∧ t.latchT = s.latchT ∧ t.cmds = s.cmds ∧ t.port = s.port

/-- With the newest byte dropped on overflow, the bytes popped and then the buffer are exactly the bytes kept, in the
order of their pushes, and the buffer never passes its capacity; no step breaks it (R27, R99, R146, R171). -/
def Obligations.BufferHoldsTheKeptBytesInOrder : Prop :=
  ∀ s t : State, s.cfg.overflowPolicy = .dropNewest →
    bytesPopped s.hist ++ s.rxbuf = bytesKept s.hist → s.rxbuf.length ≤ 512 → step s = .next t →
    bytesPopped t.hist ++ t.rxbuf = bytesKept t.hist ∧ t.rxbuf.length ≤ 512

/-! ### TPINIT and TPRECV -/

/-- TPINIT's admission: an unknown protocol, or a divisor too wide, is refused and changes nothing else (R151). That
the operand latches too keep their values on a refusal is the model's reading of R183 (log 14). -/
def Obligations.TpinitRefusesInadmissibleProtocols : Prop :=
  ∀ (s : State) (p q : Byte), s.live → s.ctx = .fg → s.seqOp = 0x04#8 → s.seqStep = 0#4 →
    s.latchA = some (p.setWidth 32) →
    (s.cfg.telemetryBaud.lookup p = none → exec (.tpinit q) s = .next { s with
      refused := some (.unknownProtocol p), hist := s.hist ++ [.refuse (.unknownProtocol p)] }) ∧
    (∀ baud, s.cfg.telemetryBaud.lookup p = some baud → baud ≠ 0#32 → s.cfg.masterClock ≠ 0#32 →
      2 ^ s.cfg.divisorWidth ≤ s.cfg.masterClock.toNat / (16 * baud.toNat) →
      exec (.tpinit q) s = .next { s with
        refused := some (.divisorTooWide (s.cfg.masterClock.toNat / (16 * baud.toNat))),
        hist := s.hist ++ [.refuse (.divisorTooWide (s.cfg.masterClock.toNat / (16 * baud.toNat)))] })

/-- The micro-operations of TPINIT, one a step: those of CONFIGURE to step 6 and then the arming of the receive
transfer, both writes of `PTCR` distinct (R150, R151, R153, R154). -/
def Obligations.TpinitMicroOperationsInOrder : Prop :=
  ∀ (s : State) (p q : Byte) (baud d : Word), s.live → s.ctx = .fg → s.seqOp = 0x04#8 →
    (s.seqStep = 0#4 → s.latchA = some (p.setWidth 32) → s.cfg.telemetryBaud.lookup p = some baud →
      baud ≠ 0#32 → s.cfg.masterClock ≠ 0#32 →
      s.cfg.masterClock.toNat / (16 * baud.toNat) < 2 ^ s.cfg.divisorWidth →
      exec (.tpinit q) s = .next { s with
        latchA := some baud, latchB := some s.cfg.masterClock,
        latchT := some (BitVec.ofNat 32 (s.cfg.masterClock.toNat / (16 * baud.toNat))), seqStep := 1#4,
        pins := .peripheral s.cfg.pinMask .peripheralInputNoPullUp,
        hist := s.hist ++ [.pinCfg s.cfg.pinMask .peripheralInputNoPullUp] }) ∧
    (s.seqStep = 1#4 → exec (.tpinit q) s = .next { s with
      clk := true, seqStep := 2#4, hist := s.hist ++ [.clkEn s.cfg.clockId] }) ∧
    (s.clk = true →
      (s.seqStep = 2#4 → exec (.tpinit q) s = .next { s with
        rxrdy := false, rhr := none, thrValid := false, txe := false, rxen := false, txen := false,
        seqStep := 3#4, hist := s.hist ++ [.regW .CR 0x000000AC#32] }) ∧
      (s.seqStep = 3#4 → exec (.tpinit q) s = .next { s with
        mr := some 0x00000800#32, seqStep := 4#4, hist := s.hist ++ [.regW .MR 0x00000800#32] }) ∧
      (s.seqStep = 4#4 → s.latchT = some d → d.toNat < 2 ^ s.cfg.divisorWidth →
        exec (.tpinit q) s = .next { s with
          brgr := some d, seqStep := 5#4, hist := s.hist ++ [.regW .BRGR d] }) ∧
      (s.seqStep = 5#4 → exec (.tpinit q) s = .next { s with
        pdcRxen := false, pdcTxen := false, seqStep := 6#4,
        hist := s.hist ++ [.regW .PTCR 0x00000202#32] }) ∧
      (s.seqStep = 6#4 → exec (.tpinit q) s = .next { s with
        rxen := true, txen := true, seqStep := 7#4, hist := s.hist ++ [.regW .CR 0x00000050#32] }) ∧
      (s.seqStep = 7#4 → exec (.tpinit q) s = .next { s with
        pdcRxen := true, seqOp := 0x00#8, seqStep := 0#4, port := .configuredIdle,
        hist := s.hist ++ [.regW .PTCR 0x00000001#32, .done 0x04#8 none] }))

/-- An admitted TPINIT that no other agent interrupts: its events in order and its end state, the receive transfer
disabled and then armed (R150, R153, R154). -/
def Obligations.TpinitRunsToItsEndState : Prop :=
  ∀ (s : State) (p : Byte) (baud : Word), s.live → s.ctx = .fg → s.seqOp = 0x00#8 →
    s.cfg.variant = .telemetryDriver → s.cfg.telemetryBaud.lookup p = some baud →
    baud ≠ 0#32 → s.cfg.masterClock ≠ 0#32 →
    s.cfg.masterClock.toNat / (16 * baud.toNat) < 2 ^ s.cfg.divisorWidth →
    let d : Word := BitVec.ofNat 32 (s.cfg.masterClock.toNat / (16 * baud.toNat))
    execRun 9 (.tpinit p) s = .next { s with
      seqOp := 0x00#8, seqStep := 0#4, latchA := some baud, latchB := some s.cfg.masterClock, latchT := some d,
      pins := .peripheral s.cfg.pinMask .peripheralInputNoPullUp, clk := true,
      rxen := true, txen := true, mr := some 0x800#32, brgr := some d,
      pdcRxen := true, pdcTxen := false, rxrdy := false, rhr := none, txe := false, thrValid := false,
      port := .configuredIdle,
      hist := s.hist ++ [.cmd 0x04#8 (p.setWidth 32) 0#32,
        .pinCfg s.cfg.pinMask .peripheralInputNoPullUp, .clkEn s.cfg.clockId,
        .regW .CR 0xAC#32, .regW .MR 0x800#32, .regW .BRGR d, .regW .PTCR 0x202#32, .regW .CR 0x50#32,
        .regW .PTCR 0x1#32, .done 0x04#8 none] }

/-- The micro-operations of TPRECV. The poll: on to the read when a byte is ready, else the sentinel and done. The
read: the byte widened with zeros; where the byte was taken meanwhile, the low byte of the value that the read returned,
widened with zeros (R156, R157, R160). That value is free, and the count of draws the model's own (log 8). -/
def Obligations.TprecvPollsOnceAndReadsAtMostOnce : Prop :=
  ∀ (s : State), s.live → s.ctx = .fg → s.seqOp = 0x05#8 → s.clk = true →
    (s.seqStep = 0#4 → ∃ v : Word, v.getLsbD 0 = s.rxrdy ∧ v.getLsbD 9 = s.txe ∧
      (s.rxrdy = true → exec .tprecv s = .next { s with
        latchT := some v, seqStep := 1#4, hist := s.hist ++ [.regR .SR v], draws := s.draws + 1 }) ∧
      (s.rxrdy = false → exec .tprecv s = .next { s with
        latchT := some v, latchRes := some 0xFFFF#16, seqOp := 0x00#8, seqStep := 0#4,
        hist := s.hist ++ [.regR .SR v, .done 0x05#8 (some 0xFFFF#16)], draws := s.draws + 1 })) ∧
    (∀ b, s.seqStep = 1#4 → s.rxrdy = true → s.rhr = some b → exec .tprecv s = .next { s with
      rxrdy := false, latchRes := some (b.setWidth 16), seqOp := 0x00#8, seqStep := 0#4,
      hist := s.hist ++ [.regR .RHR (b.setWidth 32), .done 0x05#8 (some (b.setWidth 16))] }) ∧
    (s.seqStep = 1#4 → s.rxrdy = false → ∃ w : Word, exec .tprecv s = .next { s with
      latchRes := some ((w.setWidth 8).setWidth 16), seqOp := 0x00#8, seqStep := 0#4,
      hist := s.hist ++ [.regR .RHR w, .done 0x05#8 (some ((w.setWidth 8).setWidth 16))], draws := s.draws + 1 })

/-- TPRECV from an idle port with no other agent between its steps: the exact byte, zero-extended and never the
sentinel, when one is ready, and 0xFFFF when none is (R155, R157, R158). -/
def Obligations.TprecvReturnsTheByteOrTheSentinel : Prop :=
  ∀ (s : State), s.live → s.ctx = .fg → s.seqOp = 0x00#8 → s.cfg.variant = .telemetryDriver → s.clk = true →
    (∀ b, s.rxrdy = true → s.rhr = some b →
      ∃ t, execRun 3 .tprecv s = .next t ∧ t.seqOp = 0x00#8 ∧ t.latchRes = some (b.setWidth 16) ∧
        t.latchRes ≠ some 0xFFFF#16 ∧ t.rxrdy = false ∧ t.rxbuf = s.rxbuf ∧ t.port = s.port) ∧
    (s.rxrdy = false →
      ∃ t, execRun 2 .tprecv s = .next t ∧ t.seqOp = 0x00#8 ∧ t.latchRes = some 0xFFFF#16 ∧
        t.rhr = s.rhr ∧ t.rxbuf = s.rxbuf ∧ t.port = s.port)

/-- The results a history shows are bytes or the sentinel, whatever the free values and the other agents; no step
breaks it (R62, R158, R160). -/
def Obligations.ResultsStayInRange : Prop :=
  ∀ s t : State, ResultsInRange s.hist → step s = .next t → ResultsInRange t.hist

/-! ### The environment -/

/-- A byte arrives while the clock gate and the receiver are on: held, or an overrun in which one of the two bytes
stays, whichever it is (R165, R166). The agenda and the form of the choice are the model's own (log 2, log 9). -/
def Obligations.ArrivalFillsOrOverruns : Prop :=
  ∀ (s : State) (b : Byte) (rest : List Turn), s.live → s.agenda = .rxArrive b :: rest →
    s.clk = true → s.rxen = true →
    (s.rxrdy = false → step s = .next { s with
      agenda := rest, rhr := some b, rxrdy := true, hist := s.hist ++ [.rxArrive b false] }) ∧
    (s.rxrdy = true → ∃ r, (r = s.rhr ∨ r = some b) ∧ step s = .next { s with
      agenda := rest, rhr := r, draws := s.draws + 1, hist := s.hist ++ [.rxArrive b true] })

/-- The transmitter's drain: the pending byte goes to the line, or the first report after a reset (R167). The agenda
is the model's own (log 2). -/
def Obligations.DrainSendsThePendingByte : Prop :=
  ∀ (s : State) (rest : List Turn), s.live → s.agenda = .txDrain :: rest →
    s.clk = true → s.txen = true → s.txe = false →
    (∀ b, s.thrValid = true → s.thr = some b → step s = .next { s with
      agenda := rest, lineOut := s.lineOut ++ [b], thrValid := false, txe := true,
      hist := s.hist ++ [.txOut b] }) ∧
    (s.thrValid = false → step s = .next { s with
      agenda := rest, txe := true, hist := s.hist ++ [.txReady] })

/-- The block-transfer engine's take and the consumer's pop (R169, R171). The agenda is the model's own (log 2). -/
def Obligations.TakeAndPopMoveOneByte : Prop :=
  ∀ (s : State) (b : Byte) (rest : List Turn), s.live →
    (s.agenda = .pdcTake :: rest → s.cfg.pdcRxActive = true → s.clk = true → s.pdcRxen = true →
      s.rxrdy = true → s.rhr = some b → step s = .next { s with
        agenda := rest, pdcSink := s.pdcSink ++ [b], rxrdy := false, hist := s.hist ++ [.pdcTake b] }) ∧
    (∀ bs, s.agenda = .pop :: rest → s.ctx = .fg → s.seqOp = 0x00#8 → s.rxbuf = b :: bs →
      step s = .next { s with agenda := rest, rxbuf := bs, hist := s.hist ++ [.pop b] })

/-! ### Whole-machine rules -/

/-- The invariant of the runs that no harness drives holds at reset, under every configuration. -/
def Obligations.InvariantHoldsAtReset : Prop :=
  ∀ c : Config, BlockInv (State.resetOf c)

/-- Every step keeps the invariant: the flags, the clock gate, the registers' values, the sequencer, the handler and
the buffer stay as the rules say (R12, R14, R21, R22, R27, R73, R143, R144, R170). -/
def Obligations.EveryStepKeepsTheInvariant : Prop :=
  ∀ s t : State, BlockInv s → step s = .next t → BlockInv t

/-- In a live state of the invariant the step answers a next state, a fault it marks is of an access that STOP, PUTC
or TPRECV made before the clock gate was on, and a refusal it marks is of a word at an idle sequencer or of the
admission at step 0 of CONFIGURE or TPINIT: the refusals of the register rules, that of R86 at step 4 among them, are
never reached by a command (R86, R132, R182, R183, R214). -/
def Obligations.InvariantStatesStepAndStopForTheNamedReasons : Prop :=
  ∀ s : State, BlockInv s → s.live →
    ∃ t, step s = .next t ∧
      (∀ f, t.fault = some f → s.clk = false ∧ s.seqStep = 0#4 ∧
        (s.seqOp = 0x02#8 ∧ f = .unclockedAccess .IDR ∨
         (s.seqOp = 0x03#8 ∨ s.seqOp = 0x05#8) ∧ f = .unclockedAccess .SR)) ∧
      (∀ q, t.refused = some q → (nextTurn s).1 = .fg ∧ s.ctx = .fg ∧
        (s.seqOp = 0x00#8 ∧
            ((∃ op, q = .reservedOpcode op) ∨ (∃ cw, q = .reservedOperandBits cw) ∨ ∃ op, q = .notInVariant op) ∨
          (s.seqOp = 0x01#8 ∨ s.seqOp = 0x04#8) ∧ s.seqStep = 0#4 ∧
            (q = .zeroBaudrate ∨ q = .zeroMasterClock ∨ ∃ d, q = .divisorTooWide d) ∨
          s.seqOp = 0x04#8 ∧ s.seqStep = 0#4 ∧ ∃ p, q = .unknownProtocol p))

/-- Who changes what, where no harness drives the block: each register, flag, enable, list of bytes and the port
changes only in the step the spec gives it to, and to the value that step gives it (R14, R15, R16, R20, R21, R22, R24,
R27, R28, R30, R34, R93, R123, R171, R173). The form of the next turn is the model's own (log 2, log 3). -/
def Obligations.OnlyTheNamedStepChangesEachRegister : Prop :=
  ∀ s t : State, s.noHarness → step s = .next t →
    (t.clk ≠ s.clk → s.takesConfiguration 1#4 ∧ t.clk = true) ∧
    (t.pins ≠ s.pins → s.takesConfiguration 0#4 ∧ t.pins = .peripheral s.cfg.pinMask .peripheralInputNoPullUp) ∧
    (t.lineEn ≠ s.lineEn →
      s.takesStep 0x01#8 8#4 ∧ t.lineEn = true ∨ s.takesStep 0x02#8 1#4 ∧ t.lineEn = false) ∧
    (t.imrRxrdy ≠ s.imrRxrdy →
      s.takesStep 0x01#8 7#4 ∧ t.imrRxrdy = true ∨ s.takesStep 0x02#8 0#4 ∧ t.imrRxrdy = false) ∧
    (t.rxen ≠ s.rxen →
      s.takesConfiguration 2#4 ∧ t.rxen = false ∨ s.takesConfiguration 6#4 ∧ t.rxen = true) ∧
    (t.txen ≠ s.txen →
      s.takesConfiguration 2#4 ∧ t.txen = false ∨ s.takesConfiguration 6#4 ∧ t.txen = true) ∧
    (t.mr ≠ s.mr → s.takesConfiguration 3#4 ∧ t.mr = some 0x00000800#32) ∧
    (t.brgr ≠ s.brgr → s.takesConfiguration 4#4 ∧ t.brgr = some s.readT) ∧
    (t.pdcRxen ≠ s.pdcRxen →
      s.takesConfiguration 5#4 ∧ t.pdcRxen = false ∨ s.takesStep 0x04#8 7#4 ∧ t.pdcRxen = true) ∧
    (t.pdcTxen ≠ s.pdcTxen → s.takesConfiguration 5#4 ∧ t.pdcTxen = false) ∧
    (t.rxrdy ≠ s.rxrdy →
      (∃ b, (nextTurn s).1 = .rxArrive b) ∧ s.clk = true ∧ s.rxen = true ∧ t.rxrdy = true ∨
      (s.takesConfiguration 2#4 ∨ s.takesStep 0x05#8 1#4 ∨ s.takesHandler 0#2 ∨
        (nextTurn s).1 = .pdcTake ∧ s.pdcRxen = true) ∧ t.rxrdy = false) ∧
    (t.rhr ≠ s.rhr →
      (∃ b, (nextTurn s).1 = .rxArrive b ∧ t.rhr = some b) ∧ s.clk = true ∧ s.rxen = true ∨
      s.takesConfiguration 2#4 ∧ t.rhr = none) ∧
    (t.txe ≠ s.txe →
      (nextTurn s).1 = .txDrain ∧ s.clk = true ∧ s.txen = true ∧ t.txe = true ∨
      (s.takesConfiguration 2#4 ∨ s.takesStep 0x03#8 1#4) ∧ t.txe = false) ∧
    (t.thr ≠ s.thr → s.takesStep 0x03#8 1#4 ∧ t.thr = some (s.readA.setWidth 8)) ∧
    (t.thrValid ≠ s.thrValid →
      s.takesStep 0x03#8 1#4 ∧ t.thrValid = true ∨
      (s.takesConfiguration 2#4 ∨ (nextTurn s).1 = .txDrain) ∧ t.thrValid = false) ∧
    (t.lineOut ≠ s.lineOut →
      (nextTurn s).1 = .txDrain ∧ s.thrValid = true ∧ t.lineOut = s.lineOut ++ [s.thrByte]) ∧
    (t.pdcSink ≠ s.pdcSink →
      (nextTurn s).1 = .pdcTake ∧ s.rxrdy = true ∧ t.pdcSink = s.pdcSink ++ [s.rhrByte]) ∧
    (t.rxbuf ≠ s.rxbuf →
      (nextTurn s).1 = .pop ∧ s.ctx = .fg ∧ s.seqOp = 0x00#8 ∧ t.rxbuf = s.rxbuf.tail ∨
      s.takesHandler 1#2 ∧ s.rxbuf.length < 512 ∧ t.rxbuf = s.rxbuf ++ [s.readTI] ∨
      s.takesHandler 1#2 ∧ 512 ≤ s.rxbuf.length ∧ s.cfg.overflowPolicy = .overwriteOldest ∧
        t.rxbuf = s.rxbuf.tail ++ [s.readTI]) ∧
    (t.port ≠ s.port →
      s.takesStep 0x01#8 8#4 ∧ t.port = .running ∨
      (s.takesStep 0x01#8 6#4 ∧ s.cfg.variant ≠ .interruptDriver ∨ s.takesStep 0x04#8 7#4) ∧ t.port = .configuredIdle ∨
      s.takesStep 0x02#8 1#4 ∧ t.port = .stopped)
end

