-- ==== Sys2Proof/Laws/Decode.lean ====
section
/-! SUPPORT. The fields of an encoded command word are the fields it was made of, and the other way round (R56). -/

namespace Sys2Proof

theorem CmdWord.getLsbD_ofFields (o : Opcode) (a b : Word) (k : Nat) :
    (CmdWord.ofFields o a b).getLsbD k =
      if k < 32 then b.getLsbD k else if k - 32 < 32 then a.getLsbD (k - 32) else o.getLsbD (k - 64) := by
  have h : (CmdWord.ofFields o a b).getLsbD k = (o ++ a ++ b : BitVec (8 + 32 + 32)).getLsbD k := rfl
  rw [h, BitVec.getLsbD_append, BitVec.getLsbD_append]
  simp only [Nat.sub_sub]

@[simp] theorem CmdWord.opc_ofFields (o : Opcode) (a b : Word) : (CmdWord.ofFields o a b).opc = o := by
  apply BitVec.eq_of_getLsbD_eq
  intro k hk
  simp only [CmdWord.opc, BitVec.getLsbD_extractLsb', CmdWord.getLsbD_ofFields]
  rw [if_neg (by omega), if_neg (by omega), show 64 + k - 64 = k by omega]
  simp [hk]

@[simp] theorem CmdWord.opA_ofFields (o : Opcode) (a b : Word) : (CmdWord.ofFields o a b).opA = a := by
  apply BitVec.eq_of_getLsbD_eq
  intro k hk
  simp only [CmdWord.opA, BitVec.getLsbD_extractLsb', CmdWord.getLsbD_ofFields]
  rw [if_neg (by omega), if_pos (by omega), show 32 + k - 32 = k by omega]
  simp [hk]

@[simp] theorem CmdWord.opB_ofFields (o : Opcode) (a b : Word) : (CmdWord.ofFields o a b).opB = b := by
  apply BitVec.eq_of_getLsbD_eq
  intro k hk
  simp only [CmdWord.opB, BitVec.getLsbD_extractLsb', CmdWord.getLsbD_ofFields]
  rw [if_pos (by omega), Nat.zero_add]
  simp [hk]

/-- A command word is made of its three fields. -/
theorem CmdWord.ofFields_fields (cw : CmdWord) : CmdWord.ofFields cw.opc cw.opA cw.opB = cw := by
  apply BitVec.eq_of_getLsbD_eq
  intro k hk
  rw [CmdWord.getLsbD_ofFields]
  simp only [CmdWord.opc, CmdWord.opA, CmdWord.opB, BitVec.getLsbD_extractLsb']
  by_cases h1 : k < 32
  · simp [h1]
  · by_cases h2 : k - 32 < 32
    · simp [h1, h2, show 32 + (k - 32) = k by omega]
    · simp [h1, h2, show 64 + (k - 64) = k by omega]; omega

/-- The upper bits of a widened byte are 0 (R60). -/
@[simp] theorem Byte.upper_toWord (c : Byte) : c.toWord.extractLsb' 8 24 = 0#24 := by
  apply BitVec.eq_of_getLsbD_eq
  intro k hk
  simp [Byte.toWord]

@[simp] theorem lowByte_toWord (c : Byte) : lowByte c.toWord = c := by
  apply BitVec.eq_of_getLsbD_eq
  intro k hk
  simp [Byte.toWord, lowByte]

/-- An operand whose upper bits are 0 is its low byte widened (R60). -/
theorem toWord_lowByte {a : Word} (h : a.extractLsb' 8 24 = 0#24) : (lowByte a).toWord = a := by
  apply BitVec.eq_of_getLsbD_eq
  intro k hk
  simp only [Byte.toWord, lowByte, BitVec.getLsbD_setWidth]
  by_cases h8 : k < 8
  · simp [h8, hk]
  · have := congrArg (fun v => v.getLsbD (k - 8)) h
    simp [show 8 + (k - 8) = k by omega, show k - 8 < 24 by omega] at this
    simp [h8, this]

end Sys2Proof
end

