-- ==== Sys2Proof/Laws/State.lean ====
section
/-! SUPPORT. One lemma per field per state update, so that no proof unfolds a record update. -/

namespace Sys2Proof.Machine

variable (s : State)

/-! ### `State.emit` -/

@[simp] theorem State.emit_cfg (e : Event) : (s.emit e).cfg = s.cfg := rfl
@[simp] theorem State.emit_seqOp (e : Event) : (s.emit e).seqOp = s.seqOp := rfl
@[simp] theorem State.emit_seqStep (e : Event) : (s.emit e).seqStep = s.seqStep := rfl
@[simp] theorem State.emit_ctx (e : Event) : (s.emit e).ctx = s.ctx := rfl
@[simp] theorem State.emit_istep (e : Event) : (s.emit e).istep = s.istep := rfl
@[simp] theorem State.emit_latchA (e : Event) : (s.emit e).latchA = s.latchA := rfl
@[simp] theorem State.emit_latchB (e : Event) : (s.emit e).latchB = s.latchB := rfl
@[simp] theorem State.emit_latchRes (e : Event) : (s.emit e).latchRes = s.latchRes := rfl
@[simp] theorem State.emit_latchT (e : Event) : (s.emit e).latchT = s.latchT := rfl
@[simp] theorem State.emit_latchTI (e : Event) : (s.emit e).latchTI = s.latchTI := rfl
@[simp] theorem State.emit_clk (e : Event) : (s.emit e).clk = s.clk := rfl
@[simp] theorem State.emit_pins (e : Event) : (s.emit e).pins = s.pins := rfl
@[simp] theorem State.emit_lineEn (e : Event) : (s.emit e).lineEn = s.lineEn := rfl
@[simp] theorem State.emit_rxen (e : Event) : (s.emit e).rxen = s.rxen := rfl
@[simp] theorem State.emit_txen (e : Event) : (s.emit e).txen = s.txen := rfl
@[simp] theorem State.emit_mr (e : Event) : (s.emit e).mr = s.mr := rfl
@[simp] theorem State.emit_brgr (e : Event) : (s.emit e).brgr = s.brgr := rfl
@[simp] theorem State.emit_imrRxrdy (e : Event) : (s.emit e).imrRxrdy = s.imrRxrdy := rfl
@[simp] theorem State.emit_pdcRxen (e : Event) : (s.emit e).pdcRxen = s.pdcRxen := rfl
@[simp] theorem State.emit_pdcTxen (e : Event) : (s.emit e).pdcTxen = s.pdcTxen := rfl
@[simp] theorem State.emit_rxrdy (e : Event) : (s.emit e).rxrdy = s.rxrdy := rfl
@[simp] theorem State.emit_rhr (e : Event) : (s.emit e).rhr = s.rhr := rfl
@[simp] theorem State.emit_txe (e : Event) : (s.emit e).txe = s.txe := rfl
@[simp] theorem State.emit_thrValid (e : Event) : (s.emit e).thrValid = s.thrValid := rfl
@[simp] theorem State.emit_thr (e : Event) : (s.emit e).thr = s.thr := rfl
@[simp] theorem State.emit_rxbuf (e : Event) : (s.emit e).rxbuf = s.rxbuf := rfl
@[simp] theorem State.emit_port (e : Event) : (s.emit e).port = s.port := rfl
@[simp] theorem State.emit_hist (e : Event) : (s.emit e).hist = s.hist ++ [e] := rfl
@[simp] theorem State.emit_lineOut (e : Event) : (s.emit e).lineOut = s.lineOut := rfl
@[simp] theorem State.emit_pdcSink (e : Event) : (s.emit e).pdcSink = s.pdcSink := rfl
@[simp] theorem State.emit_fault (e : Event) : (s.emit e).fault = s.fault := rfl
@[simp] theorem State.emit_refused (e : Event) : (s.emit e).refused = s.refused := rfl
@[simp] theorem State.emit_cmds (e : Event) : (s.emit e).cmds = s.cmds := rfl
@[simp] theorem State.emit_agenda (e : Event) : (s.emit e).agenda = s.agenda := rfl
@[simp] theorem State.emit_draws (e : Event) : (s.emit e).draws = s.draws := rfl

/-! ### `State.raiseFault` -/

@[simp] theorem State.raiseFault_cfg (f : Fault) : (s.raiseFault f).cfg = s.cfg := rfl
@[simp] theorem State.raiseFault_seqOp (f : Fault) : (s.raiseFault f).seqOp = s.seqOp := rfl
@[simp] theorem State.raiseFault_seqStep (f : Fault) : (s.raiseFault f).seqStep = s.seqStep := rfl
@[simp] theorem State.raiseFault_ctx (f : Fault) : (s.raiseFault f).ctx = s.ctx := rfl
@[simp] theorem State.raiseFault_istep (f : Fault) : (s.raiseFault f).istep = s.istep := rfl
@[simp] theorem State.raiseFault_latchA (f : Fault) : (s.raiseFault f).latchA = s.latchA := rfl
@[simp] theorem State.raiseFault_latchB (f : Fault) : (s.raiseFault f).latchB = s.latchB := rfl
@[simp] theorem State.raiseFault_latchRes (f : Fault) : (s.raiseFault f).latchRes = s.latchRes := rfl
@[simp] theorem State.raiseFault_latchT (f : Fault) : (s.raiseFault f).latchT = s.latchT := rfl
@[simp] theorem State.raiseFault_latchTI (f : Fault) : (s.raiseFault f).latchTI = s.latchTI := rfl
@[simp] theorem State.raiseFault_clk (f : Fault) : (s.raiseFault f).clk = s.clk := rfl
@[simp] theorem State.raiseFault_pins (f : Fault) : (s.raiseFault f).pins = s.pins := rfl
@[simp] theorem State.raiseFault_lineEn (f : Fault) : (s.raiseFault f).lineEn = s.lineEn := rfl
@[simp] theorem State.raiseFault_rxen (f : Fault) : (s.raiseFault f).rxen = s.rxen := rfl
@[simp] theorem State.raiseFault_txen (f : Fault) : (s.raiseFault f).txen = s.txen := rfl
@[simp] theorem State.raiseFault_mr (f : Fault) : (s.raiseFault f).mr = s.mr := rfl
@[simp] theorem State.raiseFault_brgr (f : Fault) : (s.raiseFault f).brgr = s.brgr := rfl
@[simp] theorem State.raiseFault_imrRxrdy (f : Fault) : (s.raiseFault f).imrRxrdy = s.imrRxrdy := rfl
@[simp] theorem State.raiseFault_pdcRxen (f : Fault) : (s.raiseFault f).pdcRxen = s.pdcRxen := rfl
@[simp] theorem State.raiseFault_pdcTxen (f : Fault) : (s.raiseFault f).pdcTxen = s.pdcTxen := rfl
@[simp] theorem State.raiseFault_rxrdy (f : Fault) : (s.raiseFault f).rxrdy = s.rxrdy := rfl
@[simp] theorem State.raiseFault_rhr (f : Fault) : (s.raiseFault f).rhr = s.rhr := rfl
@[simp] theorem State.raiseFault_txe (f : Fault) : (s.raiseFault f).txe = s.txe := rfl
@[simp] theorem State.raiseFault_thrValid (f : Fault) : (s.raiseFault f).thrValid = s.thrValid := rfl
@[simp] theorem State.raiseFault_thr (f : Fault) : (s.raiseFault f).thr = s.thr := rfl
@[simp] theorem State.raiseFault_rxbuf (f : Fault) : (s.raiseFault f).rxbuf = s.rxbuf := rfl
@[simp] theorem State.raiseFault_port (f : Fault) : (s.raiseFault f).port = s.port := rfl
@[simp] theorem State.raiseFault_hist (f : Fault) : (s.raiseFault f).hist = s.hist ++ [.fault f] := rfl
@[simp] theorem State.raiseFault_lineOut (f : Fault) : (s.raiseFault f).lineOut = s.lineOut := rfl
@[simp] theorem State.raiseFault_pdcSink (f : Fault) : (s.raiseFault f).pdcSink = s.pdcSink := rfl
@[simp] theorem State.raiseFault_fault (f : Fault) : (s.raiseFault f).fault = some f := rfl
@[simp] theorem State.raiseFault_refused (f : Fault) : (s.raiseFault f).refused = s.refused := rfl
@[simp] theorem State.raiseFault_cmds (f : Fault) : (s.raiseFault f).cmds = s.cmds := rfl
@[simp] theorem State.raiseFault_agenda (f : Fault) : (s.raiseFault f).agenda = s.agenda := rfl
@[simp] theorem State.raiseFault_draws (f : Fault) : (s.raiseFault f).draws = s.draws := rfl

/-! ### `State.refuse` -/

@[simp] theorem State.refuse_cfg (q : Refusal) : (s.refuse q).cfg = s.cfg := rfl
@[simp] theorem State.refuse_seqOp (q : Refusal) : (s.refuse q).seqOp = s.seqOp := rfl
@[simp] theorem State.refuse_seqStep (q : Refusal) : (s.refuse q).seqStep = s.seqStep := rfl
@[simp] theorem State.refuse_ctx (q : Refusal) : (s.refuse q).ctx = s.ctx := rfl
@[simp] theorem State.refuse_istep (q : Refusal) : (s.refuse q).istep = s.istep := rfl
@[simp] theorem State.refuse_latchA (q : Refusal) : (s.refuse q).latchA = s.latchA := rfl
@[simp] theorem State.refuse_latchB (q : Refusal) : (s.refuse q).latchB = s.latchB := rfl
@[simp] theorem State.refuse_latchRes (q : Refusal) : (s.refuse q).latchRes = s.latchRes := rfl
@[simp] theorem State.refuse_latchT (q : Refusal) : (s.refuse q).latchT = s.latchT := rfl
@[simp] theorem State.refuse_latchTI (q : Refusal) : (s.refuse q).latchTI = s.latchTI := rfl
@[simp] theorem State.refuse_clk (q : Refusal) : (s.refuse q).clk = s.clk := rfl
@[simp] theorem State.refuse_pins (q : Refusal) : (s.refuse q).pins = s.pins := rfl
@[simp] theorem State.refuse_lineEn (q : Refusal) : (s.refuse q).lineEn = s.lineEn := rfl
@[simp] theorem State.refuse_rxen (q : Refusal) : (s.refuse q).rxen = s.rxen := rfl
@[simp] theorem State.refuse_txen (q : Refusal) : (s.refuse q).txen = s.txen := rfl
@[simp] theorem State.refuse_mr (q : Refusal) : (s.refuse q).mr = s.mr := rfl
@[simp] theorem State.refuse_brgr (q : Refusal) : (s.refuse q).brgr = s.brgr := rfl
@[simp] theorem State.refuse_imrRxrdy (q : Refusal) : (s.refuse q).imrRxrdy = s.imrRxrdy := rfl
@[simp] theorem State.refuse_pdcRxen (q : Refusal) : (s.refuse q).pdcRxen = s.pdcRxen := rfl
@[simp] theorem State.refuse_pdcTxen (q : Refusal) : (s.refuse q).pdcTxen = s.pdcTxen := rfl
@[simp] theorem State.refuse_rxrdy (q : Refusal) : (s.refuse q).rxrdy = s.rxrdy := rfl
@[simp] theorem State.refuse_rhr (q : Refusal) : (s.refuse q).rhr = s.rhr := rfl
@[simp] theorem State.refuse_txe (q : Refusal) : (s.refuse q).txe = s.txe := rfl
@[simp] theorem State.refuse_thrValid (q : Refusal) : (s.refuse q).thrValid = s.thrValid := rfl
@[simp] theorem State.refuse_thr (q : Refusal) : (s.refuse q).thr = s.thr := rfl
@[simp] theorem State.refuse_rxbuf (q : Refusal) : (s.refuse q).rxbuf = s.rxbuf := rfl
@[simp] theorem State.refuse_port (q : Refusal) : (s.refuse q).port = s.port := rfl
@[simp] theorem State.refuse_hist (q : Refusal) : (s.refuse q).hist = s.hist ++ [.refuse q] := rfl
@[simp] theorem State.refuse_lineOut (q : Refusal) : (s.refuse q).lineOut = s.lineOut := rfl
@[simp] theorem State.refuse_pdcSink (q : Refusal) : (s.refuse q).pdcSink = s.pdcSink := rfl
@[simp] theorem State.refuse_fault (q : Refusal) : (s.refuse q).fault = s.fault := rfl
@[simp] theorem State.refuse_refused (q : Refusal) : (s.refuse q).refused = some q := rfl
@[simp] theorem State.refuse_cmds (q : Refusal) : (s.refuse q).cmds = s.cmds := rfl
@[simp] theorem State.refuse_agenda (q : Refusal) : (s.refuse q).agenda = s.agenda := rfl
@[simp] theorem State.refuse_draws (q : Refusal) : (s.refuse q).draws = s.draws := rfl

/-! ### `State.drawn` -/

@[simp] theorem State.drawn_cfg : (s.drawn).cfg = s.cfg := rfl
@[simp] theorem State.drawn_seqOp : (s.drawn).seqOp = s.seqOp := rfl
@[simp] theorem State.drawn_seqStep : (s.drawn).seqStep = s.seqStep := rfl
@[simp] theorem State.drawn_ctx : (s.drawn).ctx = s.ctx := rfl
@[simp] theorem State.drawn_istep : (s.drawn).istep = s.istep := rfl
@[simp] theorem State.drawn_latchA : (s.drawn).latchA = s.latchA := rfl
@[simp] theorem State.drawn_latchB : (s.drawn).latchB = s.latchB := rfl
@[simp] theorem State.drawn_latchRes : (s.drawn).latchRes = s.latchRes := rfl
@[simp] theorem State.drawn_latchT : (s.drawn).latchT = s.latchT := rfl
@[simp] theorem State.drawn_latchTI : (s.drawn).latchTI = s.latchTI := rfl
@[simp] theorem State.drawn_clk : (s.drawn).clk = s.clk := rfl
@[simp] theorem State.drawn_pins : (s.drawn).pins = s.pins := rfl
@[simp] theorem State.drawn_lineEn : (s.drawn).lineEn = s.lineEn := rfl
@[simp] theorem State.drawn_rxen : (s.drawn).rxen = s.rxen := rfl
@[simp] theorem State.drawn_txen : (s.drawn).txen = s.txen := rfl
@[simp] theorem State.drawn_mr : (s.drawn).mr = s.mr := rfl
@[simp] theorem State.drawn_brgr : (s.drawn).brgr = s.brgr := rfl
@[simp] theorem State.drawn_imrRxrdy : (s.drawn).imrRxrdy = s.imrRxrdy := rfl
@[simp] theorem State.drawn_pdcRxen : (s.drawn).pdcRxen = s.pdcRxen := rfl
@[simp] theorem State.drawn_pdcTxen : (s.drawn).pdcTxen = s.pdcTxen := rfl
@[simp] theorem State.drawn_rxrdy : (s.drawn).rxrdy = s.rxrdy := rfl
@[simp] theorem State.drawn_rhr : (s.drawn).rhr = s.rhr := rfl
@[simp] theorem State.drawn_txe : (s.drawn).txe = s.txe := rfl
@[simp] theorem State.drawn_thrValid : (s.drawn).thrValid = s.thrValid := rfl
@[simp] theorem State.drawn_thr : (s.drawn).thr = s.thr := rfl
@[simp] theorem State.drawn_rxbuf : (s.drawn).rxbuf = s.rxbuf := rfl
@[simp] theorem State.drawn_port : (s.drawn).port = s.port := rfl
@[simp] theorem State.drawn_hist : (s.drawn).hist = s.hist := rfl
@[simp] theorem State.drawn_lineOut : (s.drawn).lineOut = s.lineOut := rfl
@[simp] theorem State.drawn_pdcSink : (s.drawn).pdcSink = s.pdcSink := rfl
@[simp] theorem State.drawn_fault : (s.drawn).fault = s.fault := rfl
@[simp] theorem State.drawn_refused : (s.drawn).refused = s.refused := rfl
@[simp] theorem State.drawn_cmds : (s.drawn).cmds = s.cmds := rfl
@[simp] theorem State.drawn_agenda : (s.drawn).agenda = s.agenda := rfl
@[simp] theorem State.drawn_draws : (s.drawn).draws = s.draws + 1 := rfl

/-! ### `State.clearRxrdy` -/

@[simp] theorem State.clearRxrdy_cfg : (s.clearRxrdy).cfg = s.cfg := rfl
@[simp] theorem State.clearRxrdy_seqOp : (s.clearRxrdy).seqOp = s.seqOp := rfl
@[simp] theorem State.clearRxrdy_seqStep : (s.clearRxrdy).seqStep = s.seqStep := rfl
@[simp] theorem State.clearRxrdy_ctx : (s.clearRxrdy).ctx = s.ctx := rfl
@[simp] theorem State.clearRxrdy_istep : (s.clearRxrdy).istep = s.istep := rfl
@[simp] theorem State.clearRxrdy_latchA : (s.clearRxrdy).latchA = s.latchA := rfl
@[simp] theorem State.clearRxrdy_latchB : (s.clearRxrdy).latchB = s.latchB := rfl
@[simp] theorem State.clearRxrdy_latchRes : (s.clearRxrdy).latchRes = s.latchRes := rfl
@[simp] theorem State.clearRxrdy_latchT : (s.clearRxrdy).latchT = s.latchT := rfl
@[simp] theorem State.clearRxrdy_latchTI : (s.clearRxrdy).latchTI = s.latchTI := rfl
@[simp] theorem State.clearRxrdy_clk : (s.clearRxrdy).clk = s.clk := rfl
@[simp] theorem State.clearRxrdy_pins : (s.clearRxrdy).pins = s.pins := rfl
@[simp] theorem State.clearRxrdy_lineEn : (s.clearRxrdy).lineEn = s.lineEn := rfl
@[simp] theorem State.clearRxrdy_rxen : (s.clearRxrdy).rxen = s.rxen := rfl
@[simp] theorem State.clearRxrdy_txen : (s.clearRxrdy).txen = s.txen := rfl
@[simp] theorem State.clearRxrdy_mr : (s.clearRxrdy).mr = s.mr := rfl
@[simp] theorem State.clearRxrdy_brgr : (s.clearRxrdy).brgr = s.brgr := rfl
@[simp] theorem State.clearRxrdy_imrRxrdy : (s.clearRxrdy).imrRxrdy = s.imrRxrdy := rfl
@[simp] theorem State.clearRxrdy_pdcRxen : (s.clearRxrdy).pdcRxen = s.pdcRxen := rfl
@[simp] theorem State.clearRxrdy_pdcTxen : (s.clearRxrdy).pdcTxen = s.pdcTxen := rfl
@[simp] theorem State.clearRxrdy_rxrdy : (s.clearRxrdy).rxrdy = false := rfl
@[simp] theorem State.clearRxrdy_rhr : (s.clearRxrdy).rhr = s.rhr := rfl
@[simp] theorem State.clearRxrdy_txe : (s.clearRxrdy).txe = s.txe := rfl
@[simp] theorem State.clearRxrdy_thrValid : (s.clearRxrdy).thrValid = s.thrValid := rfl
@[simp] theorem State.clearRxrdy_thr : (s.clearRxrdy).thr = s.thr := rfl
@[simp] theorem State.clearRxrdy_rxbuf : (s.clearRxrdy).rxbuf = s.rxbuf := rfl
@[simp] theorem State.clearRxrdy_port : (s.clearRxrdy).port = s.port := rfl
@[simp] theorem State.clearRxrdy_hist : (s.clearRxrdy).hist = s.hist := rfl
@[simp] theorem State.clearRxrdy_lineOut : (s.clearRxrdy).lineOut = s.lineOut := rfl
@[simp] theorem State.clearRxrdy_pdcSink : (s.clearRxrdy).pdcSink = s.pdcSink := rfl
@[simp] theorem State.clearRxrdy_fault : (s.clearRxrdy).fault = s.fault := rfl
@[simp] theorem State.clearRxrdy_refused : (s.clearRxrdy).refused = s.refused := rfl
@[simp] theorem State.clearRxrdy_cmds : (s.clearRxrdy).cmds = s.cmds := rfl
@[simp] theorem State.clearRxrdy_agenda : (s.clearRxrdy).agenda = s.agenda := rfl
@[simp] theorem State.clearRxrdy_draws : (s.clearRxrdy).draws = s.draws := rfl

/-! ### `State.receiveByte` -/

@[simp] theorem State.receiveByte_cfg (b : Byte) : (s.receiveByte b).cfg = s.cfg := rfl
@[simp] theorem State.receiveByte_seqOp (b : Byte) : (s.receiveByte b).seqOp = s.seqOp := rfl
@[simp] theorem State.receiveByte_seqStep (b : Byte) : (s.receiveByte b).seqStep = s.seqStep := rfl
@[simp] theorem State.receiveByte_ctx (b : Byte) : (s.receiveByte b).ctx = s.ctx := rfl
@[simp] theorem State.receiveByte_istep (b : Byte) : (s.receiveByte b).istep = s.istep := rfl
@[simp] theorem State.receiveByte_latchA (b : Byte) : (s.receiveByte b).latchA = s.latchA := rfl
@[simp] theorem State.receiveByte_latchB (b : Byte) : (s.receiveByte b).latchB = s.latchB := rfl
@[simp] theorem State.receiveByte_latchRes (b : Byte) : (s.receiveByte b).latchRes = s.latchRes := rfl
@[simp] theorem State.receiveByte_latchT (b : Byte) : (s.receiveByte b).latchT = s.latchT := rfl
@[simp] theorem State.receiveByte_latchTI (b : Byte) : (s.receiveByte b).latchTI = s.latchTI := rfl
@[simp] theorem State.receiveByte_clk (b : Byte) : (s.receiveByte b).clk = s.clk := rfl
@[simp] theorem State.receiveByte_pins (b : Byte) : (s.receiveByte b).pins = s.pins := rfl
@[simp] theorem State.receiveByte_lineEn (b : Byte) : (s.receiveByte b).lineEn = s.lineEn := rfl
@[simp] theorem State.receiveByte_rxen (b : Byte) : (s.receiveByte b).rxen = s.rxen := rfl
@[simp] theorem State.receiveByte_txen (b : Byte) : (s.receiveByte b).txen = s.txen := rfl
@[simp] theorem State.receiveByte_mr (b : Byte) : (s.receiveByte b).mr = s.mr := rfl
@[simp] theorem State.receiveByte_brgr (b : Byte) : (s.receiveByte b).brgr = s.brgr := rfl
@[simp] theorem State.receiveByte_imrRxrdy (b : Byte) : (s.receiveByte b).imrRxrdy = s.imrRxrdy := rfl
@[simp] theorem State.receiveByte_pdcRxen (b : Byte) : (s.receiveByte b).pdcRxen = s.pdcRxen := rfl
@[simp] theorem State.receiveByte_pdcTxen (b : Byte) : (s.receiveByte b).pdcTxen = s.pdcTxen := rfl
@[simp] theorem State.receiveByte_rxrdy (b : Byte) : (s.receiveByte b).rxrdy = true := rfl
@[simp] theorem State.receiveByte_rhr (b : Byte) : (s.receiveByte b).rhr = some b := rfl
@[simp] theorem State.receiveByte_txe (b : Byte) : (s.receiveByte b).txe = s.txe := rfl
@[simp] theorem State.receiveByte_thrValid (b : Byte) : (s.receiveByte b).thrValid = s.thrValid := rfl
@[simp] theorem State.receiveByte_thr (b : Byte) : (s.receiveByte b).thr = s.thr := rfl
@[simp] theorem State.receiveByte_rxbuf (b : Byte) : (s.receiveByte b).rxbuf = s.rxbuf := rfl
@[simp] theorem State.receiveByte_port (b : Byte) : (s.receiveByte b).port = s.port := rfl
@[simp] theorem State.receiveByte_hist (b : Byte) : (s.receiveByte b).hist = s.hist := rfl
@[simp] theorem State.receiveByte_lineOut (b : Byte) : (s.receiveByte b).lineOut = s.lineOut := rfl
@[simp] theorem State.receiveByte_pdcSink (b : Byte) : (s.receiveByte b).pdcSink = s.pdcSink := rfl
@[simp] theorem State.receiveByte_fault (b : Byte) : (s.receiveByte b).fault = s.fault := rfl
@[simp] theorem State.receiveByte_refused (b : Byte) : (s.receiveByte b).refused = s.refused := rfl
@[simp] theorem State.receiveByte_cmds (b : Byte) : (s.receiveByte b).cmds = s.cmds := rfl
@[simp] theorem State.receiveByte_agenda (b : Byte) : (s.receiveByte b).agenda = s.agenda := rfl
@[simp] theorem State.receiveByte_draws (b : Byte) : (s.receiveByte b).draws = s.draws := rfl

/-! ### `State.holdByte` -/

@[simp] theorem State.holdByte_cfg (c : Byte) : (s.holdByte c).cfg = s.cfg := rfl
@[simp] theorem State.holdByte_seqOp (c : Byte) : (s.holdByte c).seqOp = s.seqOp := rfl
@[simp] theorem State.holdByte_seqStep (c : Byte) : (s.holdByte c).seqStep = s.seqStep := rfl
@[simp] theorem State.holdByte_ctx (c : Byte) : (s.holdByte c).ctx = s.ctx := rfl
@[simp] theorem State.holdByte_istep (c : Byte) : (s.holdByte c).istep = s.istep := rfl
@[simp] theorem State.holdByte_latchA (c : Byte) : (s.holdByte c).latchA = s.latchA := rfl
@[simp] theorem State.holdByte_latchB (c : Byte) : (s.holdByte c).latchB = s.latchB := rfl
@[simp] theorem State.holdByte_latchRes (c : Byte) : (s.holdByte c).latchRes = s.latchRes := rfl
@[simp] theorem State.holdByte_latchT (c : Byte) : (s.holdByte c).latchT = s.latchT := rfl
@[simp] theorem State.holdByte_latchTI (c : Byte) : (s.holdByte c).latchTI = s.latchTI := rfl
@[simp] theorem State.holdByte_clk (c : Byte) : (s.holdByte c).clk = s.clk := rfl
@[simp] theorem State.holdByte_pins (c : Byte) : (s.holdByte c).pins = s.pins := rfl
@[simp] theorem State.holdByte_lineEn (c : Byte) : (s.holdByte c).lineEn = s.lineEn := rfl
@[simp] theorem State.holdByte_rxen (c : Byte) : (s.holdByte c).rxen = s.rxen := rfl
@[simp] theorem State.holdByte_txen (c : Byte) : (s.holdByte c).txen = s.txen := rfl
@[simp] theorem State.holdByte_mr (c : Byte) : (s.holdByte c).mr = s.mr := rfl
@[simp] theorem State.holdByte_brgr (c : Byte) : (s.holdByte c).brgr = s.brgr := rfl
@[simp] theorem State.holdByte_imrRxrdy (c : Byte) : (s.holdByte c).imrRxrdy = s.imrRxrdy := rfl
@[simp] theorem State.holdByte_pdcRxen (c : Byte) : (s.holdByte c).pdcRxen = s.pdcRxen := rfl
@[simp] theorem State.holdByte_pdcTxen (c : Byte) : (s.holdByte c).pdcTxen = s.pdcTxen := rfl
@[simp] theorem State.holdByte_rxrdy (c : Byte) : (s.holdByte c).rxrdy = s.rxrdy := rfl
@[simp] theorem State.holdByte_rhr (c : Byte) : (s.holdByte c).rhr = s.rhr := rfl
@[simp] theorem State.holdByte_txe (c : Byte) : (s.holdByte c).txe = false := rfl
@[simp] theorem State.holdByte_thrValid (c : Byte) : (s.holdByte c).thrValid = true := rfl
@[simp] theorem State.holdByte_thr (c : Byte) : (s.holdByte c).thr = some c := rfl
@[simp] theorem State.holdByte_rxbuf (c : Byte) : (s.holdByte c).rxbuf = s.rxbuf := rfl
@[simp] theorem State.holdByte_port (c : Byte) : (s.holdByte c).port = s.port := rfl
@[simp] theorem State.holdByte_hist (c : Byte) : (s.holdByte c).hist = s.hist := rfl
@[simp] theorem State.holdByte_lineOut (c : Byte) : (s.holdByte c).lineOut = s.lineOut := rfl
@[simp] theorem State.holdByte_pdcSink (c : Byte) : (s.holdByte c).pdcSink = s.pdcSink := rfl
@[simp] theorem State.holdByte_fault (c : Byte) : (s.holdByte c).fault = s.fault := rfl
@[simp] theorem State.holdByte_refused (c : Byte) : (s.holdByte c).refused = s.refused := rfl
@[simp] theorem State.holdByte_cmds (c : Byte) : (s.holdByte c).cmds = s.cmds := rfl
@[simp] theorem State.holdByte_agenda (c : Byte) : (s.holdByte c).agenda = s.agenda := rfl
@[simp] theorem State.holdByte_draws (c : Byte) : (s.holdByte c).draws = s.draws := rfl

/-! ### `State.reportEmpty` -/

@[simp] theorem State.reportEmpty_cfg : (s.reportEmpty).cfg = s.cfg := rfl
@[simp] theorem State.reportEmpty_seqOp : (s.reportEmpty).seqOp = s.seqOp := rfl
@[simp] theorem State.reportEmpty_seqStep : (s.reportEmpty).seqStep = s.seqStep := rfl
@[simp] theorem State.reportEmpty_ctx : (s.reportEmpty).ctx = s.ctx := rfl
@[simp] theorem State.reportEmpty_istep : (s.reportEmpty).istep = s.istep := rfl
@[simp] theorem State.reportEmpty_latchA : (s.reportEmpty).latchA = s.latchA := rfl
@[simp] theorem State.reportEmpty_latchB : (s.reportEmpty).latchB = s.latchB := rfl
@[simp] theorem State.reportEmpty_latchRes : (s.reportEmpty).latchRes = s.latchRes := rfl
@[simp] theorem State.reportEmpty_latchT : (s.reportEmpty).latchT = s.latchT := rfl
@[simp] theorem State.reportEmpty_latchTI : (s.reportEmpty).latchTI = s.latchTI := rfl
@[simp] theorem State.reportEmpty_clk : (s.reportEmpty).clk = s.clk := rfl
@[simp] theorem State.reportEmpty_pins : (s.reportEmpty).pins = s.pins := rfl
@[simp] theorem State.reportEmpty_lineEn : (s.reportEmpty).lineEn = s.lineEn := rfl
@[simp] theorem State.reportEmpty_rxen : (s.reportEmpty).rxen = s.rxen := rfl
@[simp] theorem State.reportEmpty_txen : (s.reportEmpty).txen = s.txen := rfl
@[simp] theorem State.reportEmpty_mr : (s.reportEmpty).mr = s.mr := rfl
@[simp] theorem State.reportEmpty_brgr : (s.reportEmpty).brgr = s.brgr := rfl
@[simp] theorem State.reportEmpty_imrRxrdy : (s.reportEmpty).imrRxrdy = s.imrRxrdy := rfl
@[simp] theorem State.reportEmpty_pdcRxen : (s.reportEmpty).pdcRxen = s.pdcRxen := rfl
@[simp] theorem State.reportEmpty_pdcTxen : (s.reportEmpty).pdcTxen = s.pdcTxen := rfl
@[simp] theorem State.reportEmpty_rxrdy : (s.reportEmpty).rxrdy = s.rxrdy := rfl
@[simp] theorem State.reportEmpty_rhr : (s.reportEmpty).rhr = s.rhr := rfl
@[simp] theorem State.reportEmpty_txe : (s.reportEmpty).txe = true := rfl
@[simp] theorem State.reportEmpty_thrValid : (s.reportEmpty).thrValid = false := rfl
@[simp] theorem State.reportEmpty_thr : (s.reportEmpty).thr = s.thr := rfl
@[simp] theorem State.reportEmpty_rxbuf : (s.reportEmpty).rxbuf = s.rxbuf := rfl
@[simp] theorem State.reportEmpty_port : (s.reportEmpty).port = s.port := rfl
@[simp] theorem State.reportEmpty_hist : (s.reportEmpty).hist = s.hist := rfl
@[simp] theorem State.reportEmpty_lineOut : (s.reportEmpty).lineOut = s.lineOut := rfl
@[simp] theorem State.reportEmpty_pdcSink : (s.reportEmpty).pdcSink = s.pdcSink := rfl
@[simp] theorem State.reportEmpty_fault : (s.reportEmpty).fault = s.fault := rfl
@[simp] theorem State.reportEmpty_refused : (s.reportEmpty).refused = s.refused := rfl
@[simp] theorem State.reportEmpty_cmds : (s.reportEmpty).cmds = s.cmds := rfl
@[simp] theorem State.reportEmpty_agenda : (s.reportEmpty).agenda = s.agenda := rfl
@[simp] theorem State.reportEmpty_draws : (s.reportEmpty).draws = s.draws := rfl

/-! ### `State.advance` -/

@[simp] theorem State.advance_cfg : (s.advance).cfg = s.cfg := rfl
@[simp] theorem State.advance_seqOp : (s.advance).seqOp = s.seqOp := rfl
@[simp] theorem State.advance_seqStep : (s.advance).seqStep = s.seqStep + 1 := rfl
@[simp] theorem State.advance_ctx : (s.advance).ctx = s.ctx := rfl
@[simp] theorem State.advance_istep : (s.advance).istep = s.istep := rfl
@[simp] theorem State.advance_latchA : (s.advance).latchA = s.latchA := rfl
@[simp] theorem State.advance_latchB : (s.advance).latchB = s.latchB := rfl
@[simp] theorem State.advance_latchRes : (s.advance).latchRes = s.latchRes := rfl
@[simp] theorem State.advance_latchT : (s.advance).latchT = s.latchT := rfl
@[simp] theorem State.advance_latchTI : (s.advance).latchTI = s.latchTI := rfl
@[simp] theorem State.advance_clk : (s.advance).clk = s.clk := rfl
@[simp] theorem State.advance_pins : (s.advance).pins = s.pins := rfl
@[simp] theorem State.advance_lineEn : (s.advance).lineEn = s.lineEn := rfl
@[simp] theorem State.advance_rxen : (s.advance).rxen = s.rxen := rfl
@[simp] theorem State.advance_txen : (s.advance).txen = s.txen := rfl
@[simp] theorem State.advance_mr : (s.advance).mr = s.mr := rfl
@[simp] theorem State.advance_brgr : (s.advance).brgr = s.brgr := rfl
@[simp] theorem State.advance_imrRxrdy : (s.advance).imrRxrdy = s.imrRxrdy := rfl
@[simp] theorem State.advance_pdcRxen : (s.advance).pdcRxen = s.pdcRxen := rfl
@[simp] theorem State.advance_pdcTxen : (s.advance).pdcTxen = s.pdcTxen := rfl
@[simp] theorem State.advance_rxrdy : (s.advance).rxrdy = s.rxrdy := rfl
@[simp] theorem State.advance_rhr : (s.advance).rhr = s.rhr := rfl
@[simp] theorem State.advance_txe : (s.advance).txe = s.txe := rfl
@[simp] theorem State.advance_thrValid : (s.advance).thrValid = s.thrValid := rfl
@[simp] theorem State.advance_thr : (s.advance).thr = s.thr := rfl
@[simp] theorem State.advance_rxbuf : (s.advance).rxbuf = s.rxbuf := rfl
@[simp] theorem State.advance_port : (s.advance).port = s.port := rfl
@[simp] theorem State.advance_hist : (s.advance).hist = s.hist := rfl
@[simp] theorem State.advance_lineOut : (s.advance).lineOut = s.lineOut := rfl
@[simp] theorem State.advance_pdcSink : (s.advance).pdcSink = s.pdcSink := rfl
@[simp] theorem State.advance_fault : (s.advance).fault = s.fault := rfl
@[simp] theorem State.advance_refused : (s.advance).refused = s.refused := rfl
@[simp] theorem State.advance_cmds : (s.advance).cmds = s.cmds := rfl
@[simp] theorem State.advance_agenda : (s.advance).agenda = s.agenda := rfl
@[simp] theorem State.advance_draws : (s.advance).draws = s.draws := rfl

/-! ### `State.atStep` -/

@[simp] theorem State.atStep_cfg (n : BitVec 4) : (s.atStep n).cfg = s.cfg := rfl
@[simp] theorem State.atStep_seqOp (n : BitVec 4) : (s.atStep n).seqOp = s.seqOp := rfl
@[simp] theorem State.atStep_seqStep (n : BitVec 4) : (s.atStep n).seqStep = n := rfl
@[simp] theorem State.atStep_ctx (n : BitVec 4) : (s.atStep n).ctx = s.ctx := rfl
@[simp] theorem State.atStep_istep (n : BitVec 4) : (s.atStep n).istep = s.istep := rfl
@[simp] theorem State.atStep_latchA (n : BitVec 4) : (s.atStep n).latchA = s.latchA := rfl
@[simp] theorem State.atStep_latchB (n : BitVec 4) : (s.atStep n).latchB = s.latchB := rfl
@[simp] theorem State.atStep_latchRes (n : BitVec 4) : (s.atStep n).latchRes = s.latchRes := rfl
@[simp] theorem State.atStep_latchT (n : BitVec 4) : (s.atStep n).latchT = s.latchT := rfl
@[simp] theorem State.atStep_latchTI (n : BitVec 4) : (s.atStep n).latchTI = s.latchTI := rfl
@[simp] theorem State.atStep_clk (n : BitVec 4) : (s.atStep n).clk = s.clk := rfl
@[simp] theorem State.atStep_pins (n : BitVec 4) : (s.atStep n).pins = s.pins := rfl
@[simp] theorem State.atStep_lineEn (n : BitVec 4) : (s.atStep n).lineEn = s.lineEn := rfl
@[simp] theorem State.atStep_rxen (n : BitVec 4) : (s.atStep n).rxen = s.rxen := rfl
@[simp] theorem State.atStep_txen (n : BitVec 4) : (s.atStep n).txen = s.txen := rfl
@[simp] theorem State.atStep_mr (n : BitVec 4) : (s.atStep n).mr = s.mr := rfl
@[simp] theorem State.atStep_brgr (n : BitVec 4) : (s.atStep n).brgr = s.brgr := rfl
@[simp] theorem State.atStep_imrRxrdy (n : BitVec 4) : (s.atStep n).imrRxrdy = s.imrRxrdy := rfl
@[simp] theorem State.atStep_pdcRxen (n : BitVec 4) : (s.atStep n).pdcRxen = s.pdcRxen := rfl
@[simp] theorem State.atStep_pdcTxen (n : BitVec 4) : (s.atStep n).pdcTxen = s.pdcTxen := rfl
@[simp] theorem State.atStep_rxrdy (n : BitVec 4) : (s.atStep n).rxrdy = s.rxrdy := rfl
@[simp] theorem State.atStep_rhr (n : BitVec 4) : (s.atStep n).rhr = s.rhr := rfl
@[simp] theorem State.atStep_txe (n : BitVec 4) : (s.atStep n).txe = s.txe := rfl
@[simp] theorem State.atStep_thrValid (n : BitVec 4) : (s.atStep n).thrValid = s.thrValid := rfl
@[simp] theorem State.atStep_thr (n : BitVec 4) : (s.atStep n).thr = s.thr := rfl
@[simp] theorem State.atStep_rxbuf (n : BitVec 4) : (s.atStep n).rxbuf = s.rxbuf := rfl
@[simp] theorem State.atStep_port (n : BitVec 4) : (s.atStep n).port = s.port := rfl
@[simp] theorem State.atStep_hist (n : BitVec 4) : (s.atStep n).hist = s.hist := rfl
@[simp] theorem State.atStep_lineOut (n : BitVec 4) : (s.atStep n).lineOut = s.lineOut := rfl
@[simp] theorem State.atStep_pdcSink (n : BitVec 4) : (s.atStep n).pdcSink = s.pdcSink := rfl
@[simp] theorem State.atStep_fault (n : BitVec 4) : (s.atStep n).fault = s.fault := rfl
@[simp] theorem State.atStep_refused (n : BitVec 4) : (s.atStep n).refused = s.refused := rfl
@[simp] theorem State.atStep_cmds (n : BitVec 4) : (s.atStep n).cmds = s.cmds := rfl
@[simp] theorem State.atStep_agenda (n : BitVec 4) : (s.atStep n).agenda = s.agenda := rfl
@[simp] theorem State.atStep_draws (n : BitVec 4) : (s.atStep n).draws = s.draws := rfl

/-! ### `State.complete` -/

@[simp] theorem State.complete_cfg (op : Opcode) (res : Option Result) : (s.complete op res).cfg = s.cfg := rfl
@[simp] theorem State.complete_seqOp (op : Opcode) (res : Option Result) : (s.complete op res).seqOp = 0x00#8 := rfl
@[simp] theorem State.complete_seqStep (op : Opcode) (res : Option Result) : (s.complete op res).seqStep = 0#4 := rfl
@[simp] theorem State.complete_ctx (op : Opcode) (res : Option Result) : (s.complete op res).ctx = s.ctx := rfl
@[simp] theorem State.complete_istep (op : Opcode) (res : Option Result) : (s.complete op res).istep = s.istep := rfl
@[simp] theorem State.complete_latchA (op : Opcode) (res : Option Result) : (s.complete op res).latchA = s.latchA := rfl
@[simp] theorem State.complete_latchB (op : Opcode) (res : Option Result) : (s.complete op res).latchB = s.latchB := rfl
@[simp] theorem State.complete_latchRes (op : Opcode) (res : Option Result) : (s.complete op res).latchRes = s.latchRes := rfl
@[simp] theorem State.complete_latchT (op : Opcode) (res : Option Result) : (s.complete op res).latchT = s.latchT := rfl
@[simp] theorem State.complete_latchTI (op : Opcode) (res : Option Result) : (s.complete op res).latchTI = s.latchTI := rfl
@[simp] theorem State.complete_clk (op : Opcode) (res : Option Result) : (s.complete op res).clk = s.clk := rfl
@[simp] theorem State.complete_pins (op : Opcode) (res : Option Result) : (s.complete op res).pins = s.pins := rfl
@[simp] theorem State.complete_lineEn (op : Opcode) (res : Option Result) : (s.complete op res).lineEn = s.lineEn := rfl
@[simp] theorem State.complete_rxen (op : Opcode) (res : Option Result) : (s.complete op res).rxen = s.rxen := rfl
@[simp] theorem State.complete_txen (op : Opcode) (res : Option Result) : (s.complete op res).txen = s.txen := rfl
@[simp] theorem State.complete_mr (op : Opcode) (res : Option Result) : (s.complete op res).mr = s.mr := rfl
@[simp] theorem State.complete_brgr (op : Opcode) (res : Option Result) : (s.complete op res).brgr = s.brgr := rfl
@[simp] theorem State.complete_imrRxrdy (op : Opcode) (res : Option Result) : (s.complete op res).imrRxrdy = s.imrRxrdy := rfl
@[simp] theorem State.complete_pdcRxen (op : Opcode) (res : Option Result) : (s.complete op res).pdcRxen = s.pdcRxen := rfl
@[simp] theorem State.complete_pdcTxen (op : Opcode) (res : Option Result) : (s.complete op res).pdcTxen = s.pdcTxen := rfl
@[simp] theorem State.complete_rxrdy (op : Opcode) (res : Option Result) : (s.complete op res).rxrdy = s.rxrdy := rfl
@[simp] theorem State.complete_rhr (op : Opcode) (res : Option Result) : (s.complete op res).rhr = s.rhr := rfl
@[simp] theorem State.complete_txe (op : Opcode) (res : Option Result) : (s.complete op res).txe = s.txe := rfl
@[simp] theorem State.complete_thrValid (op : Opcode) (res : Option Result) : (s.complete op res).thrValid = s.thrValid := rfl
@[simp] theorem State.complete_thr (op : Opcode) (res : Option Result) : (s.complete op res).thr = s.thr := rfl
@[simp] theorem State.complete_rxbuf (op : Opcode) (res : Option Result) : (s.complete op res).rxbuf = s.rxbuf := rfl
@[simp] theorem State.complete_port (op : Opcode) (res : Option Result) : (s.complete op res).port = s.port := rfl
@[simp] theorem State.complete_hist (op : Opcode) (res : Option Result) : (s.complete op res).hist = s.hist ++ [.done op res] := rfl
@[simp] theorem State.complete_lineOut (op : Opcode) (res : Option Result) : (s.complete op res).lineOut = s.lineOut := rfl
@[simp] theorem State.complete_pdcSink (op : Opcode) (res : Option Result) : (s.complete op res).pdcSink = s.pdcSink := rfl
@[simp] theorem State.complete_fault (op : Opcode) (res : Option Result) : (s.complete op res).fault = s.fault := rfl
@[simp] theorem State.complete_refused (op : Opcode) (res : Option Result) : (s.complete op res).refused = s.refused := rfl
@[simp] theorem State.complete_cmds (op : Opcode) (res : Option Result) : (s.complete op res).cmds = s.cmds := rfl
@[simp] theorem State.complete_agenda (op : Opcode) (res : Option Result) : (s.complete op res).agenda = s.agenda := rfl
@[simp] theorem State.complete_draws (op : Opcode) (res : Option Result) : (s.complete op res).draws = s.draws := rfl

/-! ### `State.setPort` -/

@[simp] theorem State.setPort_cfg (p : PortState) : (s.setPort p).cfg = s.cfg := rfl
@[simp] theorem State.setPort_seqOp (p : PortState) : (s.setPort p).seqOp = s.seqOp := rfl
@[simp] theorem State.setPort_seqStep (p : PortState) : (s.setPort p).seqStep = s.seqStep := rfl
@[simp] theorem State.setPort_ctx (p : PortState) : (s.setPort p).ctx = s.ctx := rfl
@[simp] theorem State.setPort_istep (p : PortState) : (s.setPort p).istep = s.istep := rfl
@[simp] theorem State.setPort_latchA (p : PortState) : (s.setPort p).latchA = s.latchA := rfl
@[simp] theorem State.setPort_latchB (p : PortState) : (s.setPort p).latchB = s.latchB := rfl
@[simp] theorem State.setPort_latchRes (p : PortState) : (s.setPort p).latchRes = s.latchRes := rfl
@[simp] theorem State.setPort_latchT (p : PortState) : (s.setPort p).latchT = s.latchT := rfl
@[simp] theorem State.setPort_latchTI (p : PortState) : (s.setPort p).latchTI = s.latchTI := rfl
@[simp] theorem State.setPort_clk (p : PortState) : (s.setPort p).clk = s.clk := rfl
@[simp] theorem State.setPort_pins (p : PortState) : (s.setPort p).pins = s.pins := rfl
@[simp] theorem State.setPort_lineEn (p : PortState) : (s.setPort p).lineEn = s.lineEn := rfl
@[simp] theorem State.setPort_rxen (p : PortState) : (s.setPort p).rxen = s.rxen := rfl
@[simp] theorem State.setPort_txen (p : PortState) : (s.setPort p).txen = s.txen := rfl
@[simp] theorem State.setPort_mr (p : PortState) : (s.setPort p).mr = s.mr := rfl
@[simp] theorem State.setPort_brgr (p : PortState) : (s.setPort p).brgr = s.brgr := rfl
@[simp] theorem State.setPort_imrRxrdy (p : PortState) : (s.setPort p).imrRxrdy = s.imrRxrdy := rfl
@[simp] theorem State.setPort_pdcRxen (p : PortState) : (s.setPort p).pdcRxen = s.pdcRxen := rfl
@[simp] theorem State.setPort_pdcTxen (p : PortState) : (s.setPort p).pdcTxen = s.pdcTxen := rfl
@[simp] theorem State.setPort_rxrdy (p : PortState) : (s.setPort p).rxrdy = s.rxrdy := rfl
@[simp] theorem State.setPort_rhr (p : PortState) : (s.setPort p).rhr = s.rhr := rfl
@[simp] theorem State.setPort_txe (p : PortState) : (s.setPort p).txe = s.txe := rfl
@[simp] theorem State.setPort_thrValid (p : PortState) : (s.setPort p).thrValid = s.thrValid := rfl
@[simp] theorem State.setPort_thr (p : PortState) : (s.setPort p).thr = s.thr := rfl
@[simp] theorem State.setPort_rxbuf (p : PortState) : (s.setPort p).rxbuf = s.rxbuf := rfl
@[simp] theorem State.setPort_port (p : PortState) : (s.setPort p).port = p := rfl
@[simp] theorem State.setPort_hist (p : PortState) : (s.setPort p).hist = s.hist := rfl
@[simp] theorem State.setPort_lineOut (p : PortState) : (s.setPort p).lineOut = s.lineOut := rfl
@[simp] theorem State.setPort_pdcSink (p : PortState) : (s.setPort p).pdcSink = s.pdcSink := rfl
@[simp] theorem State.setPort_fault (p : PortState) : (s.setPort p).fault = s.fault := rfl
@[simp] theorem State.setPort_refused (p : PortState) : (s.setPort p).refused = s.refused := rfl
@[simp] theorem State.setPort_cmds (p : PortState) : (s.setPort p).cmds = s.cmds := rfl
@[simp] theorem State.setPort_agenda (p : PortState) : (s.setPort p).agenda = s.agenda := rfl
@[simp] theorem State.setPort_draws (p : PortState) : (s.setPort p).draws = s.draws := rfl

/-! ### `State.load` -/

@[simp] theorem State.load_cfg (op : Opcode) (a b : Word) : (s.load op a b).cfg = s.cfg := rfl
@[simp] theorem State.load_seqOp (op : Opcode) (a b : Word) : (s.load op a b).seqOp = op := rfl
@[simp] theorem State.load_seqStep (op : Opcode) (a b : Word) : (s.load op a b).seqStep = 0#4 := rfl
@[simp] theorem State.load_ctx (op : Opcode) (a b : Word) : (s.load op a b).ctx = s.ctx := rfl
@[simp] theorem State.load_istep (op : Opcode) (a b : Word) : (s.load op a b).istep = s.istep := rfl
@[simp] theorem State.load_latchA (op : Opcode) (a b : Word) : (s.load op a b).latchA = some a := rfl
@[simp] theorem State.load_latchB (op : Opcode) (a b : Word) : (s.load op a b).latchB = some b := rfl
@[simp] theorem State.load_latchRes (op : Opcode) (a b : Word) : (s.load op a b).latchRes = s.latchRes := rfl
@[simp] theorem State.load_latchT (op : Opcode) (a b : Word) : (s.load op a b).latchT = s.latchT := rfl
@[simp] theorem State.load_latchTI (op : Opcode) (a b : Word) : (s.load op a b).latchTI = s.latchTI := rfl
@[simp] theorem State.load_clk (op : Opcode) (a b : Word) : (s.load op a b).clk = s.clk := rfl
@[simp] theorem State.load_pins (op : Opcode) (a b : Word) : (s.load op a b).pins = s.pins := rfl
@[simp] theorem State.load_lineEn (op : Opcode) (a b : Word) : (s.load op a b).lineEn = s.lineEn := rfl
@[simp] theorem State.load_rxen (op : Opcode) (a b : Word) : (s.load op a b).rxen = s.rxen := rfl
@[simp] theorem State.load_txen (op : Opcode) (a b : Word) : (s.load op a b).txen = s.txen := rfl
@[simp] theorem State.load_mr (op : Opcode) (a b : Word) : (s.load op a b).mr = s.mr := rfl
@[simp] theorem State.load_brgr (op : Opcode) (a b : Word) : (s.load op a b).brgr = s.brgr := rfl
@[simp] theorem State.load_imrRxrdy (op : Opcode) (a b : Word) : (s.load op a b).imrRxrdy = s.imrRxrdy := rfl
@[simp] theorem State.load_pdcRxen (op : Opcode) (a b : Word) : (s.load op a b).pdcRxen = s.pdcRxen := rfl
@[simp] theorem State.load_pdcTxen (op : Opcode) (a b : Word) : (s.load op a b).pdcTxen = s.pdcTxen := rfl
@[simp] theorem State.load_rxrdy (op : Opcode) (a b : Word) : (s.load op a b).rxrdy = s.rxrdy := rfl
@[simp] theorem State.load_rhr (op : Opcode) (a b : Word) : (s.load op a b).rhr = s.rhr := rfl
@[simp] theorem State.load_txe (op : Opcode) (a b : Word) : (s.load op a b).txe = s.txe := rfl
@[simp] theorem State.load_thrValid (op : Opcode) (a b : Word) : (s.load op a b).thrValid = s.thrValid := rfl
@[simp] theorem State.load_thr (op : Opcode) (a b : Word) : (s.load op a b).thr = s.thr := rfl
@[simp] theorem State.load_rxbuf (op : Opcode) (a b : Word) : (s.load op a b).rxbuf = s.rxbuf := rfl
@[simp] theorem State.load_port (op : Opcode) (a b : Word) : (s.load op a b).port = s.port := rfl
@[simp] theorem State.load_hist (op : Opcode) (a b : Word) : (s.load op a b).hist = s.hist ++ [.cmd op a b] := rfl
@[simp] theorem State.load_lineOut (op : Opcode) (a b : Word) : (s.load op a b).lineOut = s.lineOut := rfl
@[simp] theorem State.load_pdcSink (op : Opcode) (a b : Word) : (s.load op a b).pdcSink = s.pdcSink := rfl
@[simp] theorem State.load_fault (op : Opcode) (a b : Word) : (s.load op a b).fault = s.fault := rfl
@[simp] theorem State.load_refused (op : Opcode) (a b : Word) : (s.load op a b).refused = s.refused := rfl
@[simp] theorem State.load_cmds (op : Opcode) (a b : Word) : (s.load op a b).cmds = s.cmds := rfl
@[simp] theorem State.load_agenda (op : Opcode) (a b : Word) : (s.load op a b).agenda = s.agenda := rfl
@[simp] theorem State.load_draws (op : Opcode) (a b : Word) : (s.load op a b).draws = s.draws := rfl

/-! ### `pinCfg` -/

@[simp] theorem pinCfg_cfg : (pinCfg s).cfg = s.cfg := rfl
@[simp] theorem pinCfg_seqOp : (pinCfg s).seqOp = s.seqOp := rfl
@[simp] theorem pinCfg_seqStep : (pinCfg s).seqStep = s.seqStep := rfl
@[simp] theorem pinCfg_ctx : (pinCfg s).ctx = s.ctx := rfl
@[simp] theorem pinCfg_istep : (pinCfg s).istep = s.istep := rfl
@[simp] theorem pinCfg_latchA : (pinCfg s).latchA = s.latchA := rfl
@[simp] theorem pinCfg_latchB : (pinCfg s).latchB = s.latchB := rfl
@[simp] theorem pinCfg_latchRes : (pinCfg s).latchRes = s.latchRes := rfl
@[simp] theorem pinCfg_latchT : (pinCfg s).latchT = s.latchT := rfl
@[simp] theorem pinCfg_latchTI : (pinCfg s).latchTI = s.latchTI := rfl
@[simp] theorem pinCfg_clk : (pinCfg s).clk = s.clk := rfl
@[simp] theorem pinCfg_pins : (pinCfg s).pins = .peripheral s.cfg.pinMask .peripheralInputNoPullUp := rfl
@[simp] theorem pinCfg_lineEn : (pinCfg s).lineEn = s.lineEn := rfl
@[simp] theorem pinCfg_rxen : (pinCfg s).rxen = s.rxen := rfl
@[simp] theorem pinCfg_txen : (pinCfg s).txen = s.txen := rfl
@[simp] theorem pinCfg_mr : (pinCfg s).mr = s.mr := rfl
@[simp] theorem pinCfg_brgr : (pinCfg s).brgr = s.brgr := rfl
@[simp] theorem pinCfg_imrRxrdy : (pinCfg s).imrRxrdy = s.imrRxrdy := rfl
@[simp] theorem pinCfg_pdcRxen : (pinCfg s).pdcRxen = s.pdcRxen := rfl
@[simp] theorem pinCfg_pdcTxen : (pinCfg s).pdcTxen = s.pdcTxen := rfl
@[simp] theorem pinCfg_rxrdy : (pinCfg s).rxrdy = s.rxrdy := rfl
@[simp] theorem pinCfg_rhr : (pinCfg s).rhr = s.rhr := rfl
@[simp] theorem pinCfg_txe : (pinCfg s).txe = s.txe := rfl
@[simp] theorem pinCfg_thrValid : (pinCfg s).thrValid = s.thrValid := rfl
@[simp] theorem pinCfg_thr : (pinCfg s).thr = s.thr := rfl
@[simp] theorem pinCfg_rxbuf : (pinCfg s).rxbuf = s.rxbuf := rfl
@[simp] theorem pinCfg_port : (pinCfg s).port = s.port := rfl
@[simp] theorem pinCfg_hist : (pinCfg s).hist = s.hist ++ [.pinCfg s.cfg.pinMask .peripheralInputNoPullUp] := rfl
@[simp] theorem pinCfg_lineOut : (pinCfg s).lineOut = s.lineOut := rfl
@[simp] theorem pinCfg_pdcSink : (pinCfg s).pdcSink = s.pdcSink := rfl
@[simp] theorem pinCfg_fault : (pinCfg s).fault = s.fault := rfl
@[simp] theorem pinCfg_refused : (pinCfg s).refused = s.refused := rfl
@[simp] theorem pinCfg_cmds : (pinCfg s).cmds = s.cmds := rfl
@[simp] theorem pinCfg_agenda : (pinCfg s).agenda = s.agenda := rfl
@[simp] theorem pinCfg_draws : (pinCfg s).draws = s.draws := rfl

/-! ### `clkEn` -/

@[simp] theorem clkEn_cfg : (clkEn s).cfg = s.cfg := rfl
@[simp] theorem clkEn_seqOp : (clkEn s).seqOp = s.seqOp := rfl
@[simp] theorem clkEn_seqStep : (clkEn s).seqStep = s.seqStep := rfl
@[simp] theorem clkEn_ctx : (clkEn s).ctx = s.ctx := rfl
@[simp] theorem clkEn_istep : (clkEn s).istep = s.istep := rfl
@[simp] theorem clkEn_latchA : (clkEn s).latchA = s.latchA := rfl
@[simp] theorem clkEn_latchB : (clkEn s).latchB = s.latchB := rfl
@[simp] theorem clkEn_latchRes : (clkEn s).latchRes = s.latchRes := rfl
@[simp] theorem clkEn_latchT : (clkEn s).latchT = s.latchT := rfl
@[simp] theorem clkEn_latchTI : (clkEn s).latchTI = s.latchTI := rfl
@[simp] theorem clkEn_clk : (clkEn s).clk = true := rfl
@[simp] theorem clkEn_pins : (clkEn s).pins = s.pins := rfl
@[simp] theorem clkEn_lineEn : (clkEn s).lineEn = s.lineEn := rfl
@[simp] theorem clkEn_rxen : (clkEn s).rxen = s.rxen := rfl
@[simp] theorem clkEn_txen : (clkEn s).txen = s.txen := rfl
@[simp] theorem clkEn_mr : (clkEn s).mr = s.mr := rfl
@[simp] theorem clkEn_brgr : (clkEn s).brgr = s.brgr := rfl
@[simp] theorem clkEn_imrRxrdy : (clkEn s).imrRxrdy = s.imrRxrdy := rfl
@[simp] theorem clkEn_pdcRxen : (clkEn s).pdcRxen = s.pdcRxen := rfl
@[simp] theorem clkEn_pdcTxen : (clkEn s).pdcTxen = s.pdcTxen := rfl
@[simp] theorem clkEn_rxrdy : (clkEn s).rxrdy = s.rxrdy := rfl
@[simp] theorem clkEn_rhr : (clkEn s).rhr = s.rhr := rfl
@[simp] theorem clkEn_txe : (clkEn s).txe = s.txe := rfl
@[simp] theorem clkEn_thrValid : (clkEn s).thrValid = s.thrValid := rfl
@[simp] theorem clkEn_thr : (clkEn s).thr = s.thr := rfl
@[simp] theorem clkEn_rxbuf : (clkEn s).rxbuf = s.rxbuf := rfl
@[simp] theorem clkEn_port : (clkEn s).port = s.port := rfl
@[simp] theorem clkEn_hist : (clkEn s).hist = s.hist ++ [.clkEn s.cfg.clockId] := rfl
@[simp] theorem clkEn_lineOut : (clkEn s).lineOut = s.lineOut := rfl
@[simp] theorem clkEn_pdcSink : (clkEn s).pdcSink = s.pdcSink := rfl
@[simp] theorem clkEn_fault : (clkEn s).fault = s.fault := rfl
@[simp] theorem clkEn_refused : (clkEn s).refused = s.refused := rfl
@[simp] theorem clkEn_cmds : (clkEn s).cmds = s.cmds := rfl
@[simp] theorem clkEn_agenda : (clkEn s).agenda = s.agenda := rfl
@[simp] theorem clkEn_draws : (clkEn s).draws = s.draws := rfl

/-! ### `lineEnable` -/

@[simp] theorem lineEnable_cfg : (lineEnable s).cfg = s.cfg := rfl
@[simp] theorem lineEnable_seqOp : (lineEnable s).seqOp = s.seqOp := rfl
@[simp] theorem lineEnable_seqStep : (lineEnable s).seqStep = s.seqStep := rfl
@[simp] theorem lineEnable_ctx : (lineEnable s).ctx = s.ctx := rfl
@[simp] theorem lineEnable_istep : (lineEnable s).istep = s.istep := rfl
@[simp] theorem lineEnable_latchA : (lineEnable s).latchA = s.latchA := rfl
@[simp] theorem lineEnable_latchB : (lineEnable s).latchB = s.latchB := rfl
@[simp] theorem lineEnable_latchRes : (lineEnable s).latchRes = s.latchRes := rfl
@[simp] theorem lineEnable_latchT : (lineEnable s).latchT = s.latchT := rfl
@[simp] theorem lineEnable_latchTI : (lineEnable s).latchTI = s.latchTI := rfl
@[simp] theorem lineEnable_clk : (lineEnable s).clk = s.clk := rfl
@[simp] theorem lineEnable_pins : (lineEnable s).pins = s.pins := rfl
@[simp] theorem lineEnable_lineEn : (lineEnable s).lineEn = true := rfl
@[simp] theorem lineEnable_rxen : (lineEnable s).rxen = s.rxen := rfl
@[simp] theorem lineEnable_txen : (lineEnable s).txen = s.txen := rfl
@[simp] theorem lineEnable_mr : (lineEnable s).mr = s.mr := rfl
@[simp] theorem lineEnable_brgr : (lineEnable s).brgr = s.brgr := rfl
@[simp] theorem lineEnable_imrRxrdy : (lineEnable s).imrRxrdy = s.imrRxrdy := rfl
@[simp] theorem lineEnable_pdcRxen : (lineEnable s).pdcRxen = s.pdcRxen := rfl
@[simp] theorem lineEnable_pdcTxen : (lineEnable s).pdcTxen = s.pdcTxen := rfl
@[simp] theorem lineEnable_rxrdy : (lineEnable s).rxrdy = s.rxrdy := rfl
@[simp] theorem lineEnable_rhr : (lineEnable s).rhr = s.rhr := rfl
@[simp] theorem lineEnable_txe : (lineEnable s).txe = s.txe := rfl
@[simp] theorem lineEnable_thrValid : (lineEnable s).thrValid = s.thrValid := rfl
@[simp] theorem lineEnable_thr : (lineEnable s).thr = s.thr := rfl
@[simp] theorem lineEnable_rxbuf : (lineEnable s).rxbuf = s.rxbuf := rfl
@[simp] theorem lineEnable_port : (lineEnable s).port = s.port := rfl
@[simp] theorem lineEnable_hist : (lineEnable s).hist = s.hist ++ [.lineEn s.cfg.irqLine] := rfl
@[simp] theorem lineEnable_lineOut : (lineEnable s).lineOut = s.lineOut := rfl
@[simp] theorem lineEnable_pdcSink : (lineEnable s).pdcSink = s.pdcSink := rfl
@[simp] theorem lineEnable_fault : (lineEnable s).fault = s.fault := rfl
@[simp] theorem lineEnable_refused : (lineEnable s).refused = s.refused := rfl
@[simp] theorem lineEnable_cmds : (lineEnable s).cmds = s.cmds := rfl
@[simp] theorem lineEnable_agenda : (lineEnable s).agenda = s.agenda := rfl
@[simp] theorem lineEnable_draws : (lineEnable s).draws = s.draws := rfl

/-! ### `lineDisable` -/

@[simp] theorem lineDisable_cfg : (lineDisable s).cfg = s.cfg := rfl
@[simp] theorem lineDisable_seqOp : (lineDisable s).seqOp = s.seqOp := rfl
@[simp] theorem lineDisable_seqStep : (lineDisable s).seqStep = s.seqStep := rfl
@[simp] theorem lineDisable_ctx : (lineDisable s).ctx = s.ctx := rfl
@[simp] theorem lineDisable_istep : (lineDisable s).istep = s.istep := rfl
@[simp] theorem lineDisable_latchA : (lineDisable s).latchA = s.latchA := rfl
@[simp] theorem lineDisable_latchB : (lineDisable s).latchB = s.latchB := rfl
@[simp] theorem lineDisable_latchRes : (lineDisable s).latchRes = s.latchRes := rfl
@[simp] theorem lineDisable_latchT : (lineDisable s).latchT = s.latchT := rfl
@[simp] theorem lineDisable_latchTI : (lineDisable s).latchTI = s.latchTI := rfl
@[simp] theorem lineDisable_clk : (lineDisable s).clk = s.clk := rfl
@[simp] theorem lineDisable_pins : (lineDisable s).pins = s.pins := rfl
@[simp] theorem lineDisable_lineEn : (lineDisable s).lineEn = false := rfl
@[simp] theorem lineDisable_rxen : (lineDisable s).rxen = s.rxen := rfl
@[simp] theorem lineDisable_txen : (lineDisable s).txen = s.txen := rfl
@[simp] theorem lineDisable_mr : (lineDisable s).mr = s.mr := rfl
@[simp] theorem lineDisable_brgr : (lineDisable s).brgr = s.brgr := rfl
@[simp] theorem lineDisable_imrRxrdy : (lineDisable s).imrRxrdy = s.imrRxrdy := rfl
@[simp] theorem lineDisable_pdcRxen : (lineDisable s).pdcRxen = s.pdcRxen := rfl
@[simp] theorem lineDisable_pdcTxen : (lineDisable s).pdcTxen = s.pdcTxen := rfl
@[simp] theorem lineDisable_rxrdy : (lineDisable s).rxrdy = s.rxrdy := rfl
@[simp] theorem lineDisable_rhr : (lineDisable s).rhr = s.rhr := rfl
@[simp] theorem lineDisable_txe : (lineDisable s).txe = s.txe := rfl
@[simp] theorem lineDisable_thrValid : (lineDisable s).thrValid = s.thrValid := rfl
@[simp] theorem lineDisable_thr : (lineDisable s).thr = s.thr := rfl
@[simp] theorem lineDisable_rxbuf : (lineDisable s).rxbuf = s.rxbuf := rfl
@[simp] theorem lineDisable_port : (lineDisable s).port = s.port := rfl
@[simp] theorem lineDisable_hist : (lineDisable s).hist = s.hist ++ [.lineDis s.cfg.irqLine] := rfl
@[simp] theorem lineDisable_lineOut : (lineDisable s).lineOut = s.lineOut := rfl
@[simp] theorem lineDisable_pdcSink : (lineDisable s).pdcSink = s.pdcSink := rfl
@[simp] theorem lineDisable_fault : (lineDisable s).fault = s.fault := rfl
@[simp] theorem lineDisable_refused : (lineDisable s).refused = s.refused := rfl
@[simp] theorem lineDisable_cmds : (lineDisable s).cmds = s.cmds := rfl
@[simp] theorem lineDisable_agenda : (lineDisable s).agenda = s.agenda := rfl
@[simp] theorem lineDisable_draws : (lineDisable s).draws = s.draws := rfl

/-! ### `takeInterrupt` -/

@[simp] theorem takeInterrupt_cfg : (takeInterrupt s).cfg = s.cfg := rfl
@[simp] theorem takeInterrupt_seqOp : (takeInterrupt s).seqOp = s.seqOp := rfl
@[simp] theorem takeInterrupt_seqStep : (takeInterrupt s).seqStep = s.seqStep := rfl
@[simp] theorem takeInterrupt_ctx : (takeInterrupt s).ctx = .irq := rfl
@[simp] theorem takeInterrupt_istep : (takeInterrupt s).istep = 0#2 := rfl
@[simp] theorem takeInterrupt_latchA : (takeInterrupt s).latchA = s.latchA := rfl
@[simp] theorem takeInterrupt_latchB : (takeInterrupt s).latchB = s.latchB := rfl
@[simp] theorem takeInterrupt_latchRes : (takeInterrupt s).latchRes = s.latchRes := rfl
@[simp] theorem takeInterrupt_latchT : (takeInterrupt s).latchT = s.latchT := rfl
@[simp] theorem takeInterrupt_latchTI : (takeInterrupt s).latchTI = s.latchTI := rfl
@[simp] theorem takeInterrupt_clk : (takeInterrupt s).clk = s.clk := rfl
@[simp] theorem takeInterrupt_pins : (takeInterrupt s).pins = s.pins := rfl
@[simp] theorem takeInterrupt_lineEn : (takeInterrupt s).lineEn = s.lineEn := rfl
@[simp] theorem takeInterrupt_rxen : (takeInterrupt s).rxen = s.rxen := rfl
@[simp] theorem takeInterrupt_txen : (takeInterrupt s).txen = s.txen := rfl
@[simp] theorem takeInterrupt_mr : (takeInterrupt s).mr = s.mr := rfl
@[simp] theorem takeInterrupt_brgr : (takeInterrupt s).brgr = s.brgr := rfl
@[simp] theorem takeInterrupt_imrRxrdy : (takeInterrupt s).imrRxrdy = s.imrRxrdy := rfl
@[simp] theorem takeInterrupt_pdcRxen : (takeInterrupt s).pdcRxen = s.pdcRxen := rfl
@[simp] theorem takeInterrupt_pdcTxen : (takeInterrupt s).pdcTxen = s.pdcTxen := rfl
@[simp] theorem takeInterrupt_rxrdy : (takeInterrupt s).rxrdy = s.rxrdy := rfl
@[simp] theorem takeInterrupt_rhr : (takeInterrupt s).rhr = s.rhr := rfl
@[simp] theorem takeInterrupt_txe : (takeInterrupt s).txe = s.txe := rfl
@[simp] theorem takeInterrupt_thrValid : (takeInterrupt s).thrValid = s.thrValid := rfl
@[simp] theorem takeInterrupt_thr : (takeInterrupt s).thr = s.thr := rfl
@[simp] theorem takeInterrupt_rxbuf : (takeInterrupt s).rxbuf = s.rxbuf := rfl
@[simp] theorem takeInterrupt_port : (takeInterrupt s).port = s.port := rfl
@[simp] theorem takeInterrupt_hist : (takeInterrupt s).hist = s.hist ++ [.dispatch] := rfl
@[simp] theorem takeInterrupt_lineOut : (takeInterrupt s).lineOut = s.lineOut := rfl
@[simp] theorem takeInterrupt_pdcSink : (takeInterrupt s).pdcSink = s.pdcSink := rfl
@[simp] theorem takeInterrupt_fault : (takeInterrupt s).fault = s.fault := rfl
@[simp] theorem takeInterrupt_refused : (takeInterrupt s).refused = s.refused := rfl
@[simp] theorem takeInterrupt_cmds : (takeInterrupt s).cmds = s.cmds := rfl
@[simp] theorem takeInterrupt_agenda : (takeInterrupt s).agenda = s.agenda := rfl
@[simp] theorem takeInterrupt_draws : (takeInterrupt s).draws = s.draws := rfl

/-! ### `returnFromInterrupt` -/

@[simp] theorem returnFromInterrupt_cfg : (returnFromInterrupt s).cfg = s.cfg := rfl
@[simp] theorem returnFromInterrupt_seqOp : (returnFromInterrupt s).seqOp = s.seqOp := rfl
@[simp] theorem returnFromInterrupt_seqStep : (returnFromInterrupt s).seqStep = s.seqStep := rfl
@[simp] theorem returnFromInterrupt_ctx : (returnFromInterrupt s).ctx = .fg := rfl
@[simp] theorem returnFromInterrupt_istep : (returnFromInterrupt s).istep = 0#2 := rfl
@[simp] theorem returnFromInterrupt_latchA : (returnFromInterrupt s).latchA = s.latchA := rfl
@[simp] theorem returnFromInterrupt_latchB : (returnFromInterrupt s).latchB = s.latchB := rfl
@[simp] theorem returnFromInterrupt_latchRes : (returnFromInterrupt s).latchRes = s.latchRes := rfl
@[simp] theorem returnFromInterrupt_latchT : (returnFromInterrupt s).latchT = s.latchT := rfl
@[simp] theorem returnFromInterrupt_latchTI : (returnFromInterrupt s).latchTI = s.latchTI := rfl
@[simp] theorem returnFromInterrupt_clk : (returnFromInterrupt s).clk = s.clk := rfl
@[simp] theorem returnFromInterrupt_pins : (returnFromInterrupt s).pins = s.pins := rfl
@[simp] theorem returnFromInterrupt_lineEn : (returnFromInterrupt s).lineEn = s.lineEn := rfl
@[simp] theorem returnFromInterrupt_rxen : (returnFromInterrupt s).rxen = s.rxen := rfl
@[simp] theorem returnFromInterrupt_txen : (returnFromInterrupt s).txen = s.txen := rfl
@[simp] theorem returnFromInterrupt_mr : (returnFromInterrupt s).mr = s.mr := rfl
@[simp] theorem returnFromInterrupt_brgr : (returnFromInterrupt s).brgr = s.brgr := rfl
@[simp] theorem returnFromInterrupt_imrRxrdy : (returnFromInterrupt s).imrRxrdy = s.imrRxrdy := rfl
@[simp] theorem returnFromInterrupt_pdcRxen : (returnFromInterrupt s).pdcRxen = s.pdcRxen := rfl
@[simp] theorem returnFromInterrupt_pdcTxen : (returnFromInterrupt s).pdcTxen = s.pdcTxen := rfl
@[simp] theorem returnFromInterrupt_rxrdy : (returnFromInterrupt s).rxrdy = s.rxrdy := rfl
@[simp] theorem returnFromInterrupt_rhr : (returnFromInterrupt s).rhr = s.rhr := rfl
@[simp] theorem returnFromInterrupt_txe : (returnFromInterrupt s).txe = s.txe := rfl
@[simp] theorem returnFromInterrupt_thrValid : (returnFromInterrupt s).thrValid = s.thrValid := rfl
@[simp] theorem returnFromInterrupt_thr : (returnFromInterrupt s).thr = s.thr := rfl
@[simp] theorem returnFromInterrupt_rxbuf : (returnFromInterrupt s).rxbuf = s.rxbuf := rfl
@[simp] theorem returnFromInterrupt_port : (returnFromInterrupt s).port = s.port := rfl
@[simp] theorem returnFromInterrupt_hist : (returnFromInterrupt s).hist = s.hist ++ [.ret] := rfl
@[simp] theorem returnFromInterrupt_lineOut : (returnFromInterrupt s).lineOut = s.lineOut := rfl
@[simp] theorem returnFromInterrupt_pdcSink : (returnFromInterrupt s).pdcSink = s.pdcSink := rfl
@[simp] theorem returnFromInterrupt_fault : (returnFromInterrupt s).fault = s.fault := rfl
@[simp] theorem returnFromInterrupt_refused : (returnFromInterrupt s).refused = s.refused := rfl
@[simp] theorem returnFromInterrupt_cmds : (returnFromInterrupt s).cmds = s.cmds := rfl
@[simp] theorem returnFromInterrupt_agenda : (returnFromInterrupt s).agenda = s.agenda := rfl
@[simp] theorem returnFromInterrupt_draws : (returnFromInterrupt s).draws = s.draws := rfl

end Sys2Proof.Machine
end

