-- ==== Sys2Proof/Laws/Ops.lean ====
section
/-! SUPPORT. What each shared operation can do, said once: provers cite these and do not unfold the operations. -/

namespace Sys2Proof.Machine

/-! ### Outcomes -/

@[simp] theorem whenLive_eq_next (s t : State) (k : StepResult) :
    whenLive s k = .next t ↔ (s.fault = none ∧ s.refused = none) ∧ k = .next t := by
  unfold whenLive
  cases s.fault <;> cases s.refused <;> simp

theorem whenLive_of_live {s : State} (k : StepResult) (hf : s.fault = none) (hr : s.refused = none) :
    whenLive s k = k := by
  simp [whenLive, hf, hr]

theorem whenLive_of_fault {s : State} (k : StepResult) {f : Fault} (hf : s.fault = some f) :
    whenLive s k = .fault f := by
  simp [whenLive, hf]

theorem whenLive_of_refused {s : State} (k : StepResult) {q : Refusal} (hf : s.fault = none)
    (hr : s.refused = some q) : whenLive s k = .refused q := by
  simp [whenLive, hf, hr]

@[simp] theorem thenNext_ok (s : State) (k : State → State) : thenNext (.ok s) k = .next (k s) := rfl
@[simp] theorem thenNext_error (s : State) (k : State → State) : thenNext (.error s) k = .next s := rfl
@[simp] theorem thenNextWith_ok {α : Type} (v : α) (s : State) (k : α → State → State) :
    thenNextWith (.ok (v, s)) k = .next (k v s) := rfl
@[simp] theorem thenNextWith_error {α : Type} (s : State) (k : α → State → State) :
    thenNextWith (.error s) k = .next s := rfl

/-- An operation's outcome, marked or not, is a next state. -/
theorem exists_thenNext (r : Except State State) (k : State → State) : ∃ t, thenNext r k = .next t := by
  cases r <;> exact ⟨_, rfl⟩

theorem exists_thenNextWith {α : Type} (r : Except State (α × State)) (k : α → State → State) :
    ∃ t, thenNextWith r k = .next t := by
  rcases r with s | ⟨v, s⟩ <;> exact ⟨_, rfl⟩

/-! ### The status word (R68) -/

theorem srRxrdy_statusWord (r e : Bool) (free : Word) : srRxrdy (statusWord r e free) = r := by
  simp only [srRxrdy, field, statusWord, fieldWord, bitSrRXRDY, bitSrTXEMPTY, namedSR, bit]
  cases r <;> cases e <;> simp

theorem srTxempty_statusWord (r e : Bool) (free : Word) : srTxempty (statusWord r e free) = e := by
  simp only [srTxempty, field, statusWord, fieldWord, bitSrRXRDY, bitSrTXEMPTY, namedSR, bit]
  cases r <;> cases e <;> simp

/-! ### The register accesses (R80 to R92) -/

theorem clocked_of_clk {α : Type} (reg : RegName) {s : State} (k : Except State α) (h : s.clk = true) :
    clocked reg s k = k := by
  simp [clocked, h]

theorem clocked_of_not_clk {α : Type} (reg : RegName) {s : State} (k : Except State α) (h : s.clk = false) :
    clocked reg s k = .error (s.raiseFault (.unclockedAccess reg)) := by
  simp [clocked, h]

/-- What a register access can do: fault without the clock, or what it does with it. -/
theorem clocked_cases {α : Type} (reg : RegName) (s : State) (k : Except State α) :
    (s.clk = false ∧ clocked reg s k = .error (s.raiseFault (.unclockedAccess reg))) ∨
    (s.clk = true ∧ clocked reg s k = k) := by
  cases h : s.clk
  · exact .inl ⟨rfl, clocked_of_not_clk reg k h⟩
  · exact .inr ⟨rfl, clocked_of_clk reg k h⟩

theorem regReadSR_cases (s : State) :
    (s.clk = false ∧ regReadSR s = .error (s.raiseFault (.unclockedAccess .SR))) ∨
    (s.clk = true ∧ ∃ v, srRxrdy v = s.rxrdy ∧ srTxempty v = s.txe ∧
      regReadSR s = .ok (v, s.drawn.emit (.regR .SR v))) := by
  rcases clocked_cases .SR s (.ok (statusWord s.rxrdy s.txe (Config.freeWord s.draws),
    s.drawn.emit (.regR .SR (statusWord s.rxrdy s.txe (Config.freeWord s.draws))))) with h | h
  · exact .inl h
  · exact .inr ⟨h.1, _, srRxrdy_statusWord _ _ _, srTxempty_statusWord _ _ _, h.2⟩

theorem regWriteCR_cases (v : Word) (s : State) :
    (s.clk = false ∧ regWriteCR v s = .error (s.raiseFault (.unclockedAccess .CR))) ∨
    (s.clk = true ∧ badControl v = true ∧ regWriteCR v s = .error (s.refuse (.badControlWrite v))) ∨
    (s.clk = true ∧ badControl v = false ∧ regWriteCR v s = .ok ((controlEffects v s).emit (.regW .CR v))) := by
  unfold regWriteCR clocked
  cases s.clk <;> cases badControl v <;> simp

theorem regWriteMR_cases (v : Word) (s : State) :
    (s.clk = false ∧ regWriteMR v s = .error (s.raiseFault (.unclockedAccess .MR))) ∨
    (s.clk = true ∧ s.cfg.refuseOtherModes = true ∧ v ≠ modeValue ∧
      regWriteMR v s = .error (s.refuse (.badModeValue v))) ∨
    (s.clk = true ∧ (s.cfg.refuseOtherModes = true → v = modeValue) ∧
      regWriteMR v s = .ok ({ s with mr := some v }.emit (.regW .MR v))) := by
  unfold regWriteMR clocked
  cases s.clk <;> cases s.cfg.refuseOtherModes <;> by_cases h : v = modeValue <;> simp [h]

theorem regReadMR_cases (s : State) :
    (s.clk = false ∧ regReadMR s = .error (s.raiseFault (.unclockedAccess .MR))) ∨
    (s.clk = true ∧ s.mr = none ∧ ∃ v, regReadMR s = .ok (v, s.drawn.emit (.regR .MR v))) ∨
    (s.clk = true ∧ ∃ v, s.mr = some v ∧ regReadMR s = .ok (v, s.emit (.regR .MR v))) := by
  unfold regReadMR clocked
  cases s.clk <;> cases s.mr <;> simp

theorem regWriteBRGR_cases (d : Word) (s : State) :
    (s.clk = false ∧ regWriteBRGR d s = .error (s.raiseFault (.unclockedAccess .BRGR))) ∨
    (s.clk = true ∧ 2 ^ s.cfg.divisorWidth ≤ d.toNat ∧
      regWriteBRGR d s = .error (s.refuse (.divisorTooWide d.toNat))) ∨
    (s.clk = true ∧ d.toNat < 2 ^ s.cfg.divisorWidth ∧
      regWriteBRGR d s = .ok ({ s with brgr := some d }.emit (.regW .BRGR d))) := by
  unfold regWriteBRGR clocked
  cases s.clk <;> by_cases h : 2 ^ s.cfg.divisorWidth ≤ d.toNat <;> simp [h] <;> omega

theorem regReadRHR_cases (s : State) :
    (s.clk = false ∧ regReadRHR s = .error (s.raiseFault (.unclockedAccess .RHR))) ∨
    (s.clk = true ∧ s.rxrdy = true ∧
      regReadRHR s = .ok (s.rhrByte.toWord, s.clearRxrdy.emit (.regR .RHR s.rhrByte.toWord))) ∨
    (s.clk = true ∧ s.rxrdy = false ∧ ∃ v, regReadRHR s = .ok (v, s.drawn.clearRxrdy.emit (.regR .RHR v))) := by
  unfold regReadRHR clocked
  cases s.clk <;> cases s.rxrdy <;> simp

theorem regWriteTHR_cases (c : Word) (s : State) :
    (s.clk = false ∧ regWriteTHR c s = .error (s.raiseFault (.unclockedAccess .THR))) ∨
    (s.clk = true ∧ s.txe = false ∧ regWriteTHR c s = .error (s.refuse (.thrOverwrite c))) ∨
    (s.clk = true ∧ s.txe = true ∧ regWriteTHR c s = .ok ((s.holdByte (lowByte c)).emit (.regW .THR c))) := by
  unfold regWriteTHR clocked
  cases s.clk <;> cases s.txe <;> simp

theorem regWriteIER_cases (m : Word) (s : State) :
    (s.clk = false ∧ regWriteIER m s = .error (s.raiseFault (.unclockedAccess .IER))) ∨
    (s.clk = true ∧ regWriteIER m s =
      .ok ({ s with imrRxrdy := s.imrRxrdy || field m bitIntRXRDY }.emit (.regW .IER m))) := by
  unfold regWriteIER clocked
  cases s.clk <;> cases field m bitIntRXRDY <;> simp

theorem regWriteIDR_cases (m : Word) (s : State) :
    (s.clk = false ∧ regWriteIDR m s = .error (s.raiseFault (.unclockedAccess .IDR))) ∨
    (s.clk = true ∧ regWriteIDR m s =
      .ok ({ s with imrRxrdy := s.imrRxrdy && !field m bitIntRXRDY }.emit (.regW .IDR m))) := by
  unfold regWriteIDR clocked
  cases s.clk <;> cases field m bitIntRXRDY <;> simp

theorem regWritePTCR_cases (v : Word) (s : State) :
    (s.clk = false ∧ regWritePTCR v s = .error (s.raiseFault (.unclockedAccess .PTCR))) ∨
    (s.clk = true ∧ badTransfer v = true ∧ regWritePTCR v s = .error (s.refuse (.badTransferWrite v))) ∨
    (s.clk = true ∧ badTransfer v = false ∧ regWritePTCR v s = .ok ({ s with
      pdcRxen := enableAfter (field v bitRXTEN) (field v bitRXTDIS) s.pdcRxen
      pdcTxen := enableAfter (field v bitTXTEN) (field v bitTXTDIS) s.pdcTxen }.emit (.regW .PTCR v))) := by
  unfold regWritePTCR clocked
  cases s.clk <;> cases badTransfer v <;> simp

/-! ### The values the block writes (R73) -/

theorem crResetDisable_eq : crResetDisable = 0x000000AC#32 := by decide
theorem crEnable_eq : crEnable = 0x00000050#32 := by decide
theorem ptcrDisableBoth_eq : ptcrDisableBoth = 0x00000202#32 := by decide
theorem ptcrArmRx_eq : ptcrArmRx = 0x00000001#32 := by decide
theorem intRxrdy_eq : intRxrdy = 0x00000001#32 := by decide
theorem badControl_crResetDisable : badControl crResetDisable = false := by decide
theorem badControl_crEnable : badControl crEnable = false := by decide
theorem badTransfer_ptcrDisableBoth : badTransfer ptcrDisableBoth = false := by decide
theorem badTransfer_ptcrArmRx : badTransfer ptcrArmRx = false := by decide

/-- The reset and disable write of CONFIGURE and TPINIT, with the clock on (R83). -/
theorem regWriteCR_resetDisable {s : State} (h : s.clk = true) :
    regWriteCR crResetDisable s = .ok ({ s with
      rxrdy := false, rhr := none, thrValid := false, txe := false, rxen := false, txen := false }.emit
        (.regW .CR crResetDisable)) := by
  rw [regWriteCR, clocked_of_clk _ _ h, badControl_crResetDisable]
  rfl

/-- The enable write of CONFIGURE and TPINIT, with the clock on (R83). -/
theorem regWriteCR_enable {s : State} (h : s.clk = true) :
    regWriteCR crEnable s = .ok ({ s with rxen := true, txen := true }.emit (.regW .CR crEnable)) := by
  rw [regWriteCR, clocked_of_clk _ _ h, badControl_crEnable]
  rfl

/-- The transfer disable of CONFIGURE and TPINIT, with the clock on (R92). -/
theorem regWritePTCR_disableBoth {s : State} (h : s.clk = true) :
    regWritePTCR ptcrDisableBoth s =
      .ok ({ s with pdcRxen := false, pdcTxen := false }.emit (.regW .PTCR ptcrDisableBoth)) := by
  rw [regWritePTCR, clocked_of_clk _ _ h, badTransfer_ptcrDisableBoth]
  rfl

/-- TPINIT's arming of the receive transfer, with the clock on (R92). -/
theorem regWritePTCR_armRx {s : State} (h : s.clk = true) :
    regWritePTCR ptcrArmRx s = .ok ({ s with pdcRxen := true }.emit (.regW .PTCR ptcrArmRx)) := by
  rw [regWritePTCR, clocked_of_clk _ _ h, badTransfer_ptcrArmRx]
  rfl

/-- The mode write of CONFIGURE and TPINIT is never refused (R84). -/
theorem regWriteMR_modeValue {s : State} (h : s.clk = true) :
    regWriteMR modeValue s = .ok ({ s with mr := some modeValue }.emit (.regW .MR modeValue)) := by
  rw [regWriteMR, clocked_of_clk _ _ h]
  simp

/-! ### The steps CONFIGURE and TPINIT share, with the clock on (R110, R150) -/

theorem configurationStep_1 (s : State) : configurationStep 1 s = .ok (clkEn s) := rfl

theorem configurationStep_2 {s : State} (h : s.clk = true) :
    configurationStep 2 s = .ok ({ s with
      rxrdy := false, rhr := none, thrValid := false, txe := false, rxen := false, txen := false }.emit
        (.regW .CR 0x000000AC#32)) := regWriteCR_resetDisable h

theorem configurationStep_3 {s : State} (h : s.clk = true) :
    configurationStep 3 s = .ok ({ s with mr := some 0x00000800#32 }.emit (.regW .MR 0x00000800#32)) :=
  regWriteMR_modeValue h

theorem configurationStep_4 {s : State} {d : Word} (h : s.clk = true) (hT : s.latchT = some d)
    (hd : d.toNat < 2 ^ s.cfg.divisorWidth) :
    configurationStep 4 s = .ok ({ s with brgr := some d }.emit (.regW .BRGR d)) := by
  have e : s.readT = d := by simp [State.readT, hT]
  rcases regWriteBRGR_cases s.readT s with ⟨hk, -⟩ | ⟨-, hw, -⟩ | ⟨-, -, hw⟩
  · simp [h] at hk
  · rw [e] at hw; omega
  · rw [e] at hw; rw [configurationStep, e, hw]

theorem configurationStep_5 {s : State} (h : s.clk = true) :
    configurationStep 5 s =
      .ok ({ s with pdcRxen := false, pdcTxen := false }.emit (.regW .PTCR 0x00000202#32)) :=
  regWritePTCR_disableBoth h

theorem configurationStep_6 {s : State} (h : s.clk = true) :
    configurationStep 6 s = .ok ({ s with rxen := true, txen := true }.emit (.regW .CR 0x00000050#32)) :=
  regWriteCR_enable h

/-! ### Admission (R113) and the buffer push (R99) -/

theorem admission_cases (c : Config) (b m : Word) :
    (b = 0#32 ∧ admission c b m = .error .zeroBaudrate) ∨
    (b ≠ 0#32 ∧ m = 0#32 ∧ admission c b m = .error .zeroMasterClock) ∨
    (b ≠ 0#32 ∧ m ≠ 0#32 ∧ 2 ^ c.divisorWidth ≤ divisor b m ∧
      admission c b m = .error (.divisorTooWide (divisor b m))) ∨
    (b ≠ 0#32 ∧ m ≠ 0#32 ∧ divisor b m < 2 ^ c.divisorWidth ∧
      admission c b m = .ok (BitVec.ofNat 32 (divisor b m))) := by
  unfold admission
  by_cases hb : b = 0#32
  · simp [hb]
  · by_cases hm : m = 0#32
    · simp [hb, hm]
    · by_cases hd : 2 ^ c.divisorWidth ≤ divisor b m
      · simp [hb, hm, hd]
      · simp [hb, hm, hd]; omega

/-- A divisor fits 32 bits whatever the baud rate (R112). -/
theorem divisor_lt (b m : Word) : divisor b m < 2 ^ 32 :=
  Nat.lt_of_le_of_lt (Nat.div_le_self _ _) m.isLt

theorem toNat_ofNat_divisor (b m : Word) : (BitVec.ofNat 32 (divisor b m)).toNat = divisor b m := by
  rw [BitVec.toNat_ofNat, Nat.mod_eq_of_lt (divisor_lt b m)]

theorem bufPush_cases (b : Byte) (s : State) :
    (s.rxbuf.length < 512 ∧ bufPush b s = { s with rxbuf := s.rxbuf ++ [b] }.emit (.push b true)) ∨
    (512 ≤ s.rxbuf.length ∧ s.cfg.overflowPolicy = .dropNewest ∧ bufPush b s = s.emit (.push b false)) ∨
    (512 ≤ s.rxbuf.length ∧ s.cfg.overflowPolicy = .overwriteOldest ∧
      bufPush b s = { s with rxbuf := s.rxbuf.drop 1 ++ [b] }.emit (.push b true)) := by
  unfold bufPush rxbufCapacity
  by_cases h : s.rxbuf.length < 512
  · simp [h]
  · cases hp : s.cfg.overflowPolicy <;> simp [h] <;> omega

end Sys2Proof.Machine
end

