-- ==== Sys2Proof/Laws/PerInstr.lean ====
section
/-! SUPPORT. Statements made per instruction: the word or header the encoder writes is the one its row of
spec/opcode_table.json gives, for every value of the operands. -/

namespace Sys2Proof.Laws.MatchesTable

/-- A row of the opcode table: mask and pattern of a command word, or a bus header. -/
inductive Row where
  | cmd (mask pattern : CmdWord)
  | bus (header : Header)

/-- The row of each instruction, copied from spec/opcode_table.json. -/
def row : Instr → Row
  | .configure _ _ => .cmd 0xFF0000000000000000#72 0x010000000000000000#72
  | .stop => .cmd 0xFFFFFFFFFFFFFFFFFF#72 0x020000000000000000#72
  | .putc _ => .cmd 0xFFFFFFFF00FFFFFFFF#72 0x030000000000000000#72
  | .tpinit _ => .cmd 0xFFFFFFFF00FFFFFFFF#72 0x040000000000000000#72
  | .tprecv => .cmd 0xFFFFFFFFFFFFFFFFFF#72 0x050000000000000000#72
  | .rxisr => .cmd 0xFF0000000000000000#72 0x060000000000000000#72
  | .regWriteCR _ => .bus 0x1000#13
  | .regWriteMR _ => .bus 0x1004#13
  | .regReadMR => .bus 0x0004#13
  | .regWriteIER _ => .bus 0x1008#13
  | .regWriteIDR _ => .bus 0x100C#13
  | .regReadSR => .bus 0x0014#13
  | .regReadRHR => .bus 0x0018#13
  | .regWriteTHR _ => .bus 0x101C#13
  | .regWriteBRGR _ => .bus 0x1020#13
  | .regWritePTCR _ => .bus 0x1120#13

/-- A row describes a fetch. -/
def Describes : Row → Fetch → Prop
  | .cmd mask pattern, .cmd cw => cw &&& mask = pattern
  | .bus header, .bus h _ => h = header
  | .cmd _ _, .bus _ _ => False
  | .bus _, .cmd _ => False

/-- What the encoder writes is what the instruction's row describes. -/
def Statement (i : Instr) : Prop := Describes (row i) (encode i)

theorem and_ofFields (o o' : Opcode) (a a' b b' : Word) :
    CmdWord.ofFields o a b &&& CmdWord.ofFields o' a' b' = CmdWord.ofFields (o &&& o') (a &&& a') (b &&& b') := by
  apply BitVec.eq_of_getLsbD_eq
  intro k hk
  simp only [BitVec.getLsbD_and, CmdWord.getLsbD_ofFields]
  split
  · rfl
  · split <;> rfl

theorem toWord_and_upper (c : Byte) : c.toWord &&& 0xFFFFFF00#32 = 0#32 := by
  revert c
  decide

theorem configure (b m : Word) : Statement (.configure b m) := by
  have h : (0xFF0000000000000000#72 : CmdWord) = CmdWord.ofFields 0xFF#8 0#32 0#32 := by decide
  simp only [Statement, row, encode, Describes, h, and_ofFields, BitVec.and_zero]
  decide

theorem stop : Statement .stop := by
  simp only [Statement, row, encode, Describes]
  decide

theorem putc (c : Byte) : Statement (.putc c) := by
  have h : (0xFFFFFFFF00FFFFFFFF#72 : CmdWord) = CmdWord.ofFields 0xFF#8 0xFFFFFF00#32 0xFFFFFFFF#32 := by decide
  simp only [Statement, row, encode, Describes, h, and_ofFields, toWord_and_upper]
  decide

theorem tpinit (p : Byte) : Statement (.tpinit p) := by
  have h : (0xFFFFFFFF00FFFFFFFF#72 : CmdWord) = CmdWord.ofFields 0xFF#8 0xFFFFFF00#32 0xFFFFFFFF#32 := by decide
  simp only [Statement, row, encode, Describes, h, and_ofFields, toWord_and_upper]
  decide

theorem tprecv : Statement .tprecv := by
  simp only [Statement, row, encode, Describes]
  decide

theorem rxisr : Statement .rxisr := by
  simp only [Statement, row, encode, Describes]
  decide

theorem regWriteCR (v : Word) : Statement (.regWriteCR v) := rfl
theorem regWriteMR (v : Word) : Statement (.regWriteMR v) := rfl
theorem regReadMR : Statement .regReadMR := rfl
theorem regWriteIER (m : Word) : Statement (.regWriteIER m) := rfl
theorem regWriteIDR (m : Word) : Statement (.regWriteIDR m) := rfl
theorem regReadSR : Statement .regReadSR := rfl
theorem regReadRHR : Statement .regReadRHR := rfl
theorem regWriteTHR (c : Word) : Statement (.regWriteTHR c) := rfl
theorem regWriteBRGR (d : Word) : Statement (.regWriteBRGR d) := rfl
theorem regWritePTCR (v : Word) : Statement (.regWritePTCR v) := rfl

end Sys2Proof.Laws.MatchesTable
end

