-- ==== Sys2Proof/Laws/Step.lean ====
section
/-! SUPPORT. What one step can do, said once: `Move` lists every effect with its guards, and `step_moves` says that a
step that goes on is one of them. An invariant is then a case analysis over `Move`. -/

namespace Sys2Proof.Machine

/-- What one register access does where it is a step of its own (R81 to R92), the clock on. -/
inductive Access (u : State) : State → Prop
  | readSR (v : Word) (h₁ : srRxrdy v = u.rxrdy) (h₂ : srTxempty v = u.txe) :
      Access u { u with draws := u.draws + 1, hist := u.hist ++ [.regR .SR v] }
  | writeCR (v : Word) (h : badControl v = false) :
      Access u { controlEffects v u with hist := u.hist ++ [.regW .CR v] }
  | badCR (v : Word) (h : badControl v = true) : Access u (u.refuse (.badControlWrite v))
  | writeMR (v : Word) (h : u.cfg.refuseOtherModes = true → v = modeValue) :
      Access u { u with mr := some v, hist := u.hist ++ [.regW .MR v] }
  | badMR (v : Word) (h : v ≠ modeValue) : Access u (u.refuse (.badModeValue v))
  | readMR (v : Word) (h : u.mr = some v) : Access u { u with hist := u.hist ++ [.regR .MR v] }
  | readMRUnwritten (v : Word) (h : u.mr = none) :
      Access u { u with draws := u.draws + 1, hist := u.hist ++ [.regR .MR v] }
  | writeBRGR (d : Word) (h : d.toNat < 2 ^ u.cfg.divisorWidth) :
      Access u { u with brgr := some d, hist := u.hist ++ [.regW .BRGR d] }
  | badBRGR (d : Word) (h : 2 ^ u.cfg.divisorWidth ≤ d.toNat) : Access u (u.refuse (.divisorTooWide d.toNat))
  | readRHR (h : u.rxrdy = true) :
      Access u { u with rxrdy := false, hist := u.hist ++ [.regR .RHR u.rhrByte.toWord] }
  | readRHREmpty (v : Word) (h : u.rxrdy = false) :
      Access u { u with rxrdy := false, draws := u.draws + 1, hist := u.hist ++ [.regR .RHR v] }
  | writeTHR (c : Word) (h : u.txe = true) :
      Access u { u with thr := some (lowByte c), thrValid := true, txe := false, hist := u.hist ++ [.regW .THR c] }
  | badTHR (c : Word) (h : u.txe = false) : Access u (u.refuse (.thrOverwrite c))
  | writeIER (m : Word) :
      Access u { u with imrRxrdy := u.imrRxrdy || field m bitIntRXRDY, hist := u.hist ++ [.regW .IER m] }
  | writeIDR (m : Word) :
      Access u { u with imrRxrdy := u.imrRxrdy && !field m bitIntRXRDY, hist := u.hist ++ [.regW .IDR m] }
  | writePTCR (v : Word) (h : badTransfer v = false) :
      Access u { u with
        pdcRxen := enableAfter (field v bitRXTEN) (field v bitRXTDIS) u.pdcRxen
        pdcTxen := enableAfter (field v bitTXTEN) (field v bitTXTDIS) u.pdcTxen
        hist := u.hist ++ [.regW .PTCR v] }
  | badPTCR (v : Word) (h : badTransfer v = true) : Access u (u.refuse (.badTransferWrite v))

/-- Who may meet the clock-gate fault of R80, and at which register. -/
def UnclockedAt (turn : Turn) (u : State) (r : RegName) : Prop :=
  turn.harness = true ∨
  (u.ctx = .irq ∧ u.istep = 0#2 ∧ r = .RHR) ∨
  (u.ctx = .fg ∧
    ((u.seqOp = 0x01#8 ∨ u.seqOp = 0x04#8) ∧ 2 ≤ u.seqStep.toNat ∨
     u.seqOp = 0x02#8 ∧ u.seqStep = 0#4 ∧ r = .IDR ∨
     u.seqOp = 0x03#8 ∧ (u.seqStep = 0#4 ∧ r = .SR ∨ u.seqStep = 1#4 ∧ r = .THR) ∨
     u.seqOp = 0x05#8 ∧ (u.seqStep = 0#4 ∧ r = .SR ∨ u.seqStep = 1#4 ∧ r = .RHR)))

/-- The micro-operations of the command in progress, one after the other, the clock on where one is a
register access. -/
inductive Micro (u : State) : State → Prop
  | configureRefuse (q : Refusal) (ho : u.seqOp = 0x01#8) (h0 : u.seqStep = 0#4)
      (hq : q = .zeroBaudrate ∨ q = .zeroMasterClock ∨ ∃ d, q = .divisorTooWide d) : Micro u (u.refuse q)
  | configureAdmit (ho : u.seqOp = 0x01#8) (h0 : u.seqStep = 0#4)
      (hd : divisor u.readA u.readB < 2 ^ u.cfg.divisorWidth) : Micro u { u with
        latchT := some (BitVec.ofNat 32 (divisor u.readA u.readB)), seqStep := 1#4,
        pins := .peripheral u.cfg.pinMask .peripheralInputNoPullUp,
        hist := u.hist ++ [.pinCfg u.cfg.pinMask .peripheralInputNoPullUp] }
  | tpinitRefuse (q : Refusal) (ho : u.seqOp = 0x04#8) (h0 : u.seqStep = 0#4)
      (hq : (∃ p, q = .unknownProtocol p) ∨ q = .zeroBaudrate ∨ q = .zeroMasterClock ∨
        ∃ d, q = .divisorTooWide d) : Micro u (u.refuse q)
  | tpinitAdmit (baud : Word) (ho : u.seqOp = 0x04#8) (h0 : u.seqStep = 0#4)
      (hd : divisor baud u.cfg.masterClock < 2 ^ u.cfg.divisorWidth) : Micro u { u with
        latchA := some baud, latchB := some u.cfg.masterClock,
        latchT := some (BitVec.ofNat 32 (divisor baud u.cfg.masterClock)), seqStep := 1#4,
        pins := .peripheral u.cfg.pinMask .peripheralInputNoPullUp,
        hist := u.hist ++ [.pinCfg u.cfg.pinMask .peripheralInputNoPullUp] }
  | clockOn (ho : u.seqOp = 0x01#8 ∨ u.seqOp = 0x04#8) (h1 : u.seqStep = 1#4) : Micro u { u with
      clk := true, seqStep := 2#4, hist := u.hist ++ [.clkEn u.cfg.clockId] }
  | resetDisable (ho : u.seqOp = 0x01#8 ∨ u.seqOp = 0x04#8) (h2 : u.seqStep = 2#4) (hk : u.clk = true) :
      Micro u { u with
        rxrdy := false, rhr := none, thrValid := false, txe := false, rxen := false, txen := false,
        seqStep := 3#4, hist := u.hist ++ [.regW .CR 0x000000AC#32] }
  | mode (ho : u.seqOp = 0x01#8 ∨ u.seqOp = 0x04#8) (h3 : u.seqStep = 3#4) (hk : u.clk = true) :
      Micro u { u with mr := some 0x00000800#32, seqStep := 4#4, hist := u.hist ++ [.regW .MR 0x00000800#32] }
  | divisorStored (ho : u.seqOp = 0x01#8 ∨ u.seqOp = 0x04#8) (h4 : u.seqStep = 4#4) (hk : u.clk = true)
      (hd : u.readT.toNat < 2 ^ u.cfg.divisorWidth) :
      Micro u { u with brgr := some u.readT, seqStep := 5#4, hist := u.hist ++ [.regW .BRGR u.readT] }
  | divisorRefused (ho : u.seqOp = 0x01#8 ∨ u.seqOp = 0x04#8) (h4 : u.seqStep = 4#4) (hk : u.clk = true)
      (hd : 2 ^ u.cfg.divisorWidth ≤ u.readT.toNat) : Micro u (u.refuse (.divisorTooWide u.readT.toNat))
  | transfersOff (ho : u.seqOp = 0x01#8 ∨ u.seqOp = 0x04#8) (h5 : u.seqStep = 5#4) (hk : u.clk = true) :
      Micro u { u with
        pdcRxen := false, pdcTxen := false, seqStep := 6#4, hist := u.hist ++ [.regW .PTCR 0x00000202#32] }
  | enable (ho : u.seqOp = 0x01#8 ∧ u.cfg.variant = .interruptDriver ∨ u.seqOp = 0x04#8)
      (h6 : u.seqStep = 6#4) (hk : u.clk = true) :
      Micro u { u with rxen := true, txen := true, seqStep := 7#4, hist := u.hist ++ [.regW .CR 0x00000050#32] }
  | enableDone (ho : u.seqOp = 0x01#8) (hv : u.cfg.variant ≠ .interruptDriver) (h6 : u.seqStep = 6#4)
      (hk : u.clk = true) : Micro u { u with
        rxen := true, txen := true, seqOp := 0x00#8, seqStep := 0#4, port := .configuredIdle,
        hist := u.hist ++ [.regW .CR 0x00000050#32, .done 0x01#8 none] }
  | unmask (ho : u.seqOp = 0x01#8) (hv : u.cfg.variant = .interruptDriver) (h7 : u.seqStep = 7#4)
      (hk : u.clk = true) :
      Micro u { u with imrRxrdy := true, seqStep := 8#4, hist := u.hist ++ [.regW .IER 0x00000001#32] }
  | lineOn (ho : u.seqOp = 0x01#8) (hv : u.cfg.variant = .interruptDriver) (h8 : u.seqStep = 8#4) :
      Micro u { u with
        lineEn := true, seqOp := 0x00#8, seqStep := 0#4, port := .running,
        hist := u.hist ++ [.lineEn u.cfg.irqLine, .done 0x01#8 none] }
  | mask (ho : u.seqOp = 0x02#8) (h0 : u.seqStep = 0#4) (hk : u.clk = true) :
      Micro u { u with imrRxrdy := false, seqStep := 1#4, hist := u.hist ++ [.regW .IDR 0x00000001#32] }
  | lineOff (ho : u.seqOp = 0x02#8) (h1 : u.seqStep = 1#4) : Micro u { u with
      lineEn := false, seqOp := 0x00#8, seqStep := 0#4, port := .stopped,
      hist := u.hist ++ [.lineDis u.cfg.irqLine, .done 0x02#8 none] }
  | poll (v : Word) (ho : u.seqOp = 0x03#8) (h0 : u.seqStep = 0#4) (hk : u.clk = true) : Micro u { u with
      latchT := some v, seqStep := if u.txe then 1#4 else 0#4, draws := u.draws + 1,
      hist := u.hist ++ [.regR .SR v] }
  | send (ho : u.seqOp = 0x03#8) (h1 : u.seqStep = 1#4) (hk : u.clk = true) (he : u.txe = true) :
      Micro u { u with
        thr := some u.putcByte, thrValid := true, txe := false, seqOp := 0x00#8, seqStep := 0#4,
        hist := u.hist ++ [.regW .THR u.putcByte.toWord, .done 0x03#8 none] }
  | sendRefused (ho : u.seqOp = 0x03#8) (h1 : u.seqStep = 1#4) (hk : u.clk = true) (he : u.txe = false) :
      Micro u (u.refuse (.thrOverwrite u.putcByte.toWord))
  | arm (ho : u.seqOp = 0x04#8) (h7 : u.seqStep = 7#4) (hk : u.clk = true) : Micro u { u with
      pdcRxen := true, seqOp := 0x00#8, seqStep := 0#4, port := .configuredIdle,
      hist := u.hist ++ [.regW .PTCR 0x00000001#32, .done 0x04#8 none] }
  | ready (v : Word) (ho : u.seqOp = 0x05#8) (h0 : u.seqStep = 0#4) (hk : u.clk = true)
      (hr : u.rxrdy = true) : Micro u { u with
        latchT := some v, seqStep := 1#4, draws := u.draws + 1, hist := u.hist ++ [.regR .SR v] }
  | noByte (v : Word) (ho : u.seqOp = 0x05#8) (h0 : u.seqStep = 0#4) (hk : u.clk = true)
      (hr : u.rxrdy = false) : Micro u { u with
        latchT := some v, latchRes := some 0xFFFF#16, seqOp := 0x00#8, seqStep := 0#4, draws := u.draws + 1,
        hist := u.hist ++ [.regR .SR v, .done 0x05#8 (some 0xFFFF#16)] }
  | receive (ho : u.seqOp = 0x05#8) (h1 : u.seqStep = 1#4) (hk : u.clk = true) (hr : u.rxrdy = true) :
      Micro u { u with
        rxrdy := false, latchRes := some (u.rhrByte.setWidth 16), seqOp := 0x00#8, seqStep := 0#4,
        hist := u.hist ++ [.regR .RHR u.rhrByte.toWord, .done 0x05#8 (some (u.rhrByte.setWidth 16))] }
  | receiveLate (v : Word) (ho : u.seqOp = 0x05#8) (h1 : u.seqStep = 1#4) (hk : u.clk = true)
      (hr : u.rxrdy = false) : Micro u { u with
        rxrdy := false, draws := u.draws + 1, latchRes := some ((lowByte v).setWidth 16),
        seqOp := 0x00#8, seqStep := 0#4,
        hist := u.hist ++ [.regR .RHR v, .done 0x05#8 (some ((lowByte v).setWidth 16))] }

/-- Every effect a turn can have: it passes only where it has no enabled step. `u` is the state with the turn taken. -/
inductive Move (turn : Turn) (u : State) : State → Prop
  | pass (h : enabled turn u = false) : Move turn u u
  | unclocked (r : RegName) (hk : u.clk = false) (hw : UnclockedAt turn u r) :
      Move turn u (u.raiseFault (.unclockedAccess r))
  | refuseWord (cw : CmdWord) (cs : List CmdWord) (q : Refusal) (ht : turn = .fg) (hc : u.ctx = .fg)
      (ho : u.seqOp = 0x00#8) (hw : u.cmds = cw :: cs)
      (hq : (∃ op, q = .reservedOpcode op) ∨ q = .reservedOperandBits cw) :
      Move turn u { u with cmds := cs, refused := some q, hist := u.hist ++ [.refuse q] }
  | refuseVariant (cw : CmdWord) (cs : List CmdWord) (op : Opcode) (ht : turn = .fg) (hc : u.ctx = .fg)
      (ho : u.seqOp = 0x00#8) (hw : u.cmds = cw :: cs) (hv : u.cfg.variant ≠ .telemetryDriver) :
      Move turn u { u with
        cmds := cs, refused := some (.notInVariant op), hist := u.hist ++ [.refuse (.notInVariant op)] }
  | acceptNoOp (cw : CmdWord) (cs : List CmdWord) (op : Opcode) (a b : Word) (ht : turn = .fg)
      (hc : u.ctx = .fg) (ho : u.seqOp = 0x00#8) (hw : u.cmds = cw :: cs) (hv : u.cfg.variant = .noOpDriver) :
      Move turn u { u with cmds := cs, hist := u.hist ++ [.cmd op a b, .done op none] }
  | accept (cw : CmdWord) (cs : List CmdWord) (op : Opcode) (a b : Word) (ht : turn = .fg)
      (hc : u.ctx = .fg) (ho : u.seqOp = 0x00#8) (hw : u.cmds = cw :: cs)
      (hv : (op = 0x01#8 ∨ op = 0x02#8 ∨ op = 0x03#8) ∧ u.cfg.variant ≠ .noOpDriver ∨
        (op = 0x04#8 ∨ op = 0x05#8) ∧ u.cfg.variant = .telemetryDriver) :
      Move turn u { u with
        cmds := cs, seqOp := op, seqStep := 0#4, latchA := some a, latchB := some b,
        hist := u.hist ++ [.cmd op a b] }
  | micro (t : State) (ht : turn = .fg) (hc : u.ctx = .fg) (h : Micro u t) : Move turn u t
  | dispatch (ht : turn = .irq) (hc : u.ctx = .fg) (hd : u.dispatchEnabled = true) :
      Move turn u { u with ctx := .irq, istep := 0#2, hist := u.hist ++ [.dispatch] }
  | handlerRead (ht : turn = .irq) (hc : u.ctx = .irq) (h0 : u.istep = 0#2) (hk : u.clk = true)
      (hr : u.rxrdy = true) : Move turn u { u with
        rxrdy := false, latchTI := some u.rhrByte, istep := 1#2, hist := u.hist ++ [.regR .RHR u.rhrByte.toWord] }
  | handlerReadEmpty (v : Word) (ht : turn = .irq) (hc : u.ctx = .irq) (h0 : u.istep = 0#2) (hk : u.clk = true)
      (hr : u.rxrdy = false) : Move turn u { u with
        rxrdy := false, draws := u.draws + 1, latchTI := some (lowByte v), istep := 1#2,
        hist := u.hist ++ [.regR .RHR v] }
  | handlerPush (ht : turn = .irq) (hc : u.ctx = .irq) (h1 : u.istep = 1#2) (hn : u.rxbuf.length < 512) :
      Move turn u { u with
        rxbuf := u.rxbuf ++ [u.readTI], ctx := .fg, istep := 0#2, hist := u.hist ++ [.push u.readTI true, .ret] }
  | handlerDrop (ht : turn = .irq) (hc : u.ctx = .irq) (h1 : u.istep = 1#2) (hn : 512 ≤ u.rxbuf.length)
      (hp : u.cfg.overflowPolicy = .dropNewest) :
      Move turn u { u with ctx := .fg, istep := 0#2, hist := u.hist ++ [.push u.readTI false, .ret] }
  | handlerOverwrite (ht : turn = .irq) (hc : u.ctx = .irq) (h1 : u.istep = 1#2) (hn : 512 ≤ u.rxbuf.length)
      (hp : u.cfg.overflowPolicy = .overwriteOldest) : Move turn u { u with
        rxbuf := u.rxbuf.drop 1 ++ [u.readTI], ctx := .fg, istep := 0#2,
        hist := u.hist ++ [.push u.readTI true, .ret] }
  | arrive (b : Byte) (ht : turn = .rxArrive b) (hk : u.clk = true) (he : u.rxen = true)
      (hr : u.rxrdy = false) :
      Move turn u { u with rhr := some b, rxrdy := true, hist := u.hist ++ [.rxArrive b false] }
  | overrun (b : Byte) (r : Option Byte) (ht : turn = .rxArrive b) (hk : u.clk = true) (he : u.rxen = true)
      (hr : u.rxrdy = true) (hw : r = u.rhr ∨ r = some b) :
      Move turn u { u with rhr := r, draws := u.draws + 1, hist := u.hist ++ [.rxArrive b true] }
  | drain (ht : turn = .txDrain) (hk : u.clk = true) (he : u.txen = true) (hx : u.txe = false)
      (hv : u.thrValid = true) : Move turn u { u with
        lineOut := u.lineOut ++ [u.thrByte], thrValid := false, txe := true, hist := u.hist ++ [.txOut u.thrByte] }
  | drainReady (ht : turn = .txDrain) (hk : u.clk = true) (he : u.txen = true) (hx : u.txe = false)
      (hv : u.thrValid = false) :
      Move turn u { u with thrValid := false, txe := true, hist := u.hist ++ [.txReady] }
  | take (ht : turn = .pdcTake) (ha : u.cfg.pdcRxActive = true) (hk : u.clk = true) (he : u.pdcRxen = true)
      (hr : u.rxrdy = true) : Move turn u { u with
        pdcSink := u.pdcSink ++ [u.rhrByte], rxrdy := false, hist := u.hist ++ [.pdcTake u.rhrByte] }
  | pop (b : Byte) (bs : List Byte) (ht : turn = .pop) (hc : u.ctx = .fg) (ho : u.seqOp = 0x00#8)
      (hb : u.rxbuf = b :: bs) : Move turn u { u with rxbuf := bs, hist := u.hist ++ [.pop b] }
  | badAccess (we : Bool) (offset : Int) (ht : turn.harness = true) :
      Move turn u (u.refuse (.badBusAccess we offset))
  | access (t : State) (ht : turn.harness = true) (hk : u.clk = true) (h : Access u t) : Move turn u t

/-! ### The step is a move -/

/-- A free turn is never a harness's (R173). -/
theorem freeTurn_harness (n : Nat) : (freeTurn n).harness = false := by
  unfold freeTurn
  split <;> rfl

/-- Taking the next turn changes the agenda, and the count of draws where the turn is a free choice. -/
theorem nextTurn_snd (s : State) : (nextTurn s).2 =
    { s with agenda := s.agenda.tail, draws := if s.agenda = [] then s.draws + 1 else s.draws } := by
  unfold nextTurn
  split <;> simp_all

theorem nextTurn_of_agenda {s : State} {t : Turn} {rest : List Turn} (h : s.agenda = t :: rest) :
    nextTurn s = (t, { s with agenda := rest }) := by
  simp [nextTurn, h]

theorem step_eq {s : State} (hl : s.live) : step s = runTurn (nextTurn s).1
    { s with agenda := s.agenda.tail, draws := if s.agenda = [] then s.draws + 1 else s.draws } := by
  rw [← nextTurn_snd, step, stepAgent, whenLive_of_live _ hl.1 hl.2]

/-- A step with a turn on the agenda is that turn's. -/
theorem step_of_turn {s : State} {t : Turn} {rest : List Turn} (hl : s.live) (ha : s.agenda = t :: rest) :
    step s = runTurn t { s with agenda := rest } := by
  rw [step_eq hl, nextTurn_of_agenda ha]
  simp [ha]

theorem step_next {s t : State} (h : step s = .next t) :
    s.live ∧ runTurn (nextTurn s).1
      { s with agenda := s.agenda.tail, draws := if s.agenda = [] then s.draws + 1 else s.draws } = .next t := by
  rw [step, stepAgent, whenLive_eq_next, nextTurn_snd] at h
  exact h

/-- Where no harness's turn is on the agenda the next turn is none. -/
theorem nextTurn_harness {s : State} (h : s.noHarness) : (nextTurn s).1.harness = false := by
  unfold State.noHarness at h
  unfold nextTurn
  split
  · exact freeTurn_harness _
  · rename_i t rest e
    simp only [e, List.all_cons, Bool.and_eq_true, Bool.not_eq_true'] at h
    exact h.1

/-- A micro-operation's outcome: its effect, or the fault of an access without the clock. -/
def MicroOrFault (u t : State) : Prop :=
  Micro u t ∨ ∃ r, u.clk = false ∧ UnclockedAt .fg u r ∧ t = u.raiseFault (.unclockedAccess r)

theorem toNat_eq_step {x : BitVec 4} {n : Nat} (hn : n < 16) (h : x.toNat = n) : x = BitVec.ofNat 4 n := by
  apply BitVec.eq_of_toNat_eq
  rw [h, BitVec.toNat_ofNat, Nat.mod_eq_of_lt hn]

/-- Steps 1 to 6 of CONFIGURE and TPINIT, each as the operation's outcome (R110, R150). -/
theorem configurationStep_outcome {u t : State} {n : Nat} {k : State → State} (hc : u.ctx = .fg)
    (ho : u.seqOp = 0x01#8 ∨ u.seqOp = 0x04#8) (hs : u.seqStep.toNat = n) (h1 : 1 ≤ n) (h6 : n ≤ 6)
    (h : thenNext (configurationStep n u) k = .next t) :
    (u.clk = false ∧ 2 ≤ n ∧ ∃ r, UnclockedAt .fg u r ∧ t = u.raiseFault (.unclockedAccess r)) ∨
    (n = 4 ∧ u.clk = true ∧ 2 ^ u.cfg.divisorWidth ≤ u.readT.toNat ∧
      t = u.refuse (.divisorTooWide u.readT.toNat)) ∨
    ((2 ≤ n → u.clk = true) ∧ (n = 4 → u.readT.toNat < 2 ^ u.cfg.divisorWidth) ∧
      ∃ v, configurationStep n u = .ok v ∧ t = k v) := by
  have hu : ∀ r, 2 ≤ n → UnclockedAt .fg u r := fun r h2 => .inr (.inr ⟨hc, .inl ⟨ho, by omega⟩⟩)
  match n, h1, h6 with
  | 1, _, _ => simp [configurationStep] at h ⊢; exact h.symm
  | 2, _, _ =>
    cases hk : u.clk
    · simp [configurationStep, regWriteCR, clocked, hk] at h ⊢
      exact ⟨_, hu _ (by omega), h.symm⟩
    · rw [configurationStep_2 hk] at h ⊢
      simp at h ⊢; exact h.symm
  | 3, _, _ =>
    cases hk : u.clk
    · simp [configurationStep, regWriteMR, clocked, hk] at h ⊢
      exact ⟨_, hu _ (by omega), h.symm⟩
    · rw [configurationStep_3 hk] at h ⊢
      simp at h ⊢; exact h.symm
  | 4, _, _ =>
    rcases regWriteBRGR_cases u.readT u with ⟨hk, e⟩ | ⟨hk, hw, e⟩ | ⟨hk, hw, e⟩ <;>
      simp [configurationStep, e, hk] at h ⊢
    · exact ⟨_, hu _ (by omega), h.symm⟩
    · exact ⟨hw, h.symm⟩
    · exact .inr ⟨hw, h.symm⟩
  | 5, _, _ =>
    cases hk : u.clk
    · simp [configurationStep, regWritePTCR, clocked, hk] at h ⊢
      exact ⟨_, hu _ (by omega), h.symm⟩
    · rw [configurationStep_5 hk] at h ⊢
      simp at h ⊢; exact h.symm
  | 6, _, _ =>
    cases hk : u.clk
    · simp [configurationStep, regWriteCR, clocked, hk] at h ⊢
      exact ⟨_, hu _ (by omega), h.symm⟩
    · rw [configurationStep_6 hk] at h ⊢
      simp at h ⊢; exact h.symm

/-- Steps 1 to 5 of CONFIGURE and of TPINIT are the same micro-operations. -/
theorem sharedStep_micro {u t : State} {n : Nat} (hc : u.ctx = .fg)
    (ho : u.seqOp = 0x01#8 ∨ u.seqOp = 0x04#8) (hs : u.seqStep.toNat = n) (h1 : 1 ≤ n) (h5 : n ≤ 5)
    (h : thenNext (configurationStep n u) State.advance = .next t) : MicroOrFault u t := by
  have he := toNat_eq_step (by omega) hs
  rcases configurationStep_outcome hc ho hs h1 (by omega) h with
    ⟨hk, -, r, hr, rfl⟩ | ⟨rfl, hk, hd, rfl⟩ | ⟨hk, hd, v, e, rfl⟩
  · exact .inr ⟨r, hk, hr, rfl⟩
  · exact .inl (.divisorRefused ho he hk hd)
  · refine .inl ?_
    match n, h1, h5 with
    | 1, _, _ =>
      rw [configurationStep_1] at e; obtain rfl := Except.ok.inj e
      have := Micro.clockOn ho he
      simpa [State.advance, clkEn, State.emit, he] using this
    | 2, _, _ =>
      have hk := hk (by omega)
      rw [configurationStep_2 hk] at e; obtain rfl := Except.ok.inj e
      have := Micro.resetDisable ho he hk
      simpa [State.advance, State.emit, he] using this
    | 3, _, _ =>
      have hk := hk (by omega)
      rw [configurationStep_3 hk] at e; obtain rfl := Except.ok.inj e
      have := Micro.mode ho he hk
      simpa [State.advance, State.emit, he] using this
    | 4, _, _ =>
      have hk := hk (by omega)
      have hd := hd rfl
      rcases regWriteBRGR_cases u.readT u with ⟨hk', -⟩ | ⟨-, hw, -⟩ | ⟨-, -, e'⟩
      · simp [hk] at hk'
      · omega
      · rw [configurationStep, e'] at e; obtain rfl := Except.ok.inj e
        have := Micro.divisorStored ho he hk hd
        simpa [State.advance, State.emit, he] using this
    | 5, _, _ =>
      have hk := hk (by omega)
      rw [configurationStep_5 hk] at e; obtain rfl := Except.ok.inj e
      have := Micro.transfersOff ho he hk
      simpa [State.advance, State.emit, he] using this

theorem ofNat_divisor_admitted {c : Config} {b m : Word} {q : Refusal} (h : admission c b m = .error q) :
    q = .zeroBaudrate ∨ q = .zeroMasterClock ∨ ∃ d, q = .divisorTooWide d := by
  rcases admission_cases c b m with ⟨-, e⟩ | ⟨-, -, e⟩ | ⟨-, -, -, e⟩ | ⟨-, -, -, e⟩ <;> rw [e] at h
  · exact .inl (Except.error.inj h).symm
  · exact .inr (.inl (Except.error.inj h).symm)
  · exact .inr (.inr ⟨_, (Except.error.inj h).symm⟩)
  · cases h

theorem admission_ok {c : Config} {b m d : Word} (h : admission c b m = .ok d) :
    divisor b m < 2 ^ c.divisorWidth ∧ d = BitVec.ofNat 32 (divisor b m) := by
  rcases admission_cases c b m with ⟨-, e⟩ | ⟨-, -, e⟩ | ⟨-, -, -, e⟩ | ⟨-, -, hd, e⟩ <;> rw [e] at h
  · cases h
  · cases h
  · cases h
  · exact ⟨hd, (Except.ok.inj h).symm⟩

theorem configureMicro_micro {u t : State} (hc : u.ctx = .fg) (ho : u.seqOp = 0x01#8)
    (h : configureMicro u = .next t) : MicroOrFault u t := by
  unfold configureMicro at h
  split at h
  · rename_i hs
    have h0 : u.seqStep = 0#4 := toNat_eq_step (by omega) hs
    unfold configureAdmit at h
    split at h
    · rename_i q e
      obtain rfl := Host.Outcome.next.inj h
      exact .inl (.configureRefuse q ho h0 (ofNat_divisor_admitted e))
    · rename_i d e
      obtain ⟨hd, rfl⟩ := admission_ok e
      obtain rfl := Host.Outcome.next.inj h
      have := Micro.configureAdmit ho h0 hd
      exact .inl (by simpa [State.advance, pinCfg, State.emit, h0] using this)
  · exact sharedStep_micro hc (.inl ho) ‹_› (by omega) (by omega) h
  · exact sharedStep_micro hc (.inl ho) ‹_› (by omega) (by omega) h
  · exact sharedStep_micro hc (.inl ho) ‹_› (by omega) (by omega) h
  · exact sharedStep_micro hc (.inl ho) ‹_› (by omega) (by omega) h
  · exact sharedStep_micro hc (.inl ho) ‹_› (by omega) (by omega) h
  · rename_i hs
    have h6 := toNat_eq_step (by omega) hs
    rcases configurationStep_outcome hc (.inl ho) hs (by omega) (by omega) h with
      ⟨hk, -, r, hr, rfl⟩ | ⟨hn, -⟩ | ⟨hk, -, v, e, rfl⟩
    · exact .inr ⟨r, hk, hr, rfl⟩
    · omega
    · have hk := hk (by omega)
      rw [configurationStep_6 hk] at e; obtain rfl := Except.ok.inj e
      refine .inl ?_
      by_cases hv : u.cfg.variant = .interruptDriver
      · have := Micro.enable (.inl ⟨ho, hv⟩) h6 hk
        simpa [Config.debug, hv, State.advance, State.emit, h6] using this
      · have := Micro.enableDone ho hv h6 hk
        simpa [Config.debug, hv, configureDone, State.complete, State.setPort, State.emit, Opcode.configure]
          using this
  · rename_i hs
    have h7 := toNat_eq_step (by omega) hs
    split at h
    · rename_i hv
      have hv : u.cfg.variant = .interruptDriver := by simpa [Config.debug] using hv
      rcases regWriteIER_cases intRxrdy u with ⟨hk, e⟩ | ⟨hk, e⟩ <;> rw [e] at h <;>
        obtain rfl := Host.Outcome.next.inj h
      · exact .inr ⟨_, hk, .inr (.inr ⟨hc, .inl ⟨.inl ho, by omega⟩⟩), rfl⟩
      · have := Micro.unmask ho hv h7 hk
        exact .inl (by
          simpa [State.advance, State.emit, h7, intRxrdy_eq, field, bitIntRXRDY] using this)
    · simp [noStep] at h
  · rename_i hs
    have h8 := toNat_eq_step (by omega) hs
    split at h
    · rename_i hv
      have hv' : u.cfg.variant = .interruptDriver := by simpa [Config.debug] using hv
      obtain rfl := Host.Outcome.next.inj h
      have := Micro.lineOn ho hv' h8
      exact .inl (by
        simpa [configureDone, State.complete, lineEnable, State.setPort, State.emit, hv, Opcode.configure]
          using this)
    · simp [noStep] at h
  · simp [noStep] at h

theorem stopMicro_micro {u t : State} (hc : u.ctx = .fg) (ho : u.seqOp = 0x02#8)
    (h : stopMicro u = .next t) : MicroOrFault u t := by
  unfold stopMicro at h
  split at h
  · rename_i hs
    have h0 : u.seqStep = 0#4 := toNat_eq_step (by omega) hs
    rcases regWriteIDR_cases intRxrdy u with ⟨hk, e⟩ | ⟨hk, e⟩ <;> rw [e] at h <;>
      obtain rfl := Host.Outcome.next.inj h
    · exact .inr ⟨_, hk, .inr (.inr ⟨hc, .inr (.inl ⟨ho, h0, rfl⟩)⟩), rfl⟩
    · have := Micro.mask ho h0 hk
      exact .inl (by
        simpa [State.advance, State.emit, h0, intRxrdy_eq, field, bitIntRXRDY] using this)
  · rename_i hs
    have h1 := toNat_eq_step (by omega) hs
    obtain rfl := Host.Outcome.next.inj h
    have := Micro.lineOff ho h1
    exact .inl (by
      simpa [lineDisable, State.complete, State.setPort, State.emit, Opcode.stop] using this)
  · simp [noStep] at h

theorem putcMicro_micro {u t : State} (hc : u.ctx = .fg) (ho : u.seqOp = 0x03#8)
    (h : putcMicro u = .next t) : MicroOrFault u t := by
  unfold putcMicro at h
  split at h
  · rename_i hs
    have h0 : u.seqStep = 0#4 := toNat_eq_step (by omega) hs
    rcases regReadSR_cases u with ⟨hk, e⟩ | ⟨hk, v, -, hv, e⟩ <;> rw [e] at h <;>
      obtain rfl := Host.Outcome.next.inj h
    · exact .inr ⟨_, hk, .inr (.inr ⟨hc, .inr (.inr (.inl ⟨ho, .inl ⟨h0, rfl⟩⟩))⟩), rfl⟩
    · have := Micro.poll v ho h0 hk
      exact .inl (by simpa [putcPolled, State.atStep, State.drawn, State.emit, hv] using this)
  · rename_i hs
    have h1 := toNat_eq_step (by omega) hs
    rcases regWriteTHR_cases u.putcByte.toWord u with ⟨hk, e⟩ | ⟨hk, he, e⟩ | ⟨hk, he, e⟩ <;> rw [e] at h <;>
      obtain rfl := Host.Outcome.next.inj h
    · exact .inr ⟨_, hk, .inr (.inr ⟨hc, .inr (.inr (.inl ⟨ho, .inr ⟨h1, rfl⟩⟩))⟩), rfl⟩
    · exact .inl (.sendRefused ho h1 hk he)
    · have := Micro.send ho h1 hk he
      exact .inl (by
        simpa [State.holdByte, State.complete, State.emit, Opcode.putc, lowByte_toWord] using this)
  · simp [noStep] at h

theorem tpinitMicro_micro {u t : State} (hc : u.ctx = .fg) (ho : u.seqOp = 0x04#8)
    (h : tpinitMicro u = .next t) : MicroOrFault u t := by
  unfold tpinitMicro at h
  split at h
  · rename_i hs
    have h0 : u.seqStep = 0#4 := toNat_eq_step (by omega) hs
    unfold tpinitAdmit at h
    split at h
    · obtain rfl := Host.Outcome.next.inj h
      exact .inl (.tpinitRefuse _ ho h0 (.inl ⟨_, rfl⟩))
    · split at h
      · rename_i q e
        obtain rfl := Host.Outcome.next.inj h
        exact .inl (.tpinitRefuse q ho h0 (.inr (ofNat_divisor_admitted e)))
      · rename_i d e
        obtain ⟨hd, rfl⟩ := admission_ok e
        obtain rfl := Host.Outcome.next.inj h
        have := Micro.tpinitAdmit _ ho h0 hd
        exact .inl (by simpa [State.advance, pinCfg, State.emit, h0] using this)
  · exact sharedStep_micro hc (.inr ho) ‹_› (by omega) (by omega) h
  · exact sharedStep_micro hc (.inr ho) ‹_› (by omega) (by omega) h
  · exact sharedStep_micro hc (.inr ho) ‹_› (by omega) (by omega) h
  · exact sharedStep_micro hc (.inr ho) ‹_› (by omega) (by omega) h
  · exact sharedStep_micro hc (.inr ho) ‹_› (by omega) (by omega) h
  · rename_i hs
    have h6 := toNat_eq_step (by omega) hs
    rcases configurationStep_outcome hc (.inr ho) hs (by omega) (by omega) h with
      ⟨hk, -, r, hr, rfl⟩ | ⟨hn, -⟩ | ⟨hk, -, v, e, rfl⟩
    · exact .inr ⟨r, hk, hr, rfl⟩
    · omega
    · have hk := hk (by omega)
      rw [configurationStep_6 hk] at e; obtain rfl := Except.ok.inj e
      have := Micro.enable (.inr ho) h6 hk
      exact .inl (by simpa [State.advance, State.emit, h6] using this)
  · rename_i hs
    have h7 := toNat_eq_step (by omega) hs
    cases hk : u.clk
    · simp only [regWritePTCR, clocked_of_not_clk _ _ hk] at h
      obtain rfl := Host.Outcome.next.inj h
      exact .inr ⟨_, hk, .inr (.inr ⟨hc, .inl ⟨.inr ho, by omega⟩⟩), rfl⟩
    · rw [regWritePTCR_armRx hk] at h
      obtain rfl := Host.Outcome.next.inj h
      have := Micro.arm ho h7 hk
      exact .inl (by
        simpa [tpinitDone, State.complete, State.setPort, State.emit, Opcode.tpinit, ptcrArmRx_eq] using this)
  · simp [noStep] at h

theorem tprecvMicro_micro {u t : State} (hc : u.ctx = .fg) (ho : u.seqOp = 0x05#8)
    (h : tprecvMicro u = .next t) : MicroOrFault u t := by
  unfold tprecvMicro at h
  split at h
  · rename_i hs
    have h0 : u.seqStep = 0#4 := toNat_eq_step (by omega) hs
    rcases regReadSR_cases u with ⟨hk, e⟩ | ⟨hk, v, hv, -, e⟩ <;> rw [e] at h <;>
      obtain rfl := Host.Outcome.next.inj h
    · exact .inr ⟨_, hk, .inr (.inr ⟨hc, .inr (.inr (.inr ⟨ho, .inl ⟨h0, rfl⟩⟩))⟩), rfl⟩
    · refine .inl ?_
      cases hr : u.rxrdy
      · have := Micro.noByte v ho h0 hk hr
        simpa [tprecvPolled, hv, hr, tprecvDone, noData, State.complete, State.drawn, State.emit, Opcode.tprecv]
          using this
      · have := Micro.ready v ho h0 hk hr
        simpa [tprecvPolled, hv, hr, State.atStep, State.drawn, State.emit] using this
  · rename_i hs
    have h1 := toNat_eq_step (by omega) hs
    rcases regReadRHR_cases u with ⟨hk, e⟩ | ⟨hk, hr, e⟩ | ⟨hk, hr, v, e⟩ <;> rw [e] at h <;>
      obtain rfl := Host.Outcome.next.inj h
    · exact .inr ⟨_, hk, .inr (.inr ⟨hc, .inr (.inr (.inr ⟨ho, .inr ⟨h1, rfl⟩⟩))⟩), rfl⟩
    · have := Micro.receive ho h1 hk hr
      exact .inl (by
        simpa [tprecvDone, resultOfByte, State.complete, State.clearRxrdy, State.emit, Opcode.tprecv,
          lowByte_toWord] using this)
    · have := Micro.receiveLate v ho h1 hk hr
      exact .inl (by
        simpa [tprecvDone, resultOfByte, State.complete, State.clearRxrdy, State.drawn, State.emit,
          Opcode.tprecv] using this)
  · simp [noStep] at h

/-! ### From turns to moves -/

/-- Any one register access that goes on: its effect, or the fault of R80. -/
theorem exec_access {i : Instr} {r : RegName} {u t : State} (hi : accessedRegister i = some r)
    (h : exec i u = .next t) :
    u.live ∧ ((u.clk = false ∧ t = u.raiseFault (.unclockedAccess r)) ∨ (u.clk = true ∧ Access u t)) := by
  cases i <;> simp only [accessedRegister, reduceCtorEq, Option.some.injEq] at hi <;> subst hi <;>
    simp only [exec, execRegWriteCR, execRegWriteMR, execRegReadMR, execRegWriteIER, execRegWriteIDR,
      execRegReadSR, execRegReadRHR, execRegWriteTHR, execRegWriteBRGR, execRegWritePTCR, whenLive_eq_next,
      writeStep, readStep] at h <;> obtain ⟨hl, h⟩ := h <;> refine ⟨hl, ?_⟩
  case regWriteCR v =>
    rcases regWriteCR_cases v u with ⟨hk, e⟩ | ⟨hk, hb, e⟩ | ⟨hk, hb, e⟩ <;> rw [e] at h <;>
      obtain rfl := Host.Outcome.next.inj h
    · exact .inl ⟨hk, rfl⟩
    · exact .inr ⟨hk, .badCR v hb⟩
    · exact .inr ⟨hk, .writeCR v hb⟩
  case regWriteMR v =>
    rcases regWriteMR_cases v u with ⟨hk, e⟩ | ⟨hk, -, hb, e⟩ | ⟨hk, hb, e⟩ <;> rw [e] at h <;>
      obtain rfl := Host.Outcome.next.inj h
    · exact .inl ⟨hk, rfl⟩
    · exact .inr ⟨hk, .badMR v hb⟩
    · exact .inr ⟨hk, .writeMR v hb⟩
  case regReadMR =>
    rcases regReadMR_cases u with ⟨hk, e⟩ | ⟨hk, hb, v, e⟩ | ⟨hk, v, hb, e⟩ <;> rw [e] at h <;>
      obtain rfl := Host.Outcome.next.inj h
    · exact .inl ⟨hk, rfl⟩
    · exact .inr ⟨hk, .readMRUnwritten v hb⟩
    · exact .inr ⟨hk, .readMR v hb⟩
  case regWriteIER m =>
    rcases regWriteIER_cases m u with ⟨hk, e⟩ | ⟨hk, e⟩ <;> rw [e] at h <;>
      obtain rfl := Host.Outcome.next.inj h
    · exact .inl ⟨hk, rfl⟩
    · exact .inr ⟨hk, .writeIER m⟩
  case regWriteIDR m =>
    rcases regWriteIDR_cases m u with ⟨hk, e⟩ | ⟨hk, e⟩ <;> rw [e] at h <;>
      obtain rfl := Host.Outcome.next.inj h
    · exact .inl ⟨hk, rfl⟩
    · exact .inr ⟨hk, .writeIDR m⟩
  case regReadSR =>
    rcases regReadSR_cases u with ⟨hk, e⟩ | ⟨hk, v, h1, h2, e⟩ <;> rw [e] at h <;>
      obtain rfl := Host.Outcome.next.inj h
    · exact .inl ⟨hk, rfl⟩
    · exact .inr ⟨hk, .readSR v h1 h2⟩
  case regReadRHR =>
    rcases regReadRHR_cases u with ⟨hk, e⟩ | ⟨hk, hr, e⟩ | ⟨hk, hr, v, e⟩ <;> rw [e] at h <;>
      obtain rfl := Host.Outcome.next.inj h
    · exact .inl ⟨hk, rfl⟩
    · exact .inr ⟨hk, .readRHR hr⟩
    · exact .inr ⟨hk, .readRHREmpty v hr⟩
  case regWriteTHR c =>
    rcases regWriteTHR_cases c u with ⟨hk, e⟩ | ⟨hk, he, e⟩ | ⟨hk, he, e⟩ <;> rw [e] at h <;>
      obtain rfl := Host.Outcome.next.inj h
    · exact .inl ⟨hk, rfl⟩
    · exact .inr ⟨hk, .badTHR c he⟩
    · exact .inr ⟨hk, .writeTHR c he⟩
  case regWriteBRGR d =>
    rcases regWriteBRGR_cases d u with ⟨hk, e⟩ | ⟨hk, hb, e⟩ | ⟨hk, hb, e⟩ <;> rw [e] at h <;>
      obtain rfl := Host.Outcome.next.inj h
    · exact .inl ⟨hk, rfl⟩
    · exact .inr ⟨hk, .badBRGR d hb⟩
    · exact .inr ⟨hk, .writeBRGR d hb⟩
  case regWritePTCR v =>
    rcases regWritePTCR_cases v u with ⟨hk, e⟩ | ⟨hk, hb, e⟩ | ⟨hk, hb, e⟩ <;> rw [e] at h <;>
      obtain rfl := Host.Outcome.next.inj h
    · exact .inl ⟨hk, rfl⟩
    · exact .inr ⟨hk, .badPTCR v hb⟩
    · exact .inr ⟨hk, .writePTCR v hb⟩

/-- What a header decodes to is a register access, never a command. -/
theorem decodeBus_accessed {h : Header} {d : Word} {i : Instr} (hd : decodeBus h d = .ok i) :
    ∃ r, accessedRegister i = some r := by
  unfold decodeBus at hd
  repeat' split at hd
  all_goals first
    | cases hd; exact ⟨_, rfl⟩
    | cases hd

/-- What a command word decodes to is a command, never a register access. -/
theorem decodeCmd_command {cw : CmdWord} {i : Instr} (hd : decodeCmd cw = .ok i) : accessedRegister i = none := by
  unfold decodeCmd at hd
  dsimp only at hd
  repeat' split at hd
  all_goals first
    | cases hd; rfl
    | cases hd

theorem busTurn_move {turn : Turn} {u t : State} {h : Header} {n : Nat} {d : Word}
    (ht : turn.harness = true) (hs : busTurn h n d u = .next t) : Move turn u t := by
  unfold busTurn at hs
  split at hs
  · split at hs
    · rename_i i hd
      obtain ⟨r, hr⟩ := decodeBus_accessed hd
      rcases (exec_access hr hs).2 with ⟨hk, rfl⟩ | ⟨hk, ha⟩
      · exact .unclocked r hk (.inl ht)
      · exact .access t ht hk ha
    · rename_i e he
      obtain rfl := Host.Outcome.next.inj hs
      have : ∃ we o, e = .badBusAccess we o := by
        simp only [decode, decodeBus] at he
        repeat' split at he
        all_goals first
          | cases he; exact ⟨_, _, rfl⟩
          | cases he
      obtain ⟨we, o, rfl⟩ := this
      exact .badAccess we _ ht
  · obtain rfl := Host.Outcome.next.inj hs
    exact .badAccess _ _ ht

theorem memTurn_move {turn : Turn} {u t : State} {we : Bool} {a n : Nat} {d : Word}
    (ht : turn.harness = true) (hs : memTurn we a n d u = .next t) : Move turn u t := by
  unfold memTurn at hs
  split at hs
  · exact busTurn_move ht hs
  · obtain rfl := Host.Outcome.next.inj hs
    exact .badAccess _ _ ht

theorem move_of_microOrFault {u t : State} (hc : u.ctx = .fg) (h : MicroOrFault u t) : Move .fg u t := by
  rcases h with h | ⟨r, hk, hu, rfl⟩
  · exact .micro t rfl hc h
  · exact .unclocked r hk hu

theorem runCommand_move {op : Opcode} {acc : State → State} {micro : State → StepResult} {u t : State}
    (hc : u.ctx = .fg) (ho : u.seqOp = op) (hn : op ≠ 0x00#8)
    (hm : micro u = .next t → MicroOrFault u t) (h : runCommand op acc micro u = .next t) : Move .fg u t := by
  simp only [runCommand, whenLive_eq_next, hc] at h
  rw [if_neg (ho ▸ hn), if_pos ho] at h
  exact move_of_microOrFault hc (hm h.2)

/-- At an idle sequencer in the foreground a command is accepted, and its acceptance is the whole step. -/
theorem runCommand_idle {op : Opcode} {acc : State → State} {micro : State → StepResult} {u t : State}
    (hc : u.ctx = .fg) (ho : u.seqOp = 0x00#8) (h : runCommand op acc micro u = .next t) : acc u = t := by
  simp only [runCommand, whenLive_eq_next, hc] at h
  rw [if_pos ho] at h
  exact Host.Outcome.next.inj h.2

theorem acceptCore_cases (op : Opcode) (a b : Word) (u : State) :
    (u.cfg.variant = .noOpDriver ∧
      acceptCore op a b u = { u with hist := u.hist ++ [.cmd op a b, .done op none] }) ∨
    (u.cfg.variant ≠ .noOpDriver ∧ acceptCore op a b u = u.load op a b) := by
  by_cases h : u.cfg.variant = .noOpDriver <;> simp [acceptCore, Config.simu, h, State.emit]

theorem acceptTelemetry_cases (op : Opcode) (a b : Word) (u : State) :
    (u.cfg.variant = .telemetryDriver ∧ acceptTelemetry op a b u = u.load op a b) ∨
    (u.cfg.variant ≠ .telemetryDriver ∧ acceptTelemetry op a b u = u.refuse (.notInVariant op)) := by
  by_cases h : u.cfg.variant = .telemetryDriver <;> simp [acceptTelemetry, Config.telem, h]

theorem acceptCore_move {u : State} {cw : CmdWord} {cs : List CmdWord} (hc : u.ctx = .fg)
    (ho : u.seqOp = 0x00#8) (hw : u.cmds = cw :: cs) (op : Opcode) (a b : Word)
    (hop : op = 0x01#8 ∨ op = 0x02#8 ∨ op = 0x03#8) : Move .fg u (acceptCore op a b { u with cmds := cs }) := by
  rcases acceptCore_cases op a b { u with cmds := cs } with ⟨hv, e⟩ | ⟨hv, e⟩ <;> rw [e]
  · exact .acceptNoOp cw cs op a b rfl hc ho hw hv
  · exact .accept cw cs op a b rfl hc ho hw (.inl ⟨hop, hv⟩)

theorem acceptTelemetry_move {u : State} {cw : CmdWord} {cs : List CmdWord} (hc : u.ctx = .fg)
    (ho : u.seqOp = 0x00#8) (hw : u.cmds = cw :: cs) (op : Opcode) (a b : Word)
    (hop : op = 0x04#8 ∨ op = 0x05#8) : Move .fg u (acceptTelemetry op a b { u with cmds := cs }) := by
  rcases acceptTelemetry_cases op a b { u with cmds := cs } with ⟨hv, e⟩ | ⟨hv, e⟩ <;> rw [e]
  · exact .accept cw cs op a b rfl hc ho hw (.inr ⟨hop, hv⟩)
  · exact .refuseVariant cw cs op rfl hc ho hw hv

/-- A busy sequencer with no command in progress holds an opcode above those of the commands. -/
theorem noCommand_above {u : State} (h : commandInProgress u = none) (ho : ¬ u.seqOp = 0x00#8) :
    5 < u.seqOp.toNat := by
  unfold commandInProgress at h
  repeat' split at h
  all_goals try cases h
  have hne : ∀ op : Opcode, ¬ u.seqOp = op → u.seqOp.toNat ≠ op.toNat := fun op h e => h (BitVec.eq_of_toNat_eq e)
  rename_i h1 h2 h3 h4 h5
  have e0 : u.seqOp.toNat ≠ 0 := hne _ ho
  have e1 : u.seqOp.toNat ≠ 1 := hne _ h1
  have e2 : u.seqOp.toNat ≠ 2 := hne _ h2
  have e3 : u.seqOp.toNat ≠ 3 := hne _ h3
  have e4 : u.seqOp.toNat ≠ 4 := hne _ h4
  have e5 : u.seqOp.toNat ≠ 5 := hne _ h5
  omega

theorem fgTurn_move {u t : State} (h : fgTurn u = .next t) : Move .fg u t := by
  unfold fgTurn at h
  split at h
  · rename_i hc
    obtain rfl := Host.Outcome.next.inj h
    exact .pass (by simp [enabled, hc])
  · rename_i hc
    split at h
    · rename_i ho
      split at h
      · rename_i hw
        obtain rfl := Host.Outcome.next.inj h
        exact .pass (by simp [enabled, ho, hw])
      · rename_i cw cs hw
        unfold presentWord at h
        split at h
        · rename_i i hd
          have hi := decodeCmd_command hd
          cases i <;> simp only [accessedRegister, reduceCtorEq] at hi
          case configure b m =>
            obtain rfl := runCommand_idle (u := { u with cmds := cs }) hc ho h
            exact acceptCore_move hc ho hw _ _ _ (.inl rfl)
          case stop =>
            obtain rfl := runCommand_idle (u := { u with cmds := cs }) hc ho h
            exact acceptCore_move hc ho hw _ _ _ (.inr (.inl rfl))
          case putc c =>
            obtain rfl := runCommand_idle (u := { u with cmds := cs }) hc ho h
            exact acceptCore_move hc ho hw _ _ _ (.inr (.inr rfl))
          case tpinit p =>
            obtain rfl := runCommand_idle (u := { u with cmds := cs }) hc ho h
            exact acceptTelemetry_move hc ho hw _ _ _ (.inl rfl)
          case tprecv =>
            obtain rfl := runCommand_idle (u := { u with cmds := cs }) hc ho h
            exact acceptTelemetry_move hc ho hw _ _ _ (.inr rfl)
          case rxisr =>
            simp only [exec, execRxisr, whenLive_eq_next] at h
            obtain ⟨-, h⟩ := h
            rw [hc] at h
            obtain rfl := Host.Outcome.next.inj h
            rw [← hc]
            exact .refuseWord cw cs _ rfl hc ho hw (.inl ⟨_, rfl⟩)
        · rename_i e he
          obtain rfl := Host.Outcome.next.inj h
          refine .refuseWord cw cs _ rfl hc ho hw ?_
          simp only [decode, decodeCmd] at he
          repeat' split at he
          all_goals first
            | cases he; exact .inr rfl
            | cases he; exact .inl ⟨_, rfl⟩
            | cases he
    · split at h
      · rename_i i hi
        unfold commandInProgress at hi
        split at hi
        · rename_i ho; cases hi
          exact runCommand_move hc ho (by decide) (configureMicro_micro hc ho) h
        · split at hi
          · rename_i ho; cases hi
            exact runCommand_move hc ho (by decide) (stopMicro_micro hc ho) h
          · split at hi
            · rename_i ho; cases hi
              exact runCommand_move hc ho (by decide) (putcMicro_micro hc ho) h
            · split at hi
              · rename_i ho; cases hi
                exact runCommand_move hc ho (by decide) (tpinitMicro_micro hc ho) h
              · split at hi
                · rename_i ho; cases hi
                  exact runCommand_move hc ho (by decide) (tprecvMicro_micro hc ho) h
                · cases hi
      · rename_i ho _ hi
        obtain rfl := Host.Outcome.next.inj h
        exact .pass (by simp [enabled, ho, noCommand_above hi ho])

theorem rxisrMicro_move {u t : State} (hc : u.ctx = .irq) (h : rxisrMicro u = .next t) : Move .irq u t := by
  unfold rxisrMicro at h
  split at h
  · rename_i hs
    have h0 : u.istep = 0#2 := BitVec.eq_of_toNat_eq hs
    rcases regReadRHR_cases u with ⟨hk, e⟩ | ⟨hk, hr, e⟩ | ⟨hk, hr, v, e⟩ <;> rw [e] at h <;>
      obtain rfl := Host.Outcome.next.inj h
    · exact .unclocked _ hk (.inr (.inl ⟨hc, h0, rfl⟩))
    · have := Move.handlerRead (turn := .irq) rfl hc h0 hk hr
      simpa [rxisrLatched, State.clearRxrdy, State.emit] using this
    · exact .handlerReadEmpty v rfl hc h0 hk hr
  · rename_i hs
    have h1 : u.istep = 1#2 := BitVec.eq_of_toNat_eq hs
    obtain rfl := Host.Outcome.next.inj h
    rcases bufPush_cases u.readTI u with ⟨hn, e⟩ | ⟨hn, hp, e⟩ | ⟨hn, hp, e⟩ <;> rw [e]
    · have := Move.handlerPush (turn := .irq) rfl hc h1 hn
      simpa [returnFromInterrupt, State.emit] using this
    · have := Move.handlerDrop (turn := .irq) rfl hc h1 hn hp
      simpa [returnFromInterrupt, State.emit] using this
    · have := Move.handlerOverwrite (turn := .irq) rfl hc h1 hn hp
      simpa [returnFromInterrupt, State.emit] using this
  · cases h

theorem irqTurn_move {u t : State} (h : irqTurn u = .next t) : Move .irq u t := by
  unfold irqTurn at h
  split at h
  · rename_i hc
    simp only [exec, execRxisr, whenLive_eq_next, hc] at h
    exact rxisrMicro_move hc h.2
  · rename_i hc
    split at h <;> obtain rfl := Host.Outcome.next.inj h
    · exact .dispatch rfl hc ‹_›
    · rename_i hd
      exact .pass (by simp [enabled, hc, hd])

theorem rxArrive_move (b : Byte) (u : State) : Move (.rxArrive b) u (rxArrive b u) := by
  unfold rxArrive
  split
  · rename_i h
    simp only [Bool.and_eq_true] at h
    split
    · rename_i hr
      refine .overrun b _ rfl h.1 h.2 hr ?_
      split <;> simp
    · rename_i hr
      exact .arrive b rfl h.1 h.2 (by simpa using hr)
  · rename_i h
    exact .pass (by simpa [enabled] using h)

theorem txDrain_move (u : State) : Move .txDrain u (txDrain u) := by
  unfold txDrain
  split
  · rename_i h
    simp only [Bool.and_eq_true, Bool.not_eq_true'] at h
    split
    · exact .drain rfl h.1.1 h.1.2 h.2 ‹_›
    · rename_i hv
      exact .drainReady rfl h.1.1 h.1.2 h.2 (by simpa using hv)
  · rename_i h
    exact .pass (by simpa [enabled] using h)

theorem pdcTake_move (u : State) : Move .pdcTake u (pdcTake u) := by
  unfold pdcTake
  split
  · rename_i h
    simp only [Bool.and_eq_true] at h
    exact .take rfl h.1.1.1 h.1.1.2 h.1.2 h.2
  · rename_i h
    exact .pass (by simpa [enabled] using h)

theorem pop_move (u : State) : Move .pop u (pop u) := by
  unfold pop
  split
  · rename_i h
    split
    · rename_i hb
      exact .pass (by simp [enabled, hb])
    · exact .pop _ _ rfl h.1 h.2 ‹_›
  · rename_i h
    exact .pass (by simp only [enabled]; grind)

theorem runTurn_move {turn : Turn} {u t : State} (h : runTurn turn u = .next t) : Move turn u t := by
  cases turn with
  | fg => exact fgTurn_move h
  | irq => exact irqTurn_move h
  | rxArrive b => obtain rfl := Host.Outcome.next.inj h; exact rxArrive_move b u
  | txDrain => obtain rfl := Host.Outcome.next.inj h; exact txDrain_move u
  | pdcTake => obtain rfl := Host.Outcome.next.inj h; exact pdcTake_move u
  | pop => obtain rfl := Host.Outcome.next.inj h; exact pop_move u
  | bus header size data => exact busTurn_move rfl h
  | mem we addr size data => exact memTurn_move rfl h

/-- A step that goes on is one of the moves, made from the state with its turn taken. -/
theorem step_moves {s t : State} (h : step s = .next t) :
    s.live ∧ Move (nextTurn s).1
      { s with agenda := s.agenda.tail, draws := if s.agenda = [] then s.draws + 1 else s.draws } t := by
  obtain ⟨hl, h⟩ := step_next h
  exact ⟨hl, runTurn_move h⟩

end Sys2Proof.Machine
end

