-- ==== Sys2Proof/Laws/WellFormed.lean ====
section
/-! SUPPORT. What it is for a configuration to be well formed, said once in the words of R5 and R44. -/

namespace Sys2Proof

/-- A mask has two bits exactly where it names two pins and no other. -/
theorem popCount_eq_two_iff (m : Word) : popCount m = 2 ↔
    ∃ i j : Fin 32, i ≠ j ∧ ∀ k : Fin 32, m.getLsbD k = true ↔ k = i ∨ k = j := by
  have hn : ((List.range 32).filter fun i => m.getLsbD i).Nodup := List.nodup_range.filter _
  have hm : ∀ k, k ∈ (List.range 32).filter (fun i => m.getLsbD i) ↔ k < 32 ∧ m.getLsbD k = true := by
    simp
  unfold popCount
  generalize (List.range 32).filter (fun i => m.getLsbD i) = l at hn hm
  constructor
  · intro h
    obtain ⟨a, b, rfl⟩ := List.length_eq_two.mp h
    have ha := (hm a).mp (by simp)
    have hb := (hm b).mp (by simp)
    refine ⟨⟨a, ha.1⟩, ⟨b, hb.1⟩, fun h => ?_, fun k => ?_⟩
    · simp [Fin.mk.inj h] at hn
    · have := hm k
      simp only [List.mem_cons, List.not_mem_nil, or_false, k.isLt, true_and] at this
      rw [← this, Fin.ext_iff, Fin.ext_iff]
  · rintro ⟨i, j, hij, h⟩
    have hp : l.Perm [i.val, j.val] := by
      refine (List.perm_ext_iff_of_nodup hn ?_).mpr fun k => ?_
      · simpa [Fin.ext_iff] using hij
      · rw [hm]
        constructor
        · rintro ⟨hk, hb⟩
          simpa [Fin.ext_iff] using (h ⟨k, hk⟩).mp hb
        · intro hk
          have hk' : k = i.val ∨ k = j.val := by simpa using hk
          rcases hk' with rfl | rfl
          · exact ⟨i.isLt, (h i).mpr (.inl rfl)⟩
          · exact ⟨j.isLt, (h j).mpr (.inr rfl)⟩
    simpa using hp.length_eq

theorem baudOk_iff (c : Config) : c.baudOk = true ↔ ∀ p, c.telemetryBaud.lookup p ≠ some 0#32 := by
  simp only [Config.baudOk, List.all_eq_true, bne_iff_ne]
  refine ⟨fun h p hp => ?_, fun h e _ => h e.1⟩
  obtain ⟨l₁, l₂, hl, -⟩ := List.lookup_eq_some_iff.mp hp
  exact h (p, 0#32) (by simp [hl]) hp

/-- A configuration is well formed exactly under the conditions of R5 and R44. -/
theorem Config.wf_iff (c : Config) : c.wf = true ↔
    (∃ i j : Fin 32, i ≠ j ∧ ∀ k : Fin 32, c.pinMask.getLsbD k = true ↔ k = i ∨ k = j) ∧
    (c.variant = .telemetryDriver → c.masterClock ≠ 0#32) ∧
    (∀ p, c.telemetryBaud.lookup p ≠ some 0#32) ∧ c.divisorWidth ≤ 32 ∧ c.uartBase % 4 = 0 := by
  rw [← popCount_eq_two_iff, ← baudOk_iff]
  simp only [Config.wf, Config.pinsOk, Config.clockOk, Config.widthOk, Config.baseOk, Config.telem, Bool.and_eq_true,
    beq_iff_eq, Bool.or_eq_true, Bool.not_eq_true', bne_iff_ne, decide_eq_true_eq, beq_eq_false_iff_ne, and_assoc,
    ne_eq, imp_iff_not_or]

end Sys2Proof
end

