-- ==== Sys2Proof/Machine/Assembly.lean ====
section
/-! DEFINITION. The text form of a command (30_encoding.md R63): the mnemonic, then its operands, comma separated,
numbers in decimal or in hexadecimal. RXISR and the register accesses have no text form. -/

namespace Sys2Proof.Machine

/-- The value of a digit in a base up to 16. -/
def digitValue (base : Nat) (c : Char) : Option Nat :=
  let v :=
    if '0' ≤ c ∧ c ≤ '9' then some (c.toNat - '0'.toNat)
    else if 'a' ≤ c ∧ c ≤ 'f' then some (c.toNat - 'a'.toNat + 10)
    else if 'A' ≤ c ∧ c ≤ 'F' then some (c.toNat - 'A'.toNat + 10)
    else none
  v.filter (fun d => decide (d < base))

/-- The number that digits spell after `acc`. -/
def digitsValue (base : Nat) : Nat → List Char → Option Nat
  | acc, [] => some acc
  | acc, c :: cs =>
    match digitValue base c with
    | none => none
    | some d => digitsValue base (acc * base + d) cs

/-- A number, in decimal or with `0x` in hexadecimal (R63). -/
def numberOf : List Char → Option Nat
  | [] => none
  | ['0', 'x'] => none
  | '0' :: 'x' :: cs => digitsValue 16 0 cs
  | cs => digitsValue 10 0 cs

/-- The parts of a text between the separators. -/
def parts (sep : Char) : List Char → List (List Char)
  | [] => [[]]
  | c :: cs =>
    if c = sep then [] :: parts sep cs
    else
      match parts sep cs with
      | [] => [[c]]
      | p :: ps => (c :: p) :: ps

/-- A text without the blanks around it. -/
def trim (cs : List Char) : List Char :=
  ((cs.dropWhile (· = ' ')).reverse.dropWhile (· = ' ')).reverse

/-- The operands after a mnemonic: none, or numbers with commas between them (R63). -/
def operandsOf (cs : List Char) : List (Option Nat) :=
  match trim cs with
  | [] => []
  | rest => (parts ',' rest).map (fun p => numberOf (trim p))

/-- The mnemonics of the commands (R7, R63). -/
def mnConfigure : List Char := ['C', 'O', 'N', 'F', 'I', 'G', 'U', 'R', 'E']
/-- STOP. -/
def mnStop : List Char := ['S', 'T', 'O', 'P']
/-- PUTC. -/
def mnPutc : List Char := ['P', 'U', 'T', 'C']
/-- TPINIT. -/
def mnTpinit : List Char := ['T', 'P', 'I', 'N', 'I', 'T']
/-- TPRECV. -/
def mnTprecv : List Char := ['T', 'P', 'R', 'E', 'C', 'V']

/-- The command a text stands for; none where it is no command's text or an operand is too wide (R58, R63). -/
def assemble (text : List Char) : Option Instr :=
  let line := trim text
  let mnemonic := line.takeWhile (· ≠ ' ')
  match operandsOf (line.drop mnemonic.length) with
  | [] =>
    if mnemonic = mnStop then some .stop else if mnemonic = mnTprecv then some .tprecv else none
  | [some n] =>
    if mnemonic = mnPutc ∧ n < 2 ^ 8 then some (.putc (BitVec.ofNat 8 n))
    else if mnemonic = mnTpinit ∧ n < 2 ^ 8 then some (.tpinit (BitVec.ofNat 8 n))
    else none
  | [some n, some m] =>
    if mnemonic = mnConfigure ∧ n < 2 ^ 32 ∧ m < 2 ^ 32 then
      some (.configure (BitVec.ofNat 32 n) (BitVec.ofNat 32 m))
    else none
  | _ => none

/-- A number in decimal, of at most `fuel` digits. -/
def decimal : Nat → Nat → List Char
  | 0, _ => []
  | fuel + 1, n =>
    if n < 10 then [Char.ofNat ('0'.toNat + n)]
    else decimal fuel (n / 10) ++ [Char.ofNat ('0'.toNat + n % 10)]

/-- The text of a command, its numbers in decimal; none for RXISR and the register accesses (R63). -/
def textOf : Instr → Option (List Char)
  | .configure baudrate masterClock =>
    some (mnConfigure ++ [' '] ++ decimal 10 baudrate.toNat ++ [',', ' '] ++ decimal 10 masterClock.toNat)
  | .stop => some mnStop
  | .putc c => some (mnPutc ++ [' '] ++ decimal 10 c.toNat)
  | .tpinit p => some (mnTpinit ++ [' '] ++ decimal 10 p.toNat)
  | .tprecv => some mnTprecv
  | .rxisr => none
  | .regWriteCR _ => none
  | .regWriteMR _ => none
  | .regReadMR => none
  | .regWriteIER _ => none
  | .regWriteIDR _ => none
  | .regReadSR => none
  | .regReadRHR => none
  | .regWriteTHR _ => none
  | .regWriteBRGR _ => none
  | .regWritePTCR _ => none

end Sys2Proof.Machine
end

