-- ==== Sys2Proof/Tests/Slice0.lean ====
section
/-! SUPPORT. Tests: the checks of WellFormed, decoding of words written out from 30_encoding.md, single steps from
95_test_vectors.md (the vector is named in each comment), and for each obligation with hypotheses a state and
operands that meet them. -/

namespace Sys2Proof.Tests

open Sys2Proof.Machine

/-! ### WellFormed: each check refuses an ill-formed term -/

theorem test_wf_example : Config.example.wf = true := by decide
theorem test_wf_pins_refused : ({ Config.example with pinMask := 7#32 } : Config).wf = false := by decide
theorem test_wf_clock_refused : ({ Config.example with masterClock := 0#32 } : Config).wf = false := by decide
theorem test_wf_baud_refused :
    ({ Config.example with telemetryBaud := [(1#8, 0#32)] } : Config).wf = false := by decide
theorem test_wf_width_refused : ({ Config.example with divisorWidth := 33 } : Config).wf = false := by decide
theorem test_wf_base_refused : ({ Config.example with uartBase := 2 } : Config).wf = false := by decide
theorem test_wf_configure_zero_refused : (Instr.configure 0#32 48000000#32).wf Config.example = false := by decide
theorem test_wf_configure_clock_refused : (Instr.configure 19200#32 0#32).wf Config.example = false := by decide
theorem test_wf_configure_wide_refused : (Instr.configure 1#32 1048576#32).wf Config.example = false := by decide
theorem test_wf_configure_taken : (Instr.configure 1#32 1048575#32).wf Config.example = true := by decide
theorem test_wf_tpinit_refused : (Instr.tpinit 3#8).wf Config.example = false := by decide
theorem test_wf_cr_reserved_refused : (Instr.regWriteCR 0x1#32).wf Config.example = false := by decide
theorem test_wf_cr_rx_refused : (Instr.regWriteCR 0x30#32).wf Config.example = false := by decide
theorem test_wf_cr_tx_refused : (Instr.regWriteCR 0xC0#32).wf Config.example = false := by decide
theorem test_wf_mr_refused :
    (Instr.regWriteMR 0x0#32).wf { Config.example with refuseOtherModes := true } = false := by decide
theorem test_wf_brgr_refused : (Instr.regWriteBRGR 0x10000#32).wf Config.example = false := by decide
theorem test_wf_ptcr_reserved_refused : (Instr.regWritePTCR 0x4#32).wf Config.example = false := by decide
theorem test_wf_ptcr_rx_refused : (Instr.regWritePTCR 0x3#32).wf Config.example = false := by decide
theorem test_wf_ptcr_tx_refused : (Instr.regWritePTCR 0x300#32).wf Config.example = false := by decide

/-! ### Decoding: words and headers from R56, R57, R64, R74 and section 2.1 -/

theorem test_decode_configure :
    decode (.cmd 0x0100004B0002DC6C00#72) = .ok (.configure 19200#32 48000000#32) := by decide
theorem test_decode_stop : decode (.cmd 0x020000000000000000#72) = .ok .stop := by decide
theorem test_decode_putc : decode (.cmd 0x03000000FF00000000#72) = .ok (.putc 0xFF#8) := by decide
theorem test_decode_tpinit : decode (.cmd 0x040000000100000000#72) = .ok (.tpinit 1#8) := by decide
theorem test_decode_tprecv : decode (.cmd 0x050000000000000000#72) = .ok .tprecv := by decide
theorem test_decode_rxisr : decode (.cmd 0x060000000000000000#72) = .ok .rxisr := by decide
theorem test_decode_writeCR : decode (.bus 0b1000000000000#13 0xAC#32) = .ok (.regWriteCR 0xAC#32) := by decide
theorem test_decode_writeMR : decode (.bus 0b1000000000100#13 0x800#32) = .ok (.regWriteMR 0x800#32) := by decide
theorem test_decode_readMR : decode (.bus 0b0000000000100#13 0x0#32) = .ok .regReadMR := by decide
theorem test_decode_writeIER : decode (.bus 0b1000000001000#13 0x1#32) = .ok (.regWriteIER 0x1#32) := by decide
theorem test_decode_writeIDR : decode (.bus 0b1000000001100#13 0x1#32) = .ok (.regWriteIDR 0x1#32) := by decide
theorem test_decode_readSR : decode (.bus 0b0000000010100#13 0x0#32) = .ok .regReadSR := by decide
theorem test_decode_readRHR : decode (.bus 0b0000000011000#13 0x0#32) = .ok .regReadRHR := by decide
theorem test_decode_writeTHR : decode (.bus 0b1000000011100#13 0x41#32) = .ok (.regWriteTHR 0x41#32) := by decide
theorem test_decode_writeBRGR : decode (.bus 0b1000000100000#13 156#32) = .ok (.regWriteBRGR 156#32) := by decide
theorem test_decode_writePTCR : decode (.bus 0b1000100100000#13 0x202#32) = .ok (.regWritePTCR 0x202#32) := by decide
theorem test_decode_reserved_opcode :
    decode (.cmd 0x070000000000000000#72) = .error (.reservedOpcode 0x07#8) := by decide
theorem test_decode_reserved_bits :
    decode (.cmd 0x030000014100000000#72) = .error (.reservedOperandBits 0x030000014100000000#72) := by decide
theorem test_decode_read_of_control :
    decode (.bus 0x0000#13 0x0#32) = .error (.badBusAccess false 0x000#12) := by decide
theorem test_table_word_command : decodeTableWord 72 0x030000004100000000 = some (.putc 0x41#8) := by decide
theorem test_table_word_bus : decodeTableWord 16 0x1020 = some (.regWriteBRGR 0#32) := by decide
theorem test_table_word_bus_data : decodeTableWord 48 0x00000041101C = some (.regWriteTHR 0x41#32) := by decide

/-! ### Helpers -/

/-- The next state of an outcome. -/
def nx : StepResult → Option State
  | .next s => some s
  | .fault _ => none
  | .refused _ => none

/-- Reset under a variant. -/
def base (v : Variant) : State := State.resetOf { Config.example with variant := v }

/-- The clock gate, the receiver and the transmitter on. -/
def powered (v : Variant) : State := { base v with clk := true, rxen := true, txen := true }

/-- A command in progress, its operands latched. -/
def busy (v : Variant) (op : Opcode) (n : BitVec 4) (a b : Word) : State :=
  { powered v with seqOp := op, seqStep := n, latchA := some a, latchB := some b, latchT := some 156#32 }

/-- A byte ready. -/
def ready (v : Variant) (b : Byte) : State := { powered v with rxrdy := true, rhr := some b }

/-- After CONFIGURE 19200, 48000000 in `InterruptDriver` (section 2.4). -/
def running : State :=
  { powered .interruptDriver with
    latchA := some 19200#32, latchB := some 48000000#32, latchT := some 156#32, mr := some 0x800#32,
    brgr := some 156#32, pins := .peripheral 3#32 .peripheralInputNoPullUp, imrRxrdy := true, lineEn := true,
    port := .running }

/-- The same, the handler about to read or to push. -/
def handling (n : BitVec 2) : State :=
  { running with ctx := .irq, istep := n, rxrdy := true, rhr := some 0x41#8, latchTI := some 0x41#8 }

/-! ### The text form of a command (R63) -/

theorem test_assemble_configure :
    assemble "CONFIGURE 19200, 48000000".toList = some (.configure 19200#32 48000000#32) := by decide
theorem test_assemble_hexadecimal : assemble "PUTC 0x41".toList = some (.putc 0x41#8) := by decide
theorem test_assemble_too_wide : assemble "PUTC 256".toList = none := by decide

/-! ### One step of each instruction -/

-- S1 of section 1: 48000000 / (16 * 19200) = 156.
theorem test_configure_divisor :
    (nx (exec (.configure 0#32 0#32) (busy .pollingOnlyDriver 0x01#8 0#4 19200#32 48000000#32))).map
      (fun t => (t.latchT, t.seqStep)) = some (some 156#32, 1#4) := by decide
-- Section 2.3, wrap trap: 16 * 268435456 does not wrap to 0.
theorem test_configure_no_wrap :
    (nx (exec (.configure 0#32 0#32) (busy .pollingOnlyDriver 0x01#8 0#4 268435456#32 4294967295#32))).map
      (fun t => (t.latchT, t.refused)) = some (some 0#32, none) := by decide
-- T1: step 0 writes IDR, step 1 masks the line.
theorem test_stop_masks :
    (nx (exec .stop { running with seqOp := 0x02#8 })).map
      (fun t => (t.imrRxrdy, t.lineEn, t.hist)) = some (false, true, [.regW .IDR 0x1#32]) := by decide
-- T4: STOP before the clock is on.
theorem test_stop_unclocked :
    (nx (exec .stop { base .pollingOnlyDriver with seqOp := 0x02#8 })).map
      (fun t => (t.fault, t.seqOp)) = some (some (.unclockedAccess .IDR), 0x02#8) := by decide
-- X1: the write step.
theorem test_putc_write :
    (nx (exec (.putc 0#8) { busy .pollingOnlyDriver 0x03#8 1#4 0x41#32 0#32 with txe := true })).map
      (fun t => (t.thr, t.thrValid, t.txe, t.seqOp)) = some (some 0x41#8, true, false, 0x00#8) := by decide
-- X6: NoOpDriver.
theorem test_putc_noop :
    (nx (exec (.putc 0x41#8) (base .noOpDriver))).map (fun t => (t.hist, t.seqOp)) =
      some ([.cmd 0x03#8 0x41#32 0#32, .done 0x03#8 none], 0x00#8) := by decide
-- TP2: protocol 2 has 57600 baud, 48000000 / (16 * 57600) = 52.
theorem test_tpinit_divisor :
    (nx (exec (.tpinit 0#8) (busy .telemetryDriver 0x04#8 0#4 2#32 0#32))).map (fun t => (t.latchT, t.latchA)) =
      some (some 52#32, some 57600#32) := by decide
-- TP1: the last step arms the receive transfer.
theorem test_tpinit_arms :
    (nx (exec (.tpinit 0#8) (busy .telemetryDriver 0x04#8 7#4 9600#32 48000000#32))).map
      (fun t => (t.pdcRxen, t.pdcTxen, t.port)) = some (true, false, .configuredIdle) := by decide
-- TP9: 0xFF is data, widened with zeros.
theorem test_tprecv_byte :
    (nx (exec .tprecv { ready .telemetryDriver 0xFF#8 with seqOp := 0x05#8, seqStep := 1#4 })).map
      (fun t => (t.latchRes, t.rxrdy)) = some (some 0x00FF#16, false) := by decide
-- TP14: receiving before configuring.
theorem test_tprecv_unclocked :
    (nx (exec .tprecv { base .telemetryDriver with seqOp := 0x05#8 })).map (fun t => t.fault) =
      some (some (.unclockedAccess .SR)) := by decide
-- I1: the read acknowledges.
theorem test_rxisr_read :
    (nx (exec .rxisr (handling 0#2))).map (fun t => (t.latchTI, t.rxrdy, t.istep, t.rhr)) =
      some (some 0x41#8, false, 1#2, some 0x41#8) := by decide
-- I2: the push appends, and the handler returns.
theorem test_rxisr_push :
    (nx (exec .rxisr { handling 1#2 with rxbuf := [0x00#8] })).map (fun t => (t.rxbuf, t.ctx, t.istep)) =
      some ([0x00#8, 0x41#8], .fg, 0#2) := by decide
-- M5: reset and disable.
theorem test_writeCR_reset :
    (nx (exec (.regWriteCR 0xAC#32) { ready .pollingOnlyDriver 0x55#8 with thrValid := true, thr := some 0x77#8 })).map
      (fun t => (t.rxen, t.txen, t.rxrdy, t.rhr, t.thrValid, t.txe)) =
      some (false, false, false, none, false, false) := by decide
-- M6: the enables change no flag.
theorem test_writeCR_enable :
    (nx (exec (.regWriteCR 0x50#32) { base .pollingOnlyDriver with clk := true })).map
      (fun t => (t.rxen, t.txen, t.rxrdy, t.txe)) = some (true, true, false, false) := by decide
-- M9.
theorem test_writeMR :
    (nx (exec (.regWriteMR 0x800#32) (powered .pollingOnlyDriver))).map (fun t => t.mr) =
      some (some 0x800#32) := by decide
-- R85: a read returns what was written.
theorem test_readMR :
    (nx (exec .regReadMR { powered .pollingOnlyDriver with mr := some 0x800#32 })).map (fun t => t.hist) =
      some [.regR .MR 0x800#32] := by decide
-- M20: enabling while a byte is ready raises the request at once.
theorem test_writeIER :
    (nx (exec (.regWriteIER 0x1#32) (ready .interruptDriver 0x41#8))).map (fun t => (t.imrRxrdy, t.irqReq)) =
      some (true, true) := by decide
-- M22.
theorem test_writeIDR :
    (nx (exec (.regWriteIDR 0x1#32) { ready .interruptDriver 0x41#8 with imrRxrdy := true })).map
      (fun t => (t.imrRxrdy, t.rxrdy, t.irqReq)) = some (false, true, false) := by decide
-- M3: no flag changes.
theorem test_readSR :
    (nx (exec .regReadSR (ready .pollingOnlyDriver 0x41#8))).map (fun t => (t.rxrdy, t.txe)) =
      some (true, false) := by decide
-- M16: the upper 24 bits are 0, and the byte stays.
theorem test_readRHR :
    (nx (exec .regReadRHR (ready .pollingOnlyDriver 0xFF#8))).map (fun t => (t.hist, t.rxrdy, t.rhr)) =
      some ([.regR .RHR 0x000000FF#32], false, some 0xFF#8) := by decide
-- M18.
theorem test_writeTHR :
    (nx (exec (.regWriteTHR 0x41#32) { powered .pollingOnlyDriver with txe := true })).map
      (fun t => (t.thr, t.thrValid, t.txe)) = some (some 0x41#8, true, false) := by decide
-- M19.
theorem test_writeTHR_refused :
    (nx (exec (.regWriteTHR 0x41#32) (powered .pollingOnlyDriver))).map (fun t => t.refused) =
      some (some (.thrOverwrite 0x41#32)) := by decide
-- M13, M14.
theorem test_writeBRGR :
    (nx (exec (.regWriteBRGR 0xFFFF#32) (powered .pollingOnlyDriver))).map (fun t => t.brgr) =
      some (some 0xFFFF#32) := by decide
theorem test_writeBRGR_refused :
    (nx (exec (.regWriteBRGR 0x10000#32) (powered .pollingOnlyDriver))).map (fun t => t.refused) =
      some (some (.divisorTooWide 65536)) := by decide
-- M24, M25.
theorem test_writePTCR_disable :
    (nx (exec (.regWritePTCR 0x202#32) { powered .telemetryDriver with pdcRxen := true })).map
      (fun t => (t.pdcRxen, t.pdcTxen)) = some (false, false) := by decide
theorem test_writePTCR_arm :
    (nx (exec (.regWritePTCR 0x1#32) (powered .telemetryDriver))).map (fun t => (t.pdcRxen, t.pdcTxen)) =
      some (true, false) := by decide

/-! ### Agents and the fetch -/

-- R61: the word of RXISR on the command port.
theorem test_rxisr_on_the_port :
    (nx (step { base .interruptDriver with agenda := [.fg], cmds := [0x060000000000000000#72] })).map
      (fun t => t.refused) = some (some (.reservedOpcode 0x06#8)) := by decide
-- M35: a write at offset 0x010, by header and by address.
theorem test_reserved_offset :
    (nx (step { powered .pollingOnlyDriver with agenda := [.bus 0x1010#13 4 0#32] })).map (fun t => t.refused) =
      some (some (.badBusAccess true 16)) ∧
    (nx (step { powered .pollingOnlyDriver with agenda := [.mem true 16 4 0#32] })).map (fun t => t.refused) =
      some (some (.badBusAccess true 16)) := by decide
-- E6.
theorem test_drain :
    (nx (step { powered .pollingOnlyDriver with agenda := [.txDrain], thrValid := true, thr := some 0x0D#8 })).map
      (fun t => (t.lineOut, t.thrValid, t.txe)) = some ([0x0D#8], false, true) := by decide
-- E9.
theorem test_take :
    (nx (step { ready .telemetryDriver 0x10#8 with agenda := [.pdcTake], pdcRxen := true })).map
      (fun t => (t.pdcSink, t.rxrdy)) = some ([0x10#8], false) := by decide
-- E11.
theorem test_pop :
    (nx (step { running with agenda := [.pop], rxbuf := [0x01#8, 0x02#8] })).map (fun t => (t.rxbuf, t.hist)) =
      some ([0x02#8], [.pop 0x01#8]) := by decide
theorem test_fetch_command :
    (nx (step (State.reset.withFetchWord 72 0x0100004B0002DC6C00))).map (fun t => (t.seqOp, t.latchA, t.latchB)) =
      some (0x01#8, some 19200#32, some 48000000#32) := by decide
theorem test_fetch_bus :
    (nx (step ((powered .pollingOnlyDriver).withFetchWord 48 0x0000009C1020))).map (fun t => t.brgr) =
      some (some 0x9C#32) := by decide

/-! ### A state and operands for each obligation with hypotheses, clause by clause -/

/-- What every state built by `base` holds. -/
theorem wit_base (v : Variant) :
    (base v).live ∧ (base v).ctx = .fg ∧ (base v).seqOp = 0#8 ∧ (base v).cfg.variant = v := ⟨⟨rfl, rfl⟩, rfl, rfl, rfl⟩

/-- What every state built by `busy` holds. -/
theorem wit_busy_state (v : Variant) (op : Opcode) (n : BitVec 4) (a b : Word) :
    (busy v op n a b).live ∧ (busy v op n a b).ctx = .fg ∧ (busy v op n a b).seqOp = op ∧
    (busy v op n a b).seqStep = n ∧ (busy v op n a b).latchA = some a ∧ (busy v op n a b).latchB = some b ∧
    (busy v op n a b).latchT = some 156#32 ∧ (busy v op n a b).clk = true :=
  ⟨⟨rfl, rfl⟩, rfl, rfl, rfl, rfl, rfl, rfl, rfl⟩

/-- A configuration that R5 admits, for the telemetry switch alone. -/
theorem wit_construct :
    (∃ i j : Fin 32, i ≠ j ∧ ∀ k : Fin 32, Config.example.pinMask.getLsbD k = true ↔ k = i ∨ k = j) ∧
    Config.example.masterClock ≠ 0#32 ∧ (∀ p, Config.example.telemetryBaud.lookup p ≠ some 0#32) ∧
    Config.example.divisorWidth ≤ 32 ∧ Config.example.uartBase % 4 = 0 ∧
    State.construct ⟨false, false, true⟩ Config.example = State.reset :=
  ⟨⟨0, 1, by decide, by decide⟩, by decide, by decide, by decide, by decide, rfl⟩
/-- One that it excludes by the clock, under the telemetry switch only. -/
theorem wit_construct_refused :
    (State.construct ⟨false, false, true⟩ { Config.example with masterClock := 0#32 }).refused =
      some .badConfiguration ∧
    (State.construct ⟨false, true, false⟩ { Config.example with masterClock := 0#32 }).refused = none := by decide

theorem wit_decodable_fetch :
    decode (.cmd 0x03000000FF00000000#72) = .ok (.putc 0xFF#8) ∧ Instr.putc 0xFF#8 ≠ .rxisr ∧
    decode (.bus 0x0014#13 5#32) = .ok .regReadSR ∧
    decode (.bus 0x1120#13 5#32) = .ok (.regWritePTCR 5#32) := by decide

/-- An idle port of a variant with one word to come. -/
def offered (v : Variant) (cw : CmdWord) : State := { base v with agenda := [.fg], cmds := [cw] }

/-- What every state built by `offered` holds. -/
theorem wit_offered (v : Variant) (cw : CmdWord) :
    (offered v cw).live ∧ (offered v cw).ctx = .fg ∧ (offered v cw).seqOp = 0#8 ∧
    (offered v cw).agenda = [.fg] ∧ (offered v cw).cmds = [cw] := ⟨⟨rfl, rfl⟩, rfl, rfl, rfl, rfl⟩

theorem wit_reserved_opcode :
    (offered .interruptDriver 0x0#72).live ∧ (offered .interruptDriver 0x0#72).ctx = .fg ∧
    (offered .interruptDriver 0x0#72).seqOp = 0x00#8 ∧
    (0x0#72 : CmdWord).extractLsb' 64 8 = 0x00#8 ∧
    0x06#8 ≤ (0x060000000000000000#72 : CmdWord).extractLsb' 64 8 ∧
    0x06#8 ≤ (0xFF0000000000000000#72 : CmdWord).extractLsb' 64 8 := by decide

theorem wit_reserved_bits :
    (offered .interruptDriver 0x020000000000000001#72).live ∧
    (0x020000000000000001#72 : CmdWord).extractLsb' 64 8 = 0x02#8 ∧
    (0x020000000000000001#72 : CmdWord).extractLsb' 0 64 ≠ 0#64 ∧
    (0x058000000000000000#72 : CmdWord).extractLsb' 64 8 = 0x05#8 ∧
    (0x058000000000000000#72 : CmdWord).extractLsb' 0 64 ≠ 0#64 ∧
    (0x030000010000000000#72 : CmdWord).extractLsb' 64 8 = 0x03#8 ∧
    (0x030000010000000000#72 : CmdWord).extractLsb' 40 24 ≠ 0#24 ∧
    (0x040000000080000000#72 : CmdWord).extractLsb' 64 8 = 0x04#8 ∧
    (0x040000000080000000#72 : CmdWord).extractLsb' 0 32 ≠ 0#32 := by decide

theorem wit_undefined_bus :
    ({ running with agenda := [.bus 0x0014#13 2 0#32] } : State).live ∧ 2 ≠ 4 ∧
    0x1010#13 ∉ [0x1000#13, 0x1004#13, 0x0004#13, 0x1008#13, 0x100C#13, 0x0014#13, 0x0018#13,
      0x101C#13, 0x1020#13, 0x1120#13] := by decide
/-- The same by address: a misaligned one, and the two first ones outside the 4096 bytes of the block. -/
theorem wit_undefined_address :
    ({ running with agenda := [.mem false (0 + (0x0015#13).toNat) 4 0#32] } : State).live ∧
    (0x0015#13 : Header).getLsbD 12 = false ∧ running.cfg.uartBase = 0 ∧ running.cfg.uartBase + 0xFFF < 0x1000 ∧
    0x3FF < ({ running with cfg := { running.cfg with uartBase := 0x400 } } : State).cfg.uartBase := by decide

theorem wit_presented :
    (offered .interruptDriver 0x020000000000000000#72).live ∧
    (offered .interruptDriver 0x020000000000000000#72).ctx = .fg ∧
    (offered .interruptDriver 0x020000000000000000#72).seqOp = 0x00#8 ∧
    decode (.cmd 0x020000000000000000#72) = .ok .stop := by decide

theorem wit_in_progress :
    (∀ op ∈ [0x01#8, 0x02#8, 0x03#8, 0x04#8, 0x05#8],
      ({ busy .telemetryDriver op 0#4 1#32 16#32 with agenda := [.fg] } : State).live ∧
      ({ busy .telemetryDriver op 0#4 1#32 16#32 with agenda := [.fg] } : State).ctx = .fg) ∧
    ({ handling 0#2 with agenda := [.irq] } : State).live ∧
    ({ handling 0#2 with agenda := [.irq] } : State).ctx = .irq ∧
    decode (.bus 0x0018#13 0#32) = .ok .regReadRHR := by decide

theorem wit_placed :
    running.live ∧ decodeTableWord 72 0x020000000000000000 = some .stop ∧
    decodeTableWord 72 0x060000000000000000 = some .rxisr ∧
    decodeTableWord 16 0x0014 = some .regReadSR := by decide

theorem wit_marked :
    ({ base .pollingOnlyDriver with fault := some (.unclockedAccess .IDR) } : State).fault =
      some (.unclockedAccess .IDR) ∧
    ({ base .pollingOnlyDriver with refused := some .zeroBaudrate } : State).fault = none ∧
    ({ base .pollingOnlyDriver with refused := some .zeroBaudrate } : State).refused = some .zeroBaudrate := by decide

theorem wit_turn_not_enabled :
    ({ running with agenda := [.pop] } : State).live ∧ enabled .pop { running with agenda := [.pop] } = false := by
  decide

theorem wit_running_invariant : BlockInv running :=
  ⟨by decide, by decide, by decide, by decide, by decide, by decide, by decide⟩
theorem wit_running_live : running.live := by decide
theorem wit_handling_invariant : BlockInv (handling 0#2) :=
  ⟨by decide, by decide, by decide, by decide, by decide, by decide, by decide⟩
theorem wit_handling_live : (handling 0#2).live ∧ (handling 0#2).ctx = .irq := by decide

theorem wit_turn_enabled_invariant : BlockInv { running with agenda := [.fg], seqOp := 0x03#8 } :=
  ⟨by decide, by decide, by decide, by decide, by decide, by decide, by decide⟩
theorem wit_turn_enabled :
    ({ running with agenda := [.fg], seqOp := 0x03#8 } : State).live ∧
    enabled .fg { running with agenda := [.fg], seqOp := 0x03#8 } = true := by decide

/-- A byte arrives: the step of the witnesses below. -/
theorem wit_step_arrival :
    step { running with agenda := [.rxArrive 0x41#8] } =
      .next { running with
        rhr := some 0x41#8, rxrdy := true, hist := [.rxArrive 0x41#8 false] } := rfl

theorem wit_accept :
    (base .interruptDriver).live ∧ (base .interruptDriver).ctx = .fg ∧ (base .interruptDriver).seqOp = 0x00#8 ∧
    (base .interruptDriver).cfg.variant ≠ .noOpDriver ∧
    (base .telemetryDriver).live ∧ (base .telemetryDriver).ctx = .fg ∧ (base .telemetryDriver).seqOp = 0x00#8 ∧
    (base .telemetryDriver).cfg.variant = .telemetryDriver ∧
    (base .noOpDriver).live ∧ (base .noOpDriver).ctx = .fg ∧ (base .noOpDriver).seqOp = 0x00#8 ∧
    (base .noOpDriver).cfg.variant = .noOpDriver ∧
    (base .interruptDriver).cfg.variant ≠ .telemetryDriver := by decide

theorem wit_busy :
    (busy .telemetryDriver 0x05#8 0#4 0#32 0#32).live ∧ (busy .telemetryDriver 0x05#8 0#4 0#32 0#32).seqOp ≠ 0x00#8 ∧
    (busy .telemetryDriver 0x05#8 0#4 0#32 0#32).seqOp ≠ 0x01#8 ∧
    (busy .telemetryDriver 0x05#8 0#4 0#32 0#32).seqOp ≠ 0x02#8 ∧
    (busy .telemetryDriver 0x05#8 0#4 0#32 0#32).seqOp ≠ 0x03#8 ∧
    (busy .telemetryDriver 0x05#8 0#4 0#32 0#32).seqOp ≠ 0x04#8 ∧
    (busy .telemetryDriver 0x01#8 0#4 0#32 0#32).live ∧ (busy .telemetryDriver 0x01#8 0#4 0#32 0#32).seqOp ≠ 0x05#8 ∧
    (handling 1#2).live ∧ (handling 1#2).ctx = .irq := by decide

theorem wit_unclocked :
    (∀ op ∈ [0x02#8, 0x03#8, 0x05#8],
      ({ base .telemetryDriver with seqOp := op } : State).live ∧
      ({ base .telemetryDriver with seqOp := op } : State).clk = false ∧
      ({ base .telemetryDriver with seqOp := op } : State).ctx = .fg ∧
      ({ base .telemetryDriver with seqOp := op } : State).seqStep = 0#4) ∧
    accessedRegister .regReadSR = some .SR := by decide

theorem wit_clock_off_and_on :
    (base .telemetryDriver).live ∧ (base .telemetryDriver).clk = false ∧
    (powered .telemetryDriver).live ∧ (powered .telemetryDriver).clk = true := by decide

theorem wit_control_values :
    (0x1#32 : Word) &&& ~~~0x000000FC#32 ≠ 0#32 ∧
    (0x30#32 : Word).getLsbD 4 = true ∧ (0x30#32 : Word).getLsbD 5 = true ∧
    (0xC0#32 : Word).getLsbD 6 = true ∧ (0xC0#32 : Word).getLsbD 7 = true ∧
    (0xAC#32 : Word) &&& ~~~0x000000FC#32 = 0#32 ∧
    ¬ ((0xAC#32 : Word).getLsbD 4 = true ∧ (0xAC#32 : Word).getLsbD 5 = true) ∧
    ¬ ((0xAC#32 : Word).getLsbD 6 = true ∧ (0xAC#32 : Word).getLsbD 7 = true) := by decide

theorem wit_mode_register :
    (powered .pollingOnlyDriver).cfg.refuseOtherModes = false ∧ (powered .pollingOnlyDriver).mr = none ∧
    running.mr = some 0x800#32 ∧ running.live ∧ running.clk = true ∧
    ({ running with cfg := { Config.example with refuseOtherModes := true } } : State).cfg.refuseOtherModes = true ∧
    (0x801#32 : Word) ≠ 0x00000800#32 := by decide

theorem wit_divisor_boundary :
    (0xFFFF#32 : Word).toNat < 2 ^ (powered .pollingOnlyDriver).cfg.divisorWidth ∧
    2 ^ (powered .pollingOnlyDriver).cfg.divisorWidth ≤ (0x10000#32 : Word).toNat := by decide

theorem wit_holding :
    (ready .telemetryDriver 0xFF#8).live ∧ (ready .telemetryDriver 0xFF#8).clk = true ∧
    (ready .telemetryDriver 0xFF#8).rxrdy = true ∧ (ready .telemetryDriver 0xFF#8).rhr = some 0xFF#8 ∧
    (powered .telemetryDriver).rxrdy = false ∧ (powered .telemetryDriver).txe = false ∧
    ({ powered .telemetryDriver with txe := true } : State).txe = true := by decide

theorem wit_transfer_values :
    (0x4#32 : Word) &&& ~~~0x00000303#32 ≠ 0#32 ∧
    (0x3#32 : Word).getLsbD 0 = true ∧ (0x3#32 : Word).getLsbD 1 = true ∧
    (0x300#32 : Word).getLsbD 8 = true ∧ (0x300#32 : Word).getLsbD 9 = true ∧
    (0x202#32 : Word) &&& ~~~0x00000303#32 = 0#32 ∧
    ¬ ((0x202#32 : Word).getLsbD 0 = true ∧ (0x202#32 : Word).getLsbD 1 = true) ∧
    ¬ ((0x202#32 : Word).getLsbD 8 = true ∧ (0x202#32 : Word).getLsbD 9 = true) := by decide

/-- The admission clauses: each refusal and the two ends of the admitted quotients (section 2.3). -/
theorem wit_configure_admission :
    (busy .interruptDriver 0x01#8 0#4 1#32 1048576#32).live ∧
    (busy .interruptDriver 0x01#8 0#4 1#32 1048576#32).ctx = .fg ∧
    (1#32 : Word) ≠ 0#32 ∧ (1048576#32 : Word) ≠ 0#32 ∧
    2 ^ (busy .interruptDriver 0x01#8 0#4 1#32 1048576#32).cfg.divisorWidth ≤
      (1048576#32 : Word).toNat / (16 * (1#32 : Word).toNat) ∧
    (1048575#32 : Word).toNat / (16 * (1#32 : Word).toNat) <
      2 ^ (busy .interruptDriver 0x01#8 0#4 1#32 1048575#32).cfg.divisorWidth ∧
    (15#32 : Word).toNat < 16 * (1#32 : Word).toNat ∧
    (15#32 : Word).toNat / (16 * (1#32 : Word).toNat) <
      2 ^ (busy .interruptDriver 0x01#8 0#4 1#32 15#32).cfg.divisorWidth := by decide

theorem wit_configure_steps :
    (∀ n ∈ [0#4, 1#4, 2#4, 3#4, 4#4, 5#4, 6#4, 7#4, 8#4],
      (busy .interruptDriver 0x01#8 n 19200#32 48000000#32).live ∧
      (busy .interruptDriver 0x01#8 n 19200#32 48000000#32).ctx = .fg ∧
      (busy .interruptDriver 0x01#8 n 19200#32 48000000#32).clk = true ∧
      (busy .interruptDriver 0x01#8 n 19200#32 48000000#32).latchT = some 156#32) ∧
    (156#32 : Word).toNat < 2 ^ (busy .interruptDriver 0x01#8 4#4 19200#32 48000000#32).cfg.divisorWidth ∧
    (busy .pollingOnlyDriver 0x01#8 6#4 19200#32 48000000#32).cfg.variant ≠ .interruptDriver ∧
    (busy .interruptDriver 0x01#8 6#4 19200#32 48000000#32).cfg.variant = .interruptDriver := by decide

theorem wit_configure_run :
    (base .pollingOnlyDriver).live ∧ (base .pollingOnlyDriver).cfg.variant = .pollingOnlyDriver ∧
    (base .telemetryDriver).cfg.variant = .telemetryDriver ∧ running.live ∧ running.ctx = .fg ∧
    running.seqOp = 0x00#8 ∧ running.cfg.variant = .interruptDriver ∧
    (48000000#32 : Word).toNat / (16 * (19200#32 : Word).toNat) < 2 ^ running.cfg.divisorWidth := by decide

/-- The last step of a CONFIGURE, with what the earlier ones established. -/
def lastOfConfigure : State := { running with seqOp := 0x01#8, seqStep := 8#4, lineEn := false, agenda := [.fg] }

theorem wit_configure_progress :
    lastOfConfigure.noHarness ∧ ConfigureProgress lastOfConfigure ∧ lastOfConfigure.seqOp = 0x01#8 := by decide

theorem wit_configure_completes :
    step lastOfConfigure = .next { running with hist := [.lineEn 0, .done 0x01#8 none] } := rfl

theorem wit_stop :
    ({ running with seqOp := 0x02#8 } : State).live ∧ ({ running with seqOp := 0x02#8 } : State).ctx = .fg ∧
    ({ running with seqOp := 0x02#8 } : State).seqStep = 0#4 ∧ ({ running with seqOp := 0x02#8 } : State).clk = true ∧
    ({ running with seqOp := 0x02#8, seqStep := 1#4 } : State).live ∧
    running.seqOp = 0x00#8 ∧ running.cfg.variant ≠ .noOpDriver := by decide

/-- The line masked, a byte ready, a pop next. -/
def masked : State := { running with lineEn := false, rxbuf := [0x41#8], agenda := [.pop] }

theorem wit_masked :
    masked.ctx = .fg ∧ masked.lineEn = false ∧
    ({ masked with lineEn := true, imrRxrdy := false } : State).imrRxrdy = false := by decide
theorem wit_masked_step : step masked = .next { masked with agenda := [], rxbuf := [], hist := [.pop 0x41#8] } := rfl

theorem wit_putc :
    (busy .pollingOnlyDriver 0x03#8 0#4 0xFF#32 0#32).live ∧ (busy .pollingOnlyDriver 0x03#8 0#4 0xFF#32 0#32).ctx = .fg ∧
    (busy .pollingOnlyDriver 0x03#8 0#4 0xFF#32 0#32).clk = true ∧
    (busy .pollingOnlyDriver 0x03#8 0#4 0xFF#32 0#32).txe = false ∧
    ({ busy .pollingOnlyDriver 0x03#8 1#4 0xFF#32 0#32 with txe := true } : State).seqStep = 1#4 ∧
    ({ busy .pollingOnlyDriver 0x03#8 1#4 0xFF#32 0#32 with txe := true } : State).live ∧
    ({ busy .pollingOnlyDriver 0x03#8 1#4 0xFF#32 0#32 with txe := true } : State).txe = true ∧
    ({ busy .pollingOnlyDriver 0x03#8 1#4 0xFF#32 0#32 with txe := true } : State).latchA = some 0xFF#32 ∧
    ({ powered .pollingOnlyDriver with txe := true } : State).live ∧
    ({ powered .pollingOnlyDriver with txe := true } : State).seqOp = 0x00#8 ∧
    ({ powered .pollingOnlyDriver with txe := true } : State).cfg.variant ≠ .noOpDriver := by decide

/-- PUTC waiting, a pop next. -/
def waiting : State := { busy .pollingOnlyDriver 0x03#8 0#4 0x41#32 0#32 with agenda := [.pop] }

theorem wit_waiting :
    waiting.noHarness ∧ waiting.seqOp = 0x03#8 ∧ waiting.seqStep = 0#4 ∧ waiting.txe = false := by decide
theorem wit_waiting_turn : (nextTurn waiting).1 ≠ .txDrain ∧ waiting.dispatchEnabled = false := by decide
theorem wit_waiting_step : step waiting = .next { waiting with agenda := [] } := rfl

/-- PUTC with transmit-empty set, at its poll: the start of `sending`. -/
def polling : State := { busy .pollingOnlyDriver 0x03#8 0#4 0x41#32 0#32 with txe := true }

/-- A run of PUTC: the poll, the write, and drains from then on. -/
def sendingTurns : Nat → Turn
  | 0 => .fg
  | 1 => .fg
  | _ => .txDrain

/-- The status the poll reads: its other bits are free. -/
def polledStatus : Word := statusWord false true (Config.freeWord 0)

/-- The state after the poll. -/
def polled : State :=
  { polling with latchT := some polledStatus, seqStep := 1#4, draws := 1, hist := [.regR .SR polledStatus] }

/-- The state after the write. -/
def sent : State :=
  { polled with
    thr := some 0x41#8, thrValid := true, txe := false, seqOp := 0x00#8, seqStep := 0#4
    hist := polled.hist ++ [.regW .THR 0x41#32, .done 0x03#8 none] }

/-- The state after the drain. -/
def drained : State :=
  { sent with lineOut := [0x41#8], thrValid := false, txe := true, hist := sent.hist ++ [.txOut 0x41#8] }

/-- The states of the run. -/
def sending : Nat → State
  | 0 => polling
  | 1 => polled
  | 2 => sent
  | _ + 3 => drained

/-- The hypotheses of PUTC's completion under F1 and F3 hold together of one run. -/
theorem wit_sending_poll : step { polling with agenda := [.fg] } = .next polled := by
  have h : srTxempty polledStatus = true := srTxempty_statusWord _ _ _
  show Host.Outcome.next (putcPolled polledStatus { polling with draws := 1, hist := [.regR .SR polledStatus] }) = _
  simp only [putcPolled, h]
  rfl
theorem wit_sending_run : IsRun sendingTurns sending
  | 0 => wit_sending_poll
  | 1 => rfl
  | 2 => rfl
  | _ + 3 => rfl
theorem wit_sending_agents : ∀ n, (sendingTurns n).harness = false
  | 0 => rfl
  | 1 => rfl
  | _ + 2 => rfl
theorem wit_sending_sequencer : FairSequencer sendingTurns sending
  | 0 => ⟨fun h => ⟨0, Nat.le_refl _, h, rfl⟩, fun h => nomatch h⟩
  | 1 => ⟨fun h => ⟨1, Nat.le_refl _, h, rfl⟩, fun h => nomatch h⟩
  | 2 => ⟨fun h => absurd h (by decide), fun h => nomatch h⟩
  | _ + 3 => ⟨fun h => absurd (show 1 ≤ drained.seqOp.toNat from h.2.1) (by decide), fun h => nomatch h⟩
theorem wit_sending_drain : FairDrain sendingTurns sending
  | 0 => fun h => nomatch h
  | 1 => fun h => nomatch h
  | n + 2 => fun _ => ⟨n + 2, Nat.le_refl _, .inr rfl⟩
theorem wit_sending_start :
    (sending 0).seqOp = 0x03#8 ∧ (sending 0).clk = true ∧ (sending 0).txen = true := by decide

/-- A byte pending at the transmitter, its drain next. -/
def pending : State :=
  { powered .pollingOnlyDriver with
    thr := some 0x41#8, thrValid := true, hist := [.regW .THR 0x41#32], agenda := [.txDrain] }

theorem wit_line_out : (pending.lineOut ++ pending.pendingOut).Sublist (thrWrites pending.hist) := by decide
theorem wit_line_out_step :
    step pending = .next { pending with
      agenda := [], thrValid := false, txe := true, lineOut := [0x41#8],
      hist := [.regW .THR 0x41#32, .txOut 0x41#8] } := rfl

/-- A byte ready and requested, the interrupt agent next. -/
def requested : State := { running with rxrdy := true, rhr := some 0x41#8, agenda := [.irq] }

theorem wit_dispatch :
    requested.live ∧ requested.ctx = .fg ∧ requested.cfg.variant = .interruptDriver ∧ requested.clk = true ∧
    requested.rxrdy = true ∧ requested.imrRxrdy = true ∧ requested.lineEn = true ∧ requested.seqOp ≠ 0x01#8 ∧
    requested.seqOp ≠ 0x02#8 ∧ ({ requested with seqOp := 0x02#8 } : State).live ∧
    ¬ ({ requested with seqOp := 0x02#8 } : State).seqOp ≠ 0x02#8 := by decide

/-- A full receive buffer. -/
def full : List Byte := List.replicate 512 0#8

theorem wit_handler :
    (handling 0#2).live ∧ (handling 0#2).clk = true ∧ (handling 0#2).rxrdy = true ∧
    (handling 0#2).rhr = some 0x41#8 ∧ (handling 1#2).live ∧ (handling 1#2).latchTI = some 0x41#8 ∧
    (handling 1#2).cfg.overflowPolicy = .dropNewest ∧
    ({ handling 1#2 with cfg := { Config.example with overflowPolicy := .overwriteOldest } } : State).cfg.overflowPolicy =
      .overwriteOldest := by decide
theorem wit_full : full.length = 512 := List.length_replicate
theorem wit_almost_full : full.tail.length < 512 := by
  rw [List.length_tail, wit_full]
  decide

/-- The handler's push, as a step. -/
theorem wit_push_step :
    step { handling 1#2 with agenda := [.irq] } = .next { handling 1#2 with
      rxbuf := [0x41#8], ctx := .fg, istep := 0#2, hist := [.push 0x41#8 true, .ret] } := rfl

theorem wit_buffer :
    ({ handling 1#2 with agenda := [.irq] } : State).cfg.overflowPolicy = .dropNewest ∧
    bytesPopped (handling 1#2).hist ++ (handling 1#2).rxbuf = bytesKept (handling 1#2).hist ∧
    (handling 1#2).rxbuf.length ≤ 512 := by decide

theorem wit_tpinit_refused :
    (busy .telemetryDriver 0x04#8 0#4 3#32 0#32).live ∧
    (busy .telemetryDriver 0x04#8 0#4 3#32 0#32).latchA = some ((3#8 : Byte).setWidth 32) ∧
    (busy .telemetryDriver 0x04#8 0#4 3#32 0#32).cfg.telemetryBaud.lookup 3#8 = none ∧
    (busy .telemetryDriver 0x04#8 0#4 1#32 0#32).cfg.telemetryBaud.lookup 1#8 = some 9600#32 := by decide
theorem wit_tpinit_wide :
    ({ Config.example with telemetryBaud := [(1#8, 1#32)], masterClock := 1048576#32 } : Config).telemetryBaud.lookup 1#8 =
      some 1#32 ∧
    2 ^ Config.example.divisorWidth ≤ (1048576#32 : Word).toNat / (16 * (1#32 : Word).toNat) := by decide
theorem wit_tpinit_steps :
    (∀ n ∈ [0#4, 1#4, 2#4, 3#4, 4#4, 5#4, 6#4, 7#4],
      (busy .telemetryDriver 0x04#8 n 1#32 0#32).live ∧ (busy .telemetryDriver 0x04#8 n 1#32 0#32).ctx = .fg ∧
      (busy .telemetryDriver 0x04#8 n 1#32 0#32).clk = true ∧
      (busy .telemetryDriver 0x04#8 n 1#32 0#32).latchT = some 156#32) ∧
    (busy .telemetryDriver 0x04#8 0#4 1#32 0#32).latchA = some ((1#8 : Byte).setWidth 32) ∧
    (9600#32 : Word) ≠ 0#32 ∧ Config.example.masterClock ≠ 0#32 ∧
    Config.example.masterClock.toNat / (16 * (9600#32 : Word).toNat) < 2 ^ Config.example.divisorWidth ∧
    (156#32 : Word).toNat < 2 ^ Config.example.divisorWidth := by decide

theorem wit_tprecv :
    ({ ready .telemetryDriver 0xFF#8 with seqOp := 0x05#8 } : State).live ∧
    ({ ready .telemetryDriver 0xFF#8 with seqOp := 0x05#8 } : State).ctx = .fg ∧
    ({ ready .telemetryDriver 0xFF#8 with seqOp := 0x05#8 } : State).clk = true ∧
    ({ ready .telemetryDriver 0xFF#8 with seqOp := 0x05#8 } : State).seqStep = 0#4 ∧
    ({ ready .telemetryDriver 0xFF#8 with seqOp := 0x05#8, seqStep := 1#4 } : State).rhr = some 0xFF#8 ∧
    ({ powered .telemetryDriver with seqOp := 0x05#8, seqStep := 1#4 } : State).rxrdy = false ∧
    (ready .telemetryDriver 0xFF#8).seqOp = 0x00#8 ∧ (powered .telemetryDriver).rxrdy = false := by decide

theorem wit_results : ResultsInRange running.hist := by
  intro op r h
  cases h

theorem wit_arrival :
    ({ powered .pollingOnlyDriver with agenda := [.rxArrive 0xA5#8] } : State).live ∧
    (powered .pollingOnlyDriver).clk = true ∧ (powered .pollingOnlyDriver).rxen = true ∧
    (powered .pollingOnlyDriver).rxrdy = false ∧ (ready .pollingOnlyDriver 0xA5#8).rxrdy = true := by decide

theorem wit_drain :
    pending.live ∧ pending.clk = true ∧ pending.txen = true ∧ pending.txe = false ∧ pending.thrValid = true ∧
    pending.thr = some 0x41#8 ∧ (powered .pollingOnlyDriver).thrValid = false := by decide

theorem wit_take_and_pop :
    ({ ready .telemetryDriver 0x10#8 with pdcRxen := true } : State).cfg.pdcRxActive = true ∧
    ({ ready .telemetryDriver 0x10#8 with pdcRxen := true } : State).live ∧
    ({ ready .telemetryDriver 0x10#8 with pdcRxen := true } : State).clk = true ∧
    ({ ready .telemetryDriver 0x10#8 with pdcRxen := true } : State).rhr = some 0x10#8 ∧
    ({ running with rxbuf := [0x41#8] } : State).ctx = .fg ∧
    ({ running with rxbuf := [0x41#8] } : State).seqOp = 0x00#8 ∧
    ({ running with rxbuf := [0x41#8] } : State).rxbuf = [0x41#8] := by decide

/-- A step of the invariant statements that changes something. -/
theorem wit_invariant_step : BlockInv requested :=
  ⟨by decide, by decide, by decide, by decide, by decide, by decide, by decide⟩
theorem wit_dispatch_step :
    step requested = .next { requested with agenda := [], ctx := .irq, hist := [.dispatch] } := rfl

end Sys2Proof.Tests
end

section
/-! PROOFS. The scope family (00_scope.md): what every step keeps (R1, R29, R33, R53), which configurations the block
takes (R1, R2, R5), and the variant whose commands do nothing (R3). -/

namespace Sys2Proof.Machine

/-! ### What every step keeps -/

/-- What all effects of a step have in common: the configuration and the agenda stand, at most the first command word
is taken, and at most two events are appended. -/
structure StepFrame (u t : State) : Prop where
  cfg : t.cfg = u.cfg
  agenda : t.agenda = u.agenda
  cmds : t.cmds = u.cmds ∨ t.cmds = u.cmds.tail
  hist : ∃ events, t.hist = u.hist ++ events ∧ events.length ≤ 2

theorem StepFrame.hist_extends {u t : State} (h : StepFrame u t) : u.hist <+: t.hist := by
  obtain ⟨events, ht, -⟩ := h.hist
  exact ⟨events, ht.symm⟩

theorem StepFrame.hist_length {u t : State} (h : StepFrame u t) : t.hist.length ≤ u.hist.length + 2 := by
  obtain ⟨events, ht, hl⟩ := h.hist
  rw [ht, List.length_append]
  exact Nat.add_le_add_left hl _

/-- The frame of an effect that appends the events `events` and takes no command word. -/
theorem StepFrame.of_events {u t : State} (events : List Event) (hc : t.cfg = u.cfg) (ha : t.agenda = u.agenda)
    (hw : t.cmds = u.cmds) (hh : t.hist = u.hist ++ events) (hl : events.length ≤ 2) : StepFrame u t :=
  ⟨hc, ha, .inl hw, events, hh, hl⟩

/-- The frame of an effect on the port: the first command word is taken, and `events` are appended. -/
theorem StepFrame.of_word {u t : State} {cw : CmdWord} (hw : u.cmds = cw :: t.cmds) (events : List Event)
    (hc : t.cfg = u.cfg) (ha : t.agenda = u.agenda) (hh : t.hist = u.hist ++ events) (hl : events.length ≤ 2) :
    StepFrame u t :=
  ⟨hc, ha, .inr (by rw [hw, List.tail_cons]), events, hh, hl⟩

/-- Every register access appends one event: its own, or its refusal. -/
theorem Access.frame {u t : State} (h : Access u t) : StepFrame u t := by
  cases h <;> exact .of_events [_] rfl rfl rfl rfl (by simp)

/-- Every micro-operation appends one event, and `Done` as a second where it is its command's last. -/
theorem Micro.frame {u t : State} (h : Micro u t) : StepFrame u t := by
  cases h
  case enableDone | lineOn | lineOff | send | arm | noByte | receive | receiveLate =>
    exact .of_events [_, _] rfl rfl rfl rfl (by simp)
  all_goals exact .of_events [_] rfl rfl rfl rfl (by simp)

/-- Of the moves only those at the command port take a word; one passes, and those that complete a command at once or
leave the handler append two events. -/
theorem Move.frame {turn : Turn} {u t : State} (h : Move turn u t) : StepFrame u t := by
  cases h
  case pass => exact .of_events [] rfl rfl rfl (List.append_nil _).symm (by simp)
  case micro h => exact h.frame
  case access h => exact h.frame
  case refuseWord hw _ | refuseVariant hw _ | accept hw _ => exact .of_word hw [_] rfl rfl rfl (by simp)
  case acceptNoOp hw _ => exact .of_word hw [_, _] rfl rfl rfl (by simp)
  case handlerPush | handlerDrop | handlerOverwrite => exact .of_events [_, _] rfl rfl rfl rfl (by simp)
  all_goals exact .of_events [_] rfl rfl rfl rfl (by simp)

/-- Settles O16: a step is a move from the state with its turn taken, and every move has the frame. -/
theorem stepKeepsConfigurationAndExtendsHistory : Obligations.StepKeepsConfigurationAndExtendsHistory := by
  intro s t h
  have frame := (step_moves h).2.frame
  exact ⟨frame.cfg, frame.agenda, frame.cmds, frame.hist_extends, frame.hist_length⟩

/-! ### Construction -/

theorem step_of_refused {s : State} {q : Refusal} (hf : s.fault = none) (hr : s.refused = some q) :
    step s = .refused q :=
  whenLive_of_refused _ hf hr

/-- The four choices of R1 are those that name a variant. -/
theorem ofSwitches_of_mem {b : BuildSwitches} {v : Variant}
    (h : (b, v) ∈ [((⟨true, false, false⟩, .noOpDriver) : BuildSwitches × Variant),
      (⟨false, false, false⟩, .pollingOnlyDriver), (⟨false, true, false⟩, .interruptDriver),
      (⟨false, false, true⟩, .telemetryDriver)]) : Variant.ofSwitches b = some v := by
  simp only [List.mem_cons, List.not_mem_nil, or_false, Prod.mk.injEq] at h
  rcases h with ⟨rfl, rfl⟩ | ⟨rfl, rfl⟩ | ⟨rfl, rfl⟩ | ⟨rfl, rfl⟩ <;> rfl

/-- Debug and telemetry together name no variant (R2). -/
theorem ofSwitches_debug_telemetry {b : BuildSwitches} (hd : b.debug = true) (ht : b.telemetry = true) :
    Variant.ofSwitches b = none := by
  obtain ⟨simulated, debug, telemetry⟩ := b
  obtain rfl : debug = true := hd
  obtain rfl : telemetry = true := ht
  cases simulated <;> rfl

/-- The simulated switch with another names no variant (log 16). -/
theorem ofSwitches_simulated_other {b : BuildSwitches} (hs : b.simulated = true)
    (ho : b.debug = true ∨ b.telemetry = true) : Variant.ofSwitches b = none := by
  obtain ⟨simulated, debug, telemetry⟩ := b
  obtain rfl : simulated = true := hs
  rcases ho with hd | ht
  · obtain rfl : debug = true := hd
    rfl
  · obtain rfl : telemetry = true := ht
    cases debug <;> rfl

/-- A block whose switches name no variant takes no step (R2, R183). -/
theorem step_construct_of_no_variant {b : BuildSwitches} (c : Config) (h : Variant.ofSwitches b = none) :
    step (State.construct b c) = .refused .badConfiguration := by
  rw [State.construct, h]
  exact step_of_refused rfl rfl

/-- A well-formed block starts at reset (R5). -/
theorem construct_of_wf {b : BuildSwitches} {c : Config} {v : Variant} (h : Variant.ofSwitches b = some v)
    (hw : ({ c with variant := v } : Config).wf = true) :
    State.construct b c = State.resetOf { c with variant := v } := by
  rw [State.construct, h]
  exact if_pos hw

/-- A block that is not well formed takes no step (R5, R183). -/
theorem step_construct_of_not_wf {b : BuildSwitches} {c : Config} {v : Variant} (h : Variant.ofSwitches b = some v)
    (hw : ¬ ({ c with variant := v } : Config).wf = true) :
    step (State.construct b c) = .refused .badConfiguration := by
  rw [State.construct, h]
  simp only [if_neg hw]
  exact step_of_refused rfl rfl

/-- Settles O2: the switches name a variant or none, and `Config.wf_iff` says when its configuration is taken. -/
theorem illFormedConfigurationIsRefused : Obligations.IllFormedConfigurationIsRefused := by
  intro b c
  refine ⟨fun v hb => ?_, fun hd ht => ?_, fun hs ho => ?_⟩
  · have hv := ofSwitches_of_mem hb
    have hwf := Config.wf_iff { c with variant := v }
    exact ⟨fun h => construct_of_wf hv (hwf.mpr h), fun h => step_construct_of_not_wf hv (mt hwf.mp h)⟩
  · exact step_construct_of_no_variant c (ofSwitches_debug_telemetry hd ht)
  · exact step_construct_of_no_variant c (ofSwitches_simulated_other hs ho)

/-! ### Commands of the variant that does nothing -/

/-- An idle sequencer in the foreground accepts a command in one step (R59). -/
theorem runCommand_of_idle {s : State} (op : Opcode) (accept : State → State) (micro : State → StepResult)
    (hl : s.live) (hc : s.ctx = .fg) (ho : s.seqOp = 0x00#8) :
    runCommand op accept micro s = .next (accept s) := by
  rw [runCommand, whenLive_of_live _ hl.1 hl.2, hc]
  exact if_pos ho

/-- In `NoOpDriver` acceptance appends the two events of R59 and does nothing else (R3, log 25). -/
theorem acceptCore_of_noOpDriver {s : State} (op : Opcode) (a b : Word) (hv : s.cfg.variant = .noOpDriver) :
    acceptCore op a b s = { s with hist := s.hist ++ [.cmd op a b, .done op none] } := by
  rcases acceptCore_cases op a b s with ⟨-, e⟩ | ⟨hn, -⟩
  · exact e
  · exact absurd hv hn

/-- A driver-core command at an idle sequencer of `NoOpDriver` is over in one step (R3, R59). -/
theorem runCommand_acceptCore_of_noOpDriver {s : State} (op : Opcode) (a b : Word) (micro : State → StepResult)
    (hl : s.live) (hc : s.ctx = .fg) (ho : s.seqOp = 0x00#8) (hv : s.cfg.variant = .noOpDriver) :
    runCommand op (acceptCore op a b) micro s =
      .next { s with hist := s.hist ++ [.cmd op a b, .done op none] } := by
  rw [runCommand_of_idle op _ micro hl hc ho, acceptCore_of_noOpDriver op a b hv]

/-- Settles O18: the three commands are accepted by `acceptCore`, each with its own opcode and operands. -/
theorem noOpDriverCompletesWithNoEffect : Obligations.NoOpDriverCompletesWithNoEffect := by
  intro s hl hc ho hv
  have core := fun op a b micro => runCommand_acceptCore_of_noOpDriver op a b micro hl hc ho hv
  exact ⟨fun b m => core Opcode.configure b m configureMicro, core Opcode.stop 0#32 0#32 stopMicro,
    fun c => core Opcode.putc c.toWord 0#32 putcMicro⟩

end Sys2Proof.Machine
end

section
/-! PROOFS. The state family (10_state.md): the reset table (R32), where a step finds the instruction it runs (R11 to R13,
R74), the marks (R31), the foreground frozen under the handler (R13), and the invariant that holds at reset and that every
step keeps. The invariant is proved part by part, each over `Micro` and `Move`: a move that touches none of a part's fields
leaves that part as it is. -/

namespace Sys2Proof.Machine

/-! ### Reset -/

/-- Settles O1: `State.resetOf` writes the table of R32 out, field by field. -/
theorem resetStateIsTheResetTable : Obligations.ResetStateIsTheResetTable := by
  refine ⟨fun c => ?_, rfl⟩
  simp [State.resetOf]

/-! ### Marked states -/

theorem step_of_fault {s : State} {f : Fault} (hf : s.fault = some f) : step s = .fault f :=
  whenLive_of_fault _ hf

/-- Every instruction tests the marks before it does anything (R31). -/
theorem exec_eq_whenLive (i : Instr) (s : State) : ∃ k, exec i s = whenLive s k := by
  cases i <;> exact ⟨_, rfl⟩

theorem exec_of_fault {s : State} {f : Fault} (i : Instr) (hf : s.fault = some f) : exec i s = .fault f := by
  obtain ⟨k, e⟩ := exec_eq_whenLive i s
  rw [e, whenLive_of_fault k hf]

theorem exec_of_refused {s : State} {q : Refusal} (i : Instr) (hf : s.fault = none) (hr : s.refused = some q) :
    exec i s = .refused q := by
  obtain ⟨k, e⟩ := exec_eq_whenLive i s
  rw [e, whenLive_of_refused k hf hr]

/-- Settles O13: the step and every instruction look at the marks first, the fault before the refusal. -/
theorem markedStateHasNoStep : Obligations.MarkedStateHasNoStep := fun _ =>
  ⟨fun _ hf => ⟨step_of_fault hf, fun i => exec_of_fault i hf⟩,
    fun _ hf hr => ⟨step_of_refused hf hr, fun i => exec_of_refused i hf hr⟩⟩

/-! ### The instruction in progress -/

/-- In the foreground a busy sequencer's turn runs the command in progress (R12). -/
theorem fgTurn_of_busy {u : State} {i : Instr} (hc : u.ctx = .fg) (ho : u.seqOp ≠ 0x00#8)
    (hi : commandInProgress u = some i) : fgTurn u = exec i u := by
  simp only [fgTurn, hc, if_neg ho, hi]

theorem step_of_busy {s : State} {rest : List Turn} {i : Instr} (hl : s.live) (ha : s.agenda = .fg :: rest)
    (hc : s.ctx = .fg) (ho : s.seqOp ≠ 0x00#8) (hi : commandInProgress { s with agenda := rest } = some i) :
    step s = exec i { s with agenda := rest } :=
  (step_of_turn hl ha).trans (fgTurn_of_busy hc ho hi)

/-- The interrupt agent's turn in the interrupt context runs the handler (R13). -/
theorem irqTurn_of_irq {u : State} (hc : u.ctx = .irq) : irqTurn u = exec .rxisr u := by
  simp only [irqTurn, hc]

/-- A harness's access of a whole register runs what its header decodes to (R42, R94). -/
theorem busTurn_of_decode {u : State} {h : Header} {d : Word} {i : Instr} (hd : decode (.bus h d) = .ok i) :
    busTurn h 4 d u = exec i u := by
  simp only [busTurn, if_true, hd]

/-- Settles O10: one case for each opcode of a command, one for the handler, one for a harness's access. -/
theorem stepRunsTheInstructionInProgress : Obligations.StepRunsTheInstructionInProgress := by
  intro s rest hl
  refine ⟨fun hc ha => ?_, fun hc ha => ?_, fun h d i ha hd => ?_⟩
  · have busy : ∀ i, s.seqOp ≠ 0x00#8 → commandInProgress { s with agenda := rest } = some i →
        step s = exec i { s with agenda := rest } := fun i => step_of_busy hl ha hc
    refine ⟨fun ho => ?_, fun ho => ?_, fun ho => ?_, fun ho => ?_, fun ho => ?_⟩ <;>
      refine busy _ (by simp [ho]) ?_ <;> simp only [commandInProgress, ho] <;> rfl
  · exact (step_of_turn hl ha).trans (irqTurn_of_irq hc)
  · exact (step_of_turn hl ha).trans (busTurn_of_decode hd)

/-! ### The foreground while the handler runs -/

/-- The sequencer, its latches, the port and the words to come are as they were: what R13 freezes. -/
structure ForegroundKept (u t : State) : Prop where
  seqOp : t.seqOp = u.seqOp
  seqStep : t.seqStep = u.seqStep
  latchA : t.latchA = u.latchA
  latchB : t.latchB = u.latchB
  latchRes : t.latchRes = u.latchRes
  latchT : t.latchT = u.latchT
  cmds : t.cmds = u.cmds
  port : t.port = u.port

/-- No register access by itself moves the sequencer (R94). -/
theorem Access.foregroundKept {u t : State} (h : Access u t) : ForegroundKept u t := by
  cases h <;> exact ⟨rfl, rfl, rfl, rfl, rfl, rfl, rfl, rfl⟩

/-- In the interrupt context the moves of the sequencer and of the command port are not possible; no other touches the
foreground. -/
theorem Move.foregroundKept {turn : Turn} {u t : State} (h : Move turn u t) (hi : u.ctx = .irq) :
    ForegroundKept u t := by
  have notFg : u.ctx ≠ .fg := by simp [hi]
  cases h
  case refuseWord hc _ _ _ | refuseVariant hc _ _ _ | acceptNoOp hc _ _ _ | accept hc _ _ _ | micro hc _ =>
    exact absurd hc notFg
  case access h => exact h.foregroundKept
  all_goals exact ⟨rfl, rfl, rfl, rfl, rfl, rfl, rfl, rfl⟩

/-- Settles O46: a step is a move from the state with its turn taken, and no move in the interrupt context touches the
foreground. -/
theorem handlerFreezesTheForeground : Obligations.HandlerFreezesTheForeground := by
  intro s t hi h
  obtain ⟨seqOp, seqStep, latchA, latchB, latchRes, latchT, cmds, port⟩ := (step_moves h).2.foregroundKept hi
  exact ⟨seqOp, seqStep, latchA, latchB, latchRes, latchT, cmds, port⟩

/-! ### Invariant: the flags (R21, R22, R89) -/

section
variable {turn : Turn} {u t : State}

theorem Micro.keeps_flags (h : Micro u t) (inv : FlagsInv u) : FlagsInv t := by
  obtain ⟨ready, pending, empty⟩ := inv
  cases h
  case resetDisable => exact ⟨nofun, nofun, nofun⟩
  case enable | enableDone => exact ⟨ready, pending, fun _ => rfl⟩
  case send => exact ⟨ready, fun _ => ⟨rfl, rfl⟩, nofun⟩
  case receive | receiveLate => exact ⟨nofun, pending, empty⟩
  all_goals exact ⟨ready, pending, empty⟩

theorem Move.keeps_flags (hh : turn.harness = false) (h : Move turn u t) (inv : FlagsInv u) : FlagsInv t := by
  obtain ⟨ready, pending, empty⟩ := inv
  cases h
  case micro h => exact h.keeps_flags ⟨ready, pending, empty⟩
  case handlerRead | handlerReadEmpty | take => exact ⟨nofun, pending, empty⟩
  case arrive => exact ⟨fun _ => rfl, pending, empty⟩
  case overrun r _ _ _ hr hw =>
    refine ⟨fun _ => ?_, pending, empty⟩
    rcases hw with rfl | rfl
    · exact ready hr
    · rfl
  case drain he _ _ | drainReady he _ _ => exact ⟨ready, nofun, fun _ => he⟩
  case access ht _ _ => exact absurd (hh.symm.trans ht) Bool.false_ne_true
  all_goals exact ⟨ready, pending, empty⟩

/-! ### Invariant: the sequencer (R12) -/

/-- At step 0 no earlier step has anything to establish. -/
theorem SequencerInv.of_step_zero (h0 : t.seqStep = 0#4) (hop : t.seqOp.toNat ≤ 5)
    (hbusy : t.seqOp ≠ 0x00#8 → t.cfg.variant ≠ .noOpDriver ∧ t.latchA.isSome = true ∧ t.latchB.isSome = true)
    (htel : t.seqOp = 0x04#8 ∨ t.seqOp = 0x05#8 → t.cfg.variant = .telemetryDriver) : SequencerInv t := by
  have zero : t.seqStep.toNat = 0 := by simp [h0]
  exact ⟨hop, by omega, hbusy, htel, fun _ _ => by omega, fun _ _ => by omega, fun _ _ => by omega,
    fun _ _ => by omega⟩

theorem SequencerInv.of_idle (ho : t.seqOp = 0x00#8) (h0 : t.seqStep = 0#4) : SequencerInv t :=
  .of_step_zero h0 (by simp [ho]) (by simp [ho]) (by simp [ho])

/-- A step of CONFIGURE or TPINIT after its admission: the divisor is latched, and from step 2 the clock is on. -/
theorem SequencerInv.of_configuration (ho : t.seqOp = 0x01#8 ∨ t.seqOp = 0x04#8)
    (hs : t.seqStep.toNat ≤ lastStep t.cfg t.seqOp)
    (hbusy : t.cfg.variant ≠ .noOpDriver ∧ t.latchA.isSome = true ∧ t.latchB.isSome = true)
    (htel : t.seqOp = 0x04#8 ∨ t.seqOp = 0x05#8 → t.cfg.variant = .telemetryDriver)
    (hdiv : t.latchT.isSome = true ∧ t.latchT.all (fun d => decide (d.toNat < 2 ^ t.cfg.divisorWidth)) = true)
    (hclk : 2 ≤ t.seqStep.toNat → t.clk = true) : SequencerInv t := by
  refine ⟨?_, hs, fun _ => hbusy, htel, fun _ _ => hdiv, fun _ => hclk, ?_, ?_⟩ <;>
    rcases ho with ho | ho <;> simp [ho]

/-- A step goes on with the same command: its opcode, its operands and its divisor stand. -/
structure SameCommand (u t : State) : Prop where
  cfg : t.cfg = u.cfg
  seqOp : t.seqOp = u.seqOp
  latchA : t.latchA = u.latchA
  latchB : t.latchB = u.latchB
  latchT : t.latchT = u.latchT

/-- A further step of CONFIGURE or TPINIT that leaves the clock on. -/
theorem SequencerInv.configuration_step (inv : SequencerInv u) (ho : u.seqOp = 0x01#8 ∨ u.seqOp = 0x04#8)
    (h1 : 1 ≤ u.seqStep.toNat) (same : SameCommand u t) (hs : t.seqStep.toNat ≤ lastStep u.cfg u.seqOp)
    (hclk : t.clk = true) : SequencerInv t := by
  obtain ⟨cfg, seqOp, latchA, latchB, latchT⟩ := same
  obtain ⟨-, -, hbusy, htel, hdiv, -⟩ := inv
  have busy : u.seqOp ≠ 0x00#8 := by rcases ho with ho | ho <;> simp [ho]
  rw [← cfg, ← seqOp] at hs htel
  refine .of_configuration (seqOp ▸ ho) hs ?_ htel ?_ fun _ => hclk
  · rw [cfg, latchA, latchB]
    exact hbusy busy
  · rw [cfg, latchT]
    exact hdiv ho h1

/-- A step of STOP, PUTC or TPRECV that went on with the clock on: step 1 is the last. -/
theorem SequencerInv.short_step (inv : SequencerInv u) (ho : u.seqOp = 0x02#8 ∨ u.seqOp = 0x03#8 ∨ u.seqOp = 0x05#8)
    (cfg : t.cfg = u.cfg) (seqOp : t.seqOp = u.seqOp) (latchA : t.latchA = u.latchA) (latchB : t.latchB = u.latchB)
    (hs : t.seqStep.toNat ≤ 1) (hclk : t.clk = true)
    (htxe : u.seqOp = 0x03#8 → 1 ≤ t.seqStep.toNat → t.txe = true) : SequencerInv t := by
  obtain ⟨hop, -, hbusy, htel, -⟩ := inv
  rw [SequencerInv, cfg, seqOp, latchA, latchB]
  have last : lastStep u.cfg u.seqOp = 1 := by rcases ho with ho | ho | ho <;> simp [lastStep, ho]
  have notConfiguration : ¬ (u.seqOp = 0x01#8 ∨ u.seqOp = 0x04#8) := by
    rcases ho with ho | ho | ho <;> simp [ho]
  exact ⟨hop, last.symm ▸ hs, hbusy, htel, fun h => absurd h notConfiguration, fun h => absurd h notConfiguration,
    fun _ _ => hclk, htxe⟩

/-- CONFIGURE and TPINIT have steps 0 to 6 in every variant (R110, R150). -/
theorem le_lastStep {c : Config} {op : Opcode} {n : Nat} (ho : op = 0x01#8 ∨ op = 0x04#8) (hn : n ≤ 6) :
    n ≤ lastStep c op := by
  refine hn.trans ?_
  rcases ho with rfl | rfl
  · simp only [lastStep, if_true]
    split <;> simp
  · simp [lastStep]

/-- A divisor that was admitted fits where it is latched (R112, R113). -/
theorem toNat_ofNat_lt {n w : Nat} (h : n < 2 ^ w) : (BitVec.ofNat 32 n).toNat < 2 ^ w := by
  rw [BitVec.toNat_ofNat]
  exact (Nat.mod_le _ _).trans_lt h

theorem Micro.keeps_sequencer (h : Micro u t) (inv : SequencerInv u) : SequencerInv t := by
  cases h
  case configureAdmit ho h0 hd =>
    obtain ⟨-, -, hbusy, htel, -⟩ := inv
    exact .of_configuration (.inl ho) (le_lastStep (.inl ho) (by simp)) (hbusy (by simp [ho])) htel
      ⟨rfl, decide_eq_true (toNat_ofNat_lt hd)⟩ (by simp)
  case tpinitAdmit ho h0 hd =>
    obtain ⟨-, -, hbusy, htel, -⟩ := inv
    obtain ⟨variant, -⟩ := hbusy (by simp [ho])
    exact .of_configuration (.inr ho) (le_lastStep (.inr ho) (by simp)) ⟨variant, rfl, rfl⟩ htel
      ⟨rfl, decide_eq_true (toNat_ofNat_lt hd)⟩ (by simp)
  case clockOn ho h1 =>
    exact inv.configuration_step ho (by simp [h1]) ⟨rfl, rfl, rfl, rfl, rfl⟩
      (le_lastStep ho (by simp)) rfl
  case resetDisable ho hs hk | mode ho hs hk | transfersOff ho hs hk =>
    exact inv.configuration_step ho (by simp [hs]) ⟨rfl, rfl, rfl, rfl, rfl⟩
      (le_lastStep ho (by simp)) hk
  case divisorStored ho h4 hk _ =>
    exact inv.configuration_step ho (by simp [h4]) ⟨rfl, rfl, rfl, rfl, rfl⟩
      (le_lastStep ho (by simp)) hk
  case enable ho h6 hk =>
    refine inv.configuration_step (ho.imp_left And.left) (by simp [h6]) ⟨rfl, rfl, rfl, rfl, rfl⟩ ?_ hk
    rcases ho with ⟨ho, hv⟩ | ho
    · simp [lastStep, ho, hv]
    · simp [lastStep, ho]
  case unmask ho hv h7 hk =>
    exact inv.configuration_step (.inl ho) (by simp [h7]) ⟨rfl, rfl, rfl, rfl, rfl⟩ (by simp [lastStep, ho, hv]) hk
  case mask ho h0 hk =>
    exact inv.short_step (.inl ho) rfl rfl rfl rfl (by simp) hk (fun h => absurd (ho.symm.trans h) (by decide))
  case poll v ho h0 hk =>
    refine inv.short_step (.inr (.inl ho)) rfl rfl rfl rfl ?_ hk fun _ => ?_
    · show (if u.txe then 1#4 else 0#4 : BitVec 4).toNat ≤ 1
      split <;> decide
    · show 1 ≤ (if u.txe then 1#4 else 0#4 : BitVec 4).toNat → u.txe = true
      split <;> simp_all
  case ready ho h0 hk _ =>
    exact inv.short_step (.inr (.inr ho)) rfl rfl rfl rfl (by simp) hk
      (fun h => absurd (ho.symm.trans h) (by decide))
  case enableDone | lineOn | lineOff | send | arm | noByte | receive | receiveLate => exact .of_idle rfl rfl
  all_goals exact inv

theorem Move.keeps_sequencer (hh : turn.harness = false) (h : Move turn u t) (inv : SequencerInv u) :
    SequencerInv t := by
  cases h
  case micro h => exact h.keeps_sequencer inv
  case accept op _ _ _ _ _ _ hv =>
    refine .of_step_zero rfl ?_ (fun _ => ⟨?_, rfl, rfl⟩) ?_
    all_goals rcases hv with ⟨rfl | rfl | rfl, hv⟩ | ⟨rfl | rfl, hv⟩ <;> simp [hv]
  case drain | drainReady =>
    obtain ⟨hop, hstep, hbusy, htel, hdiv, hclk, hclk', -⟩ := inv
    exact ⟨hop, hstep, hbusy, htel, hdiv, hclk, hclk', fun _ _ => rfl⟩
  case access ht _ _ => exact absurd (hh.symm.trans ht) Bool.false_ne_true
  all_goals exact inv

/-! ### Invariant: the clock gate (R14, R80, R214) -/

/-- With the clock on there is nothing to keep. -/
theorem ClockInv.of_clk (hk : t.clk = true) : ClockInv t :=
  fun h => absurd (hk.symm.trans h) Bool.noConfusion

/-- Every micro-operation that touches the registers or the line runs with the clock on: a register access by R80, the
line's by what the sequencer has established. -/
theorem Micro.keeps_clock (h : Micro u t) (inv : ClockInv u) (sequencer : SequencerInv u) : ClockInv t := by
  obtain ⟨-, -, -, -, -, hclk, hclk', -⟩ := sequencer
  cases h
  case clockOn => exact .of_clk rfl
  case lineOn ho _ h8 => exact .of_clk (hclk (.inl ho) (by simp [h8]))
  case lineOff ho h1 => exact .of_clk (hclk' (.inl ho) (by simp [h1]))
  case resetDisable hk | mode hk | divisorStored hk _ | transfersOff hk | enable hk | enableDone hk | unmask hk |
      mask hk | send hk _ | arm hk | receive hk _ | receiveLate hk _ =>
    exact .of_clk hk
  all_goals exact inv

theorem Move.keeps_clock (hh : turn.harness = false) (h : Move turn u t) (inv : ClockInv u)
    (sequencer : SequencerInv u) : ClockInv t := by
  cases h
  case micro h => exact h.keeps_clock inv sequencer
  case handlerRead hk _ | handlerReadEmpty hk _ | arrive hk _ _ | drain hk _ _ _ | drainReady hk _ _ _ |
      take hk _ _ =>
    exact .of_clk hk
  case access ht _ _ => exact absurd (hh.symm.trans ht) Bool.false_ne_true
  all_goals exact inv

/-! ### Invariant: the registers (R73, R86, R170) -/

theorem Micro.keeps_registers (h : Micro u t) (inv : RegistersInv u) (sequencer : SequencerInv u) :
    RegistersInv t := by
  obtain ⟨hmr, hbrgr, htx, hrx⟩ := inv
  obtain ⟨-, -, -, htel, -⟩ := sequencer
  cases h
  case mode => exact ⟨.inr rfl, hbrgr, htx, hrx⟩
  case divisorStored hd => exact ⟨hmr, decide_eq_true hd, htx, hrx⟩
  case transfersOff => exact ⟨hmr, hbrgr, rfl, nofun⟩
  case arm ho _ _ => exact ⟨hmr, hbrgr, htx, fun _ => htel (.inl ho)⟩
  all_goals exact ⟨hmr, hbrgr, htx, hrx⟩

theorem Move.keeps_registers (hh : turn.harness = false) (h : Move turn u t) (inv : RegistersInv u)
    (sequencer : SequencerInv u) : RegistersInv t := by
  cases h
  case micro h => exact h.keeps_registers inv sequencer
  case access ht _ _ => exact absurd (hh.symm.trans ht) Bool.false_ne_true
  all_goals exact inv

/-! ### Invariant: the handler (R143, R144) -/

/-- In the foreground the handler's part asks for the interrupt path's variant only. -/
theorem HandlerInv.of_fg (hc : t.ctx = .fg) (hi : t.istep = 0#2)
    (path : t.imrRxrdy = true ∨ t.lineEn = true → t.cfg.variant = .interruptDriver) : HandlerInv t :=
  ⟨path, fun _ => hi, fun h => absurd (hc.symm.trans h) Ctx.noConfusion⟩

theorem Micro.keeps_handler (hc : u.ctx = .fg) (h : Micro u t) (inv : HandlerInv u) : HandlerInv t := by
  obtain ⟨path, idle, handling⟩ := inv
  cases h
  case unmask hv _ _ | lineOn hv _ => exact .of_fg hc (idle hc) fun _ => hv
  case mask => exact .of_fg hc (idle hc) fun h => path (h.imp_left Bool.noConfusion)
  case lineOff => exact .of_fg hc (idle hc) fun h => path (h.imp_right Bool.noConfusion)
  all_goals exact .of_fg hc (idle hc) path

theorem dispatchEnabled_iff (u : State) : u.dispatchEnabled = true ↔
    u.cfg.variant = .interruptDriver ∧ u.ctx = .fg ∧ (u.clk = true ∧ u.rxrdy = true ∧ u.imrRxrdy = true) ∧
      u.lineEn = true ∧ u.seqOp ≠ 0x01#8 ∧ u.seqOp ≠ 0x02#8 := by
  simp [State.dispatchEnabled, State.irqReq, Config.debug, Opcode.configure, Opcode.stop, and_assoc]

/-- While the handler runs the byte stays: the one other agent that clears receive-ready has its channel armed in
`TelemetryDriver` only (R143, R170). -/
theorem Move.keeps_handler (hh : turn.harness = false) (h : Move turn u t) (inv : HandlerInv u)
    (registers : RegistersInv u) : HandlerInv t := by
  obtain ⟨path, idle, handling⟩ := inv
  cases h
  case micro hc h => exact h.keeps_handler hc ⟨path, idle, handling⟩
  case accept hc _ _ _ => exact .of_fg hc (idle hc) path
  case dispatch hd =>
    obtain ⟨hv, -, ⟨hk, hr, -⟩, -, h1, h2⟩ := (dispatchEnabled_iff u).mp hd
    exact ⟨path, nofun, fun _ => ⟨hv, hk, h1, h2, Nat.zero_le _, fun _ => hr, nofun⟩⟩
  case handlerRead hc _ _ _ | handlerReadEmpty hc _ _ _ =>
    obtain ⟨hv, hk, h1, h2, -⟩ := handling hc
    exact ⟨path, fun h => absurd (hc.symm.trans h) Ctx.noConfusion,
      fun _ => ⟨hv, hk, h1, h2, le_rfl, nofun, fun _ => rfl⟩⟩
  case handlerPush | handlerDrop | handlerOverwrite => exact .of_fg rfl rfl path
  case arrive =>
    refine ⟨path, idle, fun hc => ?_⟩
    obtain ⟨hv, hk, h1, h2, hs, -, latched⟩ := handling hc
    exact ⟨hv, hk, h1, h2, hs, fun _ => rfl, latched⟩
  case take he _ =>
    obtain ⟨-, -, -, hrx⟩ := registers
    refine ⟨path, idle, fun hc => ?_⟩
    obtain ⟨hv, -⟩ := handling hc
    exact absurd ((hrx he).symm.trans hv) Variant.noConfusion
  case access ht _ _ => exact absurd (hh.symm.trans ht) Bool.false_ne_true
  all_goals exact ⟨path, idle, handling⟩

/-! ### Invariant: the receive buffer (R27, R143) -/

theorem Micro.keeps_buffer (h : Micro u t) (inv : BufferInv u) : BufferInv t := by
  cases h <;> exact inv

theorem Move.keeps_buffer (h : Move turn u t) (inv : BufferInv u) (handler : HandlerInv u) : BufferInv t := by
  obtain ⟨bound, used⟩ := inv
  obtain ⟨-, -, handling⟩ := handler
  cases h
  case micro h => exact h.keeps_buffer ⟨bound, used⟩
  case access h => cases h <;> exact ⟨bound, used⟩
  case handlerPush hc _ hn =>
    obtain ⟨hv, -⟩ := handling hc
    exact ⟨by simpa using hn, fun _ => hv⟩
  case handlerOverwrite hc _ hn _ =>
    obtain ⟨hv, -⟩ := handling hc
    refine ⟨?_, fun _ => hv⟩
    simp only [List.length_append, List.length_drop, List.length_singleton]
    omega
  case pop b bs _ _ _ hb =>
    rw [hb] at bound used
    exact ⟨(Nat.le_succ _).trans bound, fun _ => used (List.cons_ne_nil b bs)⟩
  all_goals exact ⟨bound, used⟩

/-! ### The invariant of the block -/

/-- No move puts a turn on the agenda (R173). -/
theorem Move.keeps_noHarness (h : Move turn u t) (inv : u.noHarness) : t.noHarness := by
  rw [State.noHarness, h.frame.agenda]
  exact inv

theorem Move.keeps_blockInv (hh : turn.harness = false) (h : Move turn u t) (inv : BlockInv u) : BlockInv t := by
  obtain ⟨agenda, flags, clock, registers, sequencer, handler, buffer⟩ := inv
  exact ⟨h.keeps_noHarness agenda, h.keeps_flags hh flags, h.keeps_clock hh clock sequencer,
    h.keeps_registers hh registers sequencer, h.keeps_sequencer hh sequencer, h.keeps_handler hh handler registers,
    h.keeps_buffer buffer handler⟩

/-- Taking the next turn, or a free choice of one, is not of the block's registers. -/
theorem BlockInv.turnTaken {s : State} (inv : BlockInv s) (draws : Nat) :
    BlockInv { s with agenda := s.agenda.tail, draws := draws } := by
  obtain ⟨agenda, rest⟩ := inv
  refine ⟨?_, rest⟩
  simp only [State.noHarness, List.all_eq_true] at agenda ⊢
  exact fun turn h => agenda turn (List.mem_of_mem_tail h)

end

/-- Settles O57: at reset every flag is clear, every register unwritten, the sequencer idle and the buffer empty. -/
theorem invariantHoldsAtReset : Obligations.InvariantHoldsAtReset := fun _ =>
  ⟨rfl, ⟨nofun, nofun, nofun⟩, fun _ => ⟨rfl, rfl, rfl, rfl, rfl, rfl, rfl, rfl, rfl, rfl⟩,
    ⟨.inl rfl, rfl, rfl, nofun⟩, .of_idle rfl rfl, .of_fg rfl rfl (by simp [State.resetOf]),
    ⟨by simp [State.resetOf], fun h => absurd rfl h⟩⟩

/-- Settles O58: a step is a move of an agent that is no harness, from the state with its turn taken, and such a move
keeps each part of the invariant. -/
theorem everyStepKeepsTheInvariant : Obligations.EveryStepKeepsTheInvariant := by
  intro s t inv h
  have hh := nextTurn_harness inv.1
  exact (step_moves h).2.keeps_blockInv hh (inv.turnTaken _)

end Sys2Proof.Machine
end

section
/-! PROOFS. The memory family (20_memory.md): an access by address is the access of the header it reaches (R41, R64, R74),
and an address outside the block is refused (log 24). -/

namespace Sys2Proof.Machine

/-- With a turn first on the agenda the step runs it, where no mark stands (R31, R172). -/
theorem step_of_agenda_cons (s : State) (t : Turn) (rest : List Turn) :
    step { s with agenda := t :: rest } = whenLive s (runTurn t { s with agenda := rest }) := rfl

/-! ### Accesses by address -/

/-- From `UART_BASE` on each of the 4096 offsets reaches the header that carries it (R41, R74). -/
theorem memTurn_of_offset (we : Bool) (offset : BitVec 12) (size : Nat) (data : Word) (u : State) :
    memTurn we (u.cfg.uartBase + offset.toNat) size data u = busTurn (BitVec.ofBool we ++ offset) size data u := by
  have inBlock : u.cfg.uartBase ≤ u.cfg.uartBase + offset.toNat ∧
      u.cfg.uartBase + offset.toNat < u.cfg.uartBase + 2 ^ 12 :=
    ⟨Nat.le_add_right _ _, Nat.add_lt_add_left offset.isLt _⟩
  rw [memTurn, if_pos inBlock, Nat.add_sub_cancel_left, BitVec.ofNat_toNat, BitVec.setWidth_eq]

/-- An address that no header names is refused, whatever the size of the access (log 24). -/
theorem memTurn_of_outside {addr : Nat} {u : State}
    (outside : addr < u.cfg.uartBase ∨ u.cfg.uartBase + 0xFFF < addr) (we : Bool) (size : Nat) (data : Word) :
    memTurn we addr size data u =
      .next (u.refuse (.badBusAccess we ((addr : Int) - (u.cfg.uartBase : Int)))) :=
  if_neg (by omega)

/-- Settles O12: the turn by address is the header's at an offset of the block, in a marked state too, where neither
runs; outside the block it is the refusal. -/
theorem addressedAccessIsTheRegistersAccess : Obligations.AddressedAccessIsTheRegistersAccess := by
  intro s rest we size data
  refine ⟨fun offset => ?_, fun addr hl ha outside => ?_⟩
  · rw [step_of_agenda_cons, step_of_agenda_cons]
    exact congrArg (whenLive s) (memTurn_of_offset we offset size data { s with agenda := rest })
  · exact (step_of_turn hl ha).trans (memTurn_of_outside (u := { s with agenda := rest }) outside we size data)

end Sys2Proof.Machine
end

section
/-! PROOFS. The encoding family (30_encoding.md), the decoder: what each opcode decodes to (R57, R60, R61), and that the
decoder and the encoder are inverse to each other (R56, R74). -/

namespace Sys2Proof

/-! ### The decoder, one equation for each opcode -/

section
variable {cw : CmdWord}

theorem decodeCmd_of_configure (h : cw.opc = Opcode.configure) : decodeCmd cw = .ok (.configure cw.opA cw.opB) := by
  simp [decodeCmd, h]

theorem decodeCmd_of_stop (h : cw.opc = Opcode.stop) :
    decodeCmd cw = if cw.opA = 0#32 ∧ cw.opB = 0#32 then .ok .stop else .error (.reservedOperandBits cw) := by
  simp [decodeCmd, h, Opcode.stop, Opcode.configure]

theorem decodeCmd_of_putc (h : cw.opc = Opcode.putc) :
    decodeCmd cw = if cw.opA.extractLsb' 8 24 = 0#24 ∧ cw.opB = 0#32 then .ok (.putc (lowByte cw.opA))
      else .error (.reservedOperandBits cw) := by
  simp [decodeCmd, h, Opcode.putc, Opcode.stop, Opcode.configure]

theorem decodeCmd_of_tpinit (h : cw.opc = Opcode.tpinit) :
    decodeCmd cw = if cw.opA.extractLsb' 8 24 = 0#24 ∧ cw.opB = 0#32 then .ok (.tpinit (lowByte cw.opA))
      else .error (.reservedOperandBits cw) := by
  simp [decodeCmd, h, Opcode.tpinit, Opcode.putc, Opcode.stop, Opcode.configure]

theorem decodeCmd_of_tprecv (h : cw.opc = Opcode.tprecv) :
    decodeCmd cw = if cw.opA = 0#32 ∧ cw.opB = 0#32 then .ok .tprecv else .error (.reservedOperandBits cw) := by
  simp [decodeCmd, h, Opcode.tprecv, Opcode.tpinit, Opcode.putc, Opcode.stop, Opcode.configure]

theorem decodeCmd_of_rxisr (h : cw.opc = Opcode.rxisr) : decodeCmd cw = .ok .rxisr := by
  simp [decodeCmd, h, Opcode.rxisr, Opcode.tprecv, Opcode.tpinit, Opcode.putc, Opcode.stop, Opcode.configure]

/-- Every opcode is one of the map of R57, or spells no command (R61). -/
theorem Opcode.mapped_or_reserved (op : Opcode) :
    op = Opcode.configure ∨ op = Opcode.stop ∨ op = Opcode.putc ∨ op = Opcode.tpinit ∨ op = Opcode.tprecv ∨
      op = Opcode.rxisr ∨ op = 0x00#8 ∨ 0x07#8 ≤ op := by
  simp only [Opcode.configure, Opcode.stop, Opcode.putc, Opcode.tpinit, Opcode.tprecv, Opcode.rxisr]
  bv_omega

theorem decodeCmd_of_reserved (h : cw.opc = 0x00#8 ∨ 0x07#8 ≤ cw.opc) :
    decodeCmd cw = .error (.reservedOpcode cw.opc) := by
  have unmapped : cw.opc ≠ Opcode.configure ∧ cw.opc ≠ Opcode.stop ∧ cw.opc ≠ Opcode.putc ∧
      cw.opc ≠ Opcode.tpinit ∧ cw.opc ≠ Opcode.tprecv ∧ cw.opc ≠ Opcode.rxisr := by
    simp only [Opcode.configure, Opcode.stop, Opcode.putc, Opcode.tpinit, Opcode.tprecv, Opcode.rxisr]
    bv_omega
  obtain ⟨configure, stop, putc, tpinit, tprecv, rxisr⟩ := unmapped
  simp only [decodeCmd, if_neg, configure, stop, putc, tpinit, tprecv, rxisr, not_false_eq_true]

end

/-! ### Decode after encode -/

/-- Settles O3: the word of a command has the command's opcode and operands, with no reserved bit set; each of the ten
headers is its own case of the decoder. -/
theorem decodeOfEncodeIsTheInstruction : Obligations.DecodeOfEncodeIsTheInstruction := by
  intro i
  cases i with
  | configure b m => simp [decode, encode, decodeCmd_of_configure]
  | stop => simp [decode, encode, decodeCmd_of_stop]
  | putc c => simp [decode, encode, decodeCmd_of_putc]
  | tpinit p => simp [decode, encode, decodeCmd_of_tpinit]
  | tprecv => simp [decode, encode, decodeCmd_of_tprecv]
  | rxisr => simp [decode, encode, decodeCmd_of_rxisr]
  | regWriteCR | regWriteMR | regReadMR | regWriteIER | regWriteIDR | regReadSR | regReadRHR | regWriteTHR
  | regWriteBRGR | regWritePTCR => rfl

/-! ### Encode after decode -/

/-- Where the decoder tests the reserved bits it answers an instruction only if the test passed (R60). -/
theorem of_ite_eq_ok {p : Prop} [Decidable p] {e : DecodeError} {i j : Instr}
    (h : (if p then .ok j else .error e : Except DecodeError Instr) = .ok i) : p ∧ j = i := by
  split at h <;> cases h
  exact ⟨‹p›, rfl⟩

/-- A command word that decodes has no operand bit but those its command reads; only RXISR leaves bits unread. -/
theorem encode_of_decodeCmd {cw : CmdWord} {i : Instr} (hd : decodeCmd cw = .ok i) (hi : i ≠ .rxisr) :
    encode i = .cmd cw := by
  refine Eq.trans ?_ (congrArg Fetch.cmd cw.ofFields_fields)
  rcases Opcode.mapped_or_reserved cw.opc with h | h | h | h | h | h | h
  · rw [decodeCmd_of_configure h] at hd
    obtain rfl := Except.ok.inj hd
    rw [h, encode]
  · obtain ⟨⟨ha, hb⟩, rfl⟩ := of_ite_eq_ok ((decodeCmd_of_stop h).symm.trans hd)
    rw [h, ha, hb, encode]
  · obtain ⟨⟨ha, hb⟩, rfl⟩ := of_ite_eq_ok ((decodeCmd_of_putc h).symm.trans hd)
    rw [h, hb, encode, toWord_lowByte ha]
  · obtain ⟨⟨ha, hb⟩, rfl⟩ := of_ite_eq_ok ((decodeCmd_of_tpinit h).symm.trans hd)
    rw [h, hb, encode, toWord_lowByte ha]
  · obtain ⟨⟨ha, hb⟩, rfl⟩ := of_ite_eq_ok ((decodeCmd_of_tprecv h).symm.trans hd)
    rw [h, ha, hb, encode]
  · rw [decodeCmd_of_rxisr h] at hd
    exact absurd (Except.ok.inj hd).symm hi
  · rw [decodeCmd_of_reserved h] at hd
    cases hd

/-- A header that decodes is its register's, with the direction of the access (R64, R74). -/
theorem encode_of_decodeBus {h : Header} {d : Word} {i : Instr} (hd : decodeBus h d = .ok i) :
    encode i = .bus h (if h.getLsbD 12 then d else 0#32) := by
  unfold decodeBus at hd
  split_ifs at hd
  all_goals
    subst h
    obtain rfl := Except.ok.inj hd
    rfl

/-- Settles O4: one half for each kind of fetch. -/
theorem decodableFetchIsWhatTheEncoderWrites : Obligations.DecodableFetchIsWhatTheEncoderWrites :=
  ⟨fun _ _ => encode_of_decodeCmd, fun _ _ _ => encode_of_decodeBus⟩

/-- Settles O5: the decoder evaluates on each. -/
theorem writtenOutWordsDecode : Obligations.WrittenOutWordsDecode :=
  ⟨rfl, rfl, rfl, rfl, rfl, rfl, rfl⟩

end Sys2Proof
end

section
/-! PROOFS. The encoding family (30_encoding.md), the machine: the word at the command port (R53, R59 to R61), the word
placed where a step fetches it (R57, R74), acceptance (R56, R59), and the range of the results (R62). -/

namespace Sys2Proof.Machine

/-! ### The word at the command port -/

/-- An idle sequencer's turn takes the first command word from the port (R53, R59). -/
theorem fgTurn_of_presented {u : State} {cw : CmdWord} {cs : List CmdWord} (hc : u.ctx = .fg)
    (ho : u.seqOp = 0x00#8) (hw : u.cmds = cw :: cs) : fgTurn u = presentWord cw { u with cmds := cs } := by
  simp only [fgTurn, hc, if_pos ho, hw]

theorem step_of_presented {s : State} {rest : List Turn} {cw : CmdWord} {cs : List CmdWord} (hl : s.live)
    (hc : s.ctx = .fg) (ho : s.seqOp = 0x00#8) (ha : s.agenda = .fg :: rest) (hw : s.cmds = cw :: cs) :
    step s = presentWord cw { s with agenda := rest, cmds := cs } :=
  (step_of_turn hl ha).trans (fgTurn_of_presented (u := { s with agenda := rest }) hc ho hw)

theorem presentWord_of_ok {cw : CmdWord} {i : Instr} (u : State) (hd : decode (.cmd cw) = .ok i) :
    presentWord cw u = exec i u := by
  simp only [presentWord, hd]

theorem presentWord_of_error {cw : CmdWord} {e : DecodeError} (u : State) (hd : decode (.cmd cw) = .error e) :
    presentWord cw u = .next (u.refuse (refusalOf e)) := by
  simp only [presentWord, hd]

/-- In the foreground RXISR is no command (R61, log 19). -/
theorem exec_rxisr_of_fg {u : State} (hl : u.live) (hc : u.ctx = .fg) :
    exec .rxisr u = .next (u.refuse (.reservedOpcode Opcode.rxisr)) := by
  simp only [exec, execRxisr, whenLive_of_live _ hl.1 hl.2, hc]

/-- A word with a reserved opcode is refused at the port, whether it spells nothing or the handler (R61). -/
theorem presentWord_of_reserved {u : State} {cw : CmdWord} (hl : u.live) (hc : u.ctx = .fg)
    (hop : cw.opc = 0x00#8 ∨ 0x06#8 ≤ cw.opc) :
    presentWord cw u = .next (u.refuse (.reservedOpcode cw.opc)) := by
  by_cases handler : cw.opc = Opcode.rxisr
  · rw [presentWord_of_ok u (decodeCmd_of_rxisr handler), exec_rxisr_of_fg hl hc, handler]
  · refine presentWord_of_error u (decodeCmd_of_reserved (hop.imp_right fun above => ?_))
    simp only [Opcode.rxisr] at handler
    bv_omega

/-- Settles O6: the step presents the word, and the port refuses it. -/
theorem reservedOpcodeIsRefused : Obligations.ReservedOpcodeIsRefused :=
  fun _ _ _ _ hl hc ho ha hw hop => (step_of_presented hl hc ho ha hw).trans (presentWord_of_reserved hl hc hop)

/-! ### Reserved operand bits (R60) -/

/-- The two operands are the low 64 bits of the word (R56). -/
theorem operands_zero {cw : CmdWord} (ha : cw.opA = 0#32) (hb : cw.opB = 0#32) : cw.extractLsb' 0 64 = 0#64 := by
  have operands : (cw.opA ++ cw.opB : BitVec (32 + 32)) = cw.extractLsb' 0 64 :=
    BitVec.extractLsb'_append_extractLsb'_eq_extractLsb' rfl
  rw [← operands, ha, hb, BitVec.zero_append_zero]

/-- The bits of the first operand above its byte are bits 63 to 40 of the word (R56, R60). -/
theorem upper_opA (cw : CmdWord) : cw.opA.extractLsb' 8 24 = cw.extractLsb' 40 24 := by
  apply BitVec.eq_of_getLsbD_eq
  intro k hk
  simp only [CmdWord.opA, BitVec.getLsbD_extractLsb', ← Nat.add_assoc]
  simp [hk, show 8 + k < 32 by omega]

/-- STOP and TPRECV take no operand: every bit of theirs is reserved (R60). -/
theorem decode_of_operandGiven {cw : CmdWord} (hop : cw.opc = Opcode.stop ∨ cw.opc = Opcode.tprecv)
    (hb : cw.extractLsb' 0 64 ≠ 0#64) : decode (.cmd cw) = .error (.reservedOperandBits cw) := by
  have given : ¬ (cw.opA = 0#32 ∧ cw.opB = 0#32) := fun zero => hb (operands_zero zero.1 zero.2)
  rcases hop with h | h
  · exact (decodeCmd_of_stop h).trans (if_neg given)
  · exact (decodeCmd_of_tprecv h).trans (if_neg given)

/-- PUTC and TPINIT take a byte: every bit above it, and the second operand, is reserved (R60). -/
theorem decode_of_wideOperand {cw : CmdWord} (hop : cw.opc = Opcode.putc ∨ cw.opc = Opcode.tpinit)
    (hb : cw.extractLsb' 40 24 ≠ 0#24 ∨ cw.opB ≠ 0#32) :
    decode (.cmd cw) = .error (.reservedOperandBits cw) := by
  have wide : ¬ (cw.opA.extractLsb' 8 24 = 0#24 ∧ cw.opB = 0#32) := by
    rw [upper_opA]
    exact not_and_or.mpr hb
  rcases hop with h | h
  · exact (decodeCmd_of_putc h).trans (if_neg wide)
  · exact (decodeCmd_of_tpinit h).trans (if_neg wide)

/-- Settles O7: the decoder answers the error before any instruction is run, and the port refuses the word for it. -/
theorem reservedOperandBitsAreRefused : Obligations.ReservedOperandBitsAreRefused := by
  intro s rest cw cs hl hc ho ha hw hb
  have reserved : decode (.cmd cw) = .error (.reservedOperandBits cw) := by
    rcases hb with ⟨hop, hb⟩ | ⟨hop, hb⟩
    · exact decode_of_operandGiven hop hb
    · exact decode_of_wideOperand hop hb
  exact (step_of_presented hl hc ho ha hw).trans (presentWord_of_error _ reserved)

/-- Settles O9: the step presents the word, and the port runs what it decodes to. -/
theorem stepRunsThePresentedCommand : Obligations.StepRunsThePresentedCommand :=
  fun _ _ _ _ _ hl hc ho ha hw hd => (step_of_presented hl hc ho ha hw).trans (presentWord_of_ok _ hd)

/-! ### A word placed where the next step fetches it (log 4, log 18, log 19) -/

/-- A word of the opcode table that decodes is a fetch that decodes. -/
theorem decodeTableWord_eq_some {nbits w : Nat} {i : Instr} (h : decodeTableWord nbits w = some i) :
    ∃ f, fetchOfTableWord nbits w = some f ∧ decode f = .ok i := by
  unfold decodeTableWord at h
  split at h
  · cases h
  · rename_i f hf
    split at h <;> cases h
    exact ⟨f, hf, ‹_›⟩

theorem step_of_turnPlaced {s : State} (turn : Turn) (hl : s.live) :
    step { s with agenda := turn :: s.agenda } = runTurn turn s :=
  step_of_turn (s := { s with agenda := turn :: s.agenda }) hl rfl

/-- A placed bus access is run in the state as it is (R74, log 18). -/
theorem step_placeFetch_bus {s : State} {h : Header} {d : Word} {i : Instr} (hl : s.live)
    (hd : decode (.bus h d) = .ok i) : step (placeFetch (.bus h d) s) = exec i s :=
  (step_of_turnPlaced (.bus h 4 d) hl).trans (busTurn_of_decode hd)

/-- The placed word of RXISR is run in the interrupt context, from the handler's first step (R140, log 19). -/
theorem step_placeFetch_rxisr {s : State} {cw : CmdWord} (hl : s.live) (hop : cw.opc = Opcode.rxisr) :
    step (placeFetch (.cmd cw) s) = exec .rxisr { s with ctx := .irq, istep := 0#2 } := by
  rw [placeFetch, if_pos hop]
  calc step _ = irqTurn { s with ctx := .irq, istep := 0#2 } :=
        step_of_turnPlaced (s := { s with ctx := .irq, istep := 0#2 }) .irq hl
    _ = exec .rxisr { s with ctx := .irq, istep := 0#2 } := irqTurn_of_irq rfl

/-- Any other placed command word is presented to an idle sequencer in the foreground (R53, R59). -/
theorem step_placeFetch_cmd {s : State} {cw : CmdWord} {i : Instr} (hl : s.live) (hop : cw.opc ≠ Opcode.rxisr)
    (hd : decode (.cmd cw) = .ok i) :
    step (placeFetch (.cmd cw) s) = exec i { s with ctx := .fg, seqOp := 0x00#8, seqStep := 0#4 } := by
  rw [placeFetch, if_neg hop]
  calc step _ = fgTurn { s with ctx := .fg, seqOp := 0x00#8, seqStep := 0#4, cmds := cw :: s.cmds } :=
        step_of_turnPlaced (s := { s with ctx := .fg, seqOp := 0x00#8, seqStep := 0#4, cmds := cw :: s.cmds }) .fg hl
    _ = presentWord cw { s with ctx := .fg, seqOp := 0x00#8, seqStep := 0#4 } := fgTurn_of_presented rfl rfl rfl
    _ = exec i { s with ctx := .fg, seqOp := 0x00#8, seqStep := 0#4 } := presentWord_of_ok _ hd

/-- The only word that decodes to RXISR is the one with its opcode (R57). -/
theorem ne_rxisr_of_decodeCmd {cw : CmdWord} {i : Instr} (hop : cw.opc ≠ Opcode.rxisr)
    (hd : decodeCmd cw = .ok i) : i ≠ .rxisr := by
  rintro rfl
  simp only [decodeCmd, if_neg hop] at hd
  split_ifs at hd <;> cases hd

/-- Settles O11: one case for each of the three ways of placing a fetch. -/
theorem placedWordIsRunByTheNextStep : Obligations.PlacedWordIsRunByTheNextStep := by
  intro s nbits w i hl hi
  obtain ⟨f, hf, hd⟩ := decodeTableWord_eq_some hi
  have placed : s.withFetchWord nbits w = placeFetch f s := by simp only [State.withFetchWord, hf]
  rw [placed]
  cases f with
  | bus h d =>
    obtain ⟨r, hr⟩ := decodeBus_accessed hd
    rw [step_placeFetch_bus hl hd, hr, if_pos Option.isSome_some]
  | cmd cw =>
    rw [decodeCmd_command hd, if_neg (by simp)]
    by_cases hop : cw.opc = Opcode.rxisr
    · obtain rfl := Except.ok.inj ((decodeCmd_of_rxisr hop).symm.trans hd)
      rw [step_placeFetch_rxisr hl hop, if_pos rfl]
    · rw [step_placeFetch_cmd hl hop hd, if_neg (ne_rxisr_of_decodeCmd hop hd)]

/-! ### Acceptance (R56, R59) -/

section
variable {s : State} (op : Opcode) (a b : Word) (micro : State → StepResult)

theorem runCommand_acceptCore_of_idle (hl : s.live) (hc : s.ctx = .fg) (ho : s.seqOp = 0x00#8)
    (hv : s.cfg.variant ≠ .noOpDriver) : runCommand op (acceptCore op a b) micro s = .next (s.load op a b) := by
  rw [runCommand_of_idle op _ micro hl hc ho]
  rcases acceptCore_cases op a b s with ⟨hn, -⟩ | ⟨-, e⟩
  · exact absurd hn hv
  · rw [e]

theorem runCommand_acceptTelemetry_of_idle (hl : s.live) (hc : s.ctx = .fg) (ho : s.seqOp = 0x00#8)
    (hv : s.cfg.variant = .telemetryDriver) :
    runCommand op (acceptTelemetry op a b) micro s = .next (s.load op a b) := by
  rw [runCommand_of_idle op _ micro hl hc ho]
  rcases acceptTelemetry_cases op a b s with ⟨-, e⟩ | ⟨hn, -⟩
  · rw [e]
  · exact absurd hv hn

/-- A command that is not the one in progress waits, and so does every command while the handler runs (R13, R59). -/
theorem runCommand_of_busy (accept : State → State) (hl : s.live) (busy : s.ctx = .irq ∨ s.seqOp ≠ 0x00#8)
    (other : s.ctx = .irq ∨ s.seqOp ≠ op) : runCommand op accept micro s = .next s := by
  rw [runCommand, whenLive_of_live _ hl.1 hl.2]
  cases hc : s.ctx with
  | irq => rfl
  | fg =>
    simp only [hc, reduceCtorEq, false_or] at busy other
    simp only [if_neg busy, if_neg other]

end

/-- Settles O17: the driver-core commands and the telemetry commands load the sequencer alike, each family in its
variants. -/
theorem idleSequencerAcceptsTheCommand : Obligations.IdleSequencerAcceptsTheCommand := by
  intro s hl hc ho
  refine ⟨fun hv => ?_, fun hv => ?_⟩
  · have core := fun op a b micro => runCommand_acceptCore_of_idle op a b micro hl hc ho hv
    exact ⟨fun b m => core Opcode.configure b m configureMicro, core Opcode.stop 0#32 0#32 stopMicro,
      fun c => core Opcode.putc c.toWord 0#32 putcMicro⟩
  · have telemetry := fun op a b micro => runCommand_acceptTelemetry_of_idle op a b micro hl hc ho hv
    exact ⟨fun p => telemetry Opcode.tpinit p.toWord 0#32 tpinitMicro,
      telemetry Opcode.tprecv 0#32 0#32 tprecvMicro⟩

/-- Settles O20: all five commands run through `runCommand`. -/
theorem busySequencerDoesNotAccept : Obligations.BusySequencerDoesNotAccept := by
  intro s b m c p hl busy
  have waits := fun op accept micro => runCommand_of_busy op micro accept hl busy
  exact ⟨waits Opcode.configure _ configureMicro, waits Opcode.stop _ stopMicro, waits Opcode.putc _ putcMicro,
    waits Opcode.tpinit _ tpinitMicro, waits Opcode.tprecv _ tprecvMicro⟩

/-! ### The results (R62) -/

theorem ResultsInRange.append {h events : List Event} (old : ResultsInRange h) (new : ResultsInRange events) :
    ResultsInRange (h ++ events) := fun op r e => (List.mem_append.mp e).elim (old op r) (new op r)

/-- The events of a step that completes no TPRECV: the range of the results stands. -/
theorem ResultsInRange.extend {u t : State} (inv : ResultsInRange u.hist) (events : List Event)
    (hh : t.hist = u.hist ++ events) (noResult : ∀ op r, Event.done op (some r) ∉ events) :
    ResultsInRange t.hist :=
  hh ▸ inv.append fun op r e => absurd e (noResult op r)

/-- TPRECV's last step reads a register and completes with a byte or the sentinel (R156, R157). -/
theorem resultsInRange_tprecv (reg : RegName) (v : Word) {r : Result} (hr : r.toNat ≤ 0xFF ∨ r = 0xFFFF#16) :
    ResultsInRange [.regR reg v, .done 0x05#8 (some r)] := by
  intro op r' h
  simp only [List.mem_cons, reduceCtorEq, Event.done.injEq, Option.some.injEq, List.not_mem_nil, or_false,
    false_or] at h
  obtain ⟨rfl, rfl⟩ := h
  exact ⟨rfl, hr⟩

/-- A byte as a result is at most 0xFF (R157). -/
theorem toNat_byteResult_le (b : Byte) : (b.setWidth 16).toNat ≤ 0xFF := by
  bv_omega

theorem Access.keeps_results {u t : State} (h : Access u t) (inv : ResultsInRange u.hist) :
    ResultsInRange t.hist := by
  cases h <;> exact inv.extend [_] rfl (by simp)

/-- TPRECV alone has a result: the sentinel where its poll finds no byte, else the byte it reads, even where another
agent took that byte before the read (R158, R160). -/
theorem Micro.keeps_results {u t : State} (h : Micro u t) (inv : ResultsInRange u.hist) :
    ResultsInRange t.hist := by
  cases h
  case noByte v _ _ _ _ => exact inv.append (resultsInRange_tprecv .SR v (.inr rfl))
  case receive => exact inv.append (resultsInRange_tprecv .RHR _ (.inl (toNat_byteResult_le _)))
  case receiveLate v _ _ _ _ => exact inv.append (resultsInRange_tprecv .RHR v (.inl (toNat_byteResult_le _)))
  case enableDone | lineOn | lineOff | send | arm => exact inv.extend [_, _] rfl (by simp)
  all_goals exact inv.extend [_] rfl (by simp)

theorem Move.keeps_results {turn : Turn} {u t : State} (h : Move turn u t) (inv : ResultsInRange u.hist) :
    ResultsInRange t.hist := by
  cases h
  case pass => exact inv
  case micro h => exact h.keeps_results inv
  case access h => exact h.keeps_results inv
  case acceptNoOp | handlerPush | handlerDrop | handlerOverwrite => exact inv.extend [_, _] rfl (by simp)
  all_goals exact inv.extend [_] rfl (by simp)

/-- Settles O53: a step is a move from the state with its turn taken, and taking a turn adds no event. -/
theorem resultsStayInRange : Obligations.ResultsStayInRange := fun _ _ inv h => (step_moves h).2.keeps_results inv

end Sys2Proof.Machine
end

section
/-! PROOFS. The register interface family (40_register_interface.md), the accesses: what each of the ten does with the
clock on, the fault all ten meet without it (R80), what their values and refusals are (R81 to R92), and the accesses
that are none of the ten (R44, R47, R94). -/

namespace Sys2Proof.Machine

/-! ### Undefined accesses (R44, R47, R94) -/

/-- The headers of the ten accesses (R74); that no other decodes is `decodeBus_of_undefined`. -/
def definedHeaders : List Header :=
  [0x1000#13, 0x1004#13, 0x0004#13, 0x1008#13, 0x100C#13, 0x0014#13, 0x0018#13, 0x101C#13, 0x1020#13, 0x1120#13]

/-- A header that is none of the ten names no access (R94, log 27). -/
theorem decodeBus_of_undefined {h : Header} (d : Word) (undefined : h ∉ definedHeaders) :
    decodeBus h d = .error (.badBusAccess h.we h.offset) := by
  simp only [definedHeaders, List.mem_cons, List.not_mem_nil, or_false, not_or] at undefined
  simp only [decodeBus, undefined, if_false]

/-- An access of another size than a register's, or by a header that names none, is refused (R42, R44, R94). -/
theorem busTurn_of_undefined {h : Header} {size : Nat} (d : Word) (u : State)
    (undefined : size ≠ 4 ∨ h ∉ definedHeaders) :
    busTurn h size d u = .next (u.refuse (.badBusAccess h.we (Int.ofNat h.offset.toNat))) := by
  by_cases whole : size = 4
  · have bad : decode (.bus h d) = .error (.badBusAccess h.we h.offset) :=
      decodeBus_of_undefined d (undefined.resolve_left (not_not_intro whole))
    simp only [busTurn, if_pos whole, bad, refusalOf]
  · exact if_neg whole

/-- A header is its write-enable bit above its offset (R74). -/
theorem ofBool_we_append_offset (h : Header) : (BitVec.ofBool h.we ++ h.offset : BitVec (1 + 12)) = h := by
  apply BitVec.eq_of_getLsbD_eq
  intro k hk
  simp only [Header.we, Header.offset, BitVec.getLsbD_append, BitVec.getLsbD_extractLsb', BitVec.getLsbD_ofBool]
  by_cases low : k < 12
  · simp [low]
  · obtain rfl : k = 12 := by omega
    simp

/-- The address of a header's offset reaches that header (R41, R74). -/
theorem memTurn_of_header (h : Header) (size : Nat) (d : Word) (u : State) :
    memTurn h.we (u.cfg.uartBase + h.offset.toNat) size d u = busTurn h size d u := by
  rw [memTurn_of_offset, ofBool_we_append_offset]

/-- Settles O8: by header or by the address of its offset, the turn is the same access, and it is refused. -/
theorem undefinedBusAccessIsRefused : Obligations.UndefinedBusAccessIsRefused := by
  intro s rest h size d hl ha undefined
  have refused := busTurn_of_undefined d { s with agenda := rest } undefined
  rcases ha with ha | ha
  · exact (step_of_turn hl ha).trans refused
  · exact (step_of_turn hl ha).trans ((memTurn_of_header h size d { s with agenda := rest }).trans refused)

/-! ### An access as an instruction (R80, R94) -/

/-- Every register access without the clock is the fault of R80. -/
theorem exec_access_of_not_clk {i : Instr} {r : RegName} {s : State} (hi : accessedRegister i = some r)
    (hl : s.live) (hk : s.clk = false) : exec i s = .next (s.raiseFault (.unclockedAccess r)) := by
  cases i <;> simp only [accessedRegister, reduceCtorEq, Option.some.injEq] at hi <;> subst hi
  case regReadMR | regReadSR | regReadRHR =>
    exact (whenLive_of_live _ hl.1 hl.2).trans (congrArg readStep (clocked_of_not_clk _ _ hk))
  all_goals exact (whenLive_of_live _ hl.1 hl.2).trans (congrArg writeStep (clocked_of_not_clk _ _ hk))

section
variable {s t : State} (hl : s.live)
include hl

/-- A write that makes its effect ends in that effect. -/
theorem writeStep_of_ok {r : Except State State} (h : r = .ok t) : whenLive s (writeStep r) = .next t := by
  rw [whenLive_of_live _ hl.1 hl.2, h, writeStep, thenNext_ok]

/-- A write that is refused ends in the marked state. -/
theorem writeStep_of_error {r : Except State State} (h : r = .error t) : whenLive s (writeStep r) = .next t := by
  rw [whenLive_of_live _ hl.1 hl.2, h, writeStep, thenNext_error]

/-- A read ends in its effect; its value is in the event. -/
theorem readStep_of_ok {r : Except State (Word × State)} {v : Word} (h : r = .ok (v, t)) :
    whenLive s (readStep r) = .next t := by
  rw [whenLive_of_live _ hl.1 hl.2, h, readStep, thenNextWith_ok]

end

/-! ### What each access does with the clock on (R81 to R92) -/

theorem namedCR_eq : namedCR = 0x000000FC#32 := by decide
theorem namedPTCR_eq : namedPTCR = 0x00000303#32 := by decide

/-- The values of `CR` that R83 refuses: a reserved bit, or a pair asked for both ways. -/
theorem badControl_iff (v : Word) : badControl v = true ↔
    v &&& ~~~0x000000FC#32 ≠ 0#32 ∨ (v.getLsbD 4 = true ∧ v.getLsbD 5 = true) ∨
      (v.getLsbD 6 = true ∧ v.getLsbD 7 = true) := by
  simp only [badControl, hasReserved, namedCR_eq, field, bitRXEN, bitRXDIS, bitTXEN, bitTXDIS, Bool.or_eq_true,
    Bool.and_eq_true, bne_iff_ne, or_assoc]

/-- The values of `PTCR` that R92 refuses: a reserved bit, or a pair asked for both ways. -/
theorem badTransfer_iff (v : Word) : badTransfer v = true ↔
    v &&& ~~~0x00000303#32 ≠ 0#32 ∨ (v.getLsbD 0 = true ∧ v.getLsbD 1 = true) ∨
      (v.getLsbD 8 = true ∧ v.getLsbD 9 = true) := by
  simp only [badTransfer, hasReserved, namedPTCR_eq, field, bitRXTEN, bitRXTDIS, bitTXTEN, bitTXTDIS, Bool.or_eq_true,
    Bool.and_eq_true, bne_iff_ne, or_assoc]

section
variable {s : State} (hk : s.clk = true)
include hk

theorem regWriteCR_of_bad {v : Word} (bad : badControl v = true) :
    regWriteCR v s = .error (s.refuse (.badControlWrite v)) :=
  (clocked_of_clk .CR _ hk).trans (if_pos bad)

theorem regWriteCR_of_legal {v : Word} (legal : ¬ badControl v = true) :
    regWriteCR v s = .ok ((controlEffects v s).emit (.regW .CR v)) :=
  (clocked_of_clk .CR _ hk).trans (if_neg legal)

/-- The optional refusal of R84 is taken only where the configuration asks for it (log 12). -/
theorem regWriteMR_of_accepted {v : Word} (accepted : s.cfg.refuseOtherModes = false ∨ v = modeValue) :
    regWriteMR v s = .ok ({ s with mr := some v }.emit (.regW .MR v)) := by
  refine (clocked_of_clk .MR _ hk).trans (if_neg ?_)
  rcases accepted with h | h <;> simp [h]

theorem regWriteMR_of_refused {v : Word} (refuses : s.cfg.refuseOtherModes = true) (hv : v ≠ modeValue) :
    regWriteMR v s = .error (s.refuse (.badModeValue v)) :=
  (clocked_of_clk .MR _ hk).trans (if_pos (by simp [refuses, hv]))

theorem regReadMR_of_written {v : Word} (hm : s.mr = some v) : regReadMR s = .ok (v, s.emit (.regR .MR v)) := by
  rw [regReadMR, clocked_of_clk .MR _ hk, hm]

theorem regReadMR_of_unwritten (hm : s.mr = none) :
    regReadMR s = .ok (Config.freeWord s.draws, s.drawn.emit (.regR .MR (Config.freeWord s.draws))) := by
  rw [regReadMR, clocked_of_clk .MR _ hk, hm]

theorem regWriteBRGR_of_fits {d : Word} (fits : d.toNat < 2 ^ s.cfg.divisorWidth) :
    regWriteBRGR d s = .ok ({ s with brgr := some d }.emit (.regW .BRGR d)) :=
  (clocked_of_clk .BRGR _ hk).trans (if_neg (Nat.not_le.mpr fits))

theorem regWriteBRGR_of_wide {d : Word} (wide : 2 ^ s.cfg.divisorWidth ≤ d.toNat) :
    regWriteBRGR d s = .error (s.refuse (.divisorTooWide d.toNat)) :=
  (clocked_of_clk .BRGR _ hk).trans (if_pos wide)

theorem regReadRHR_of_ready {b : Byte} (hr : s.rxrdy = true) (hb : s.rhr = some b) :
    regReadRHR s = .ok (b.toWord, s.clearRxrdy.emit (.regR .RHR b.toWord)) := by
  have byte : s.rhrByte = b := by rw [State.rhrByte, hb, Option.getD_some]
  rw [regReadRHR, clocked_of_clk .RHR _ hk, if_pos hr, byte]

/-- With nothing ready the read has nothing to clear: its one effect is the draw (R88, log 8). -/
theorem regReadRHR_of_not_ready (hr : s.rxrdy = false) :
    regReadRHR s = .ok (Config.freeWord s.draws, s.drawn.emit (.regR .RHR (Config.freeWord s.draws))) := by
  have clear : s.drawn.clearRxrdy = s.drawn := by simp only [State.clearRxrdy, State.drawn, ← hr]
  rw [regReadRHR, clocked_of_clk .RHR _ hk, if_neg (by simp [hr]), clear]

theorem regWriteTHR_of_empty {c : Word} (he : s.txe = true) :
    regWriteTHR c s = .ok ((s.holdByte (lowByte c)).emit (.regW .THR c)) :=
  (clocked_of_clk .THR _ hk).trans (if_pos he)

theorem regWriteTHR_of_full {c : Word} (he : s.txe = false) : regWriteTHR c s = .error (s.refuse (.thrOverwrite c)) :=
  (clocked_of_clk .THR _ hk).trans (if_neg (by simp [he]))

/-- `IER` sets the mask bit where bit `RXRDY` is 1 (R67, R90). -/
theorem regWriteIER_of_clk (m : Word) :
    regWriteIER m s = .ok ({ s with imrRxrdy := s.imrRxrdy || m.getLsbD 0 }.emit (.regW .IER m)) := by
  rcases regWriteIER_cases m s with ⟨off, -⟩ | ⟨-, e⟩
  · exact absurd (hk.symm.trans off) Bool.noConfusion
  · exact e

/-- `IDR` clears the mask bit where bit `RXRDY` is 1 (R67, R91). -/
theorem regWriteIDR_of_clk (m : Word) :
    regWriteIDR m s = .ok ({ s with imrRxrdy := s.imrRxrdy && !m.getLsbD 0 }.emit (.regW .IDR m)) := by
  rcases regWriteIDR_cases m s with ⟨off, -⟩ | ⟨-, e⟩
  · exact absurd (hk.symm.trans off) Bool.noConfusion
  · exact e

theorem regWritePTCR_of_bad {v : Word} (bad : badTransfer v = true) :
    regWritePTCR v s = .error (s.refuse (.badTransferWrite v)) :=
  (clocked_of_clk .PTCR _ hk).trans (if_pos bad)

theorem regWritePTCR_of_legal {v : Word} (legal : ¬ badTransfer v = true) :
    regWritePTCR v s = .ok ({ s with
      pdcRxen := enableAfter (field v bitRXTEN) (field v bitRXTDIS) s.pdcRxen
      pdcTxen := enableAfter (field v bitTXTEN) (field v bitTXTDIS) s.pdcTxen }.emit (.regW .PTCR v)) :=
  (clocked_of_clk .PTCR _ hk).trans (if_neg legal)

end

/-! ### The ten accesses -/

/-- Settles O22: the value is the status word, whose two named bits are the flags. -/
theorem statusReadReturnsTheFlags : Obligations.StatusReadReturnsTheFlags := by
  refine fun s hl => ⟨decodeOfEncodeIsTheInstruction .regReadSR, exec_access_of_not_clk rfl hl, fun hk => ?_⟩
  exact ⟨statusWord s.rxrdy s.txe (Config.freeWord s.draws), srRxrdy_statusWord _ _ _, srTxempty_statusWord _ _ _,
    readStep_of_ok hl (clocked_of_clk .SR _ hk)⟩

/-- Settles O23: `badControl_iff` says which values are refused, `controlEffects` what the others do. -/
theorem controlWritePerformsItsCommands : Obligations.ControlWritePerformsItsCommands := by
  refine fun v s hl => ⟨decodeOfEncodeIsTheInstruction (.regWriteCR v), exec_access_of_not_clk rfl hl,
    fun hk bad => ?_, fun hk named noRx noTx => ?_⟩
  · exact writeStep_of_error hl (regWriteCR_of_bad hk ((badControl_iff v).mpr bad))
  · have legal := mt (badControl_iff v).mp (not_or.mpr ⟨not_not_intro named, not_or.mpr ⟨noRx, noTx⟩⟩)
    exact writeStep_of_ok hl (regWriteCR_of_legal hk legal)

/-- Settles O24: two cases for the optional refusal of R84, two for the value of R85. -/
theorem modeRegisterReadsAndWrites : Obligations.ModeRegisterReadsAndWrites := fun _ _ hl hk =>
  ⟨fun accepted => writeStep_of_ok hl (regWriteMR_of_accepted hk accepted),
    fun refuses hv => writeStep_of_error hl (regWriteMR_of_refused hk refuses hv),
    fun hm => readStep_of_ok hl (regReadMR_of_written hk hm),
    fun hm => ⟨_, readStep_of_ok hl (regReadMR_of_unwritten hk hm)⟩⟩

/-- Settles O25: the width of the divisor is the one thing looked at. -/
theorem divisorWriteStoresTheDivisor : Obligations.DivisorWriteStoresTheDivisor := fun d _ hl =>
  ⟨decodeOfEncodeIsTheInstruction (.regWriteBRGR d), exec_access_of_not_clk rfl hl,
    fun hk fits => writeStep_of_ok hl (regWriteBRGR_of_fits hk fits),
    fun hk wide => writeStep_of_error hl (regWriteBRGR_of_wide hk wide)⟩

/-- Settles O26: one case where a byte is ready, one where none is. -/
theorem receiveHoldingReadAcknowledges : Obligations.ReceiveHoldingReadAcknowledges := fun _ hl hk =>
  ⟨fun _ hr hb => readStep_of_ok hl (regReadRHR_of_ready hk hr hb),
    fun hr => ⟨_, readStep_of_ok hl (regReadRHR_of_not_ready hk hr)⟩⟩

/-- Settles O27: transmit-empty decides between the byte's handing over and the refusal. -/
theorem transmitHoldingWriteClearsEmpty : Obligations.TransmitHoldingWriteClearsEmpty := fun c _ hl =>
  ⟨decodeOfEncodeIsTheInstruction (.regWriteTHR c), exec_access_of_not_clk rfl hl,
    fun hk he => writeStep_of_ok hl (regWriteTHR_of_empty hk he),
    fun hk he => writeStep_of_error hl (regWriteTHR_of_full hk he)⟩

/-- Settles O28: bit `RXRDY` of the value is or-ed in by `IER` and masked out by `IDR`. -/
theorem interruptMaskWritesSetAndClear : Obligations.InterruptMaskWritesSetAndClear := fun m _ hl =>
  ⟨decodeOfEncodeIsTheInstruction (.regWriteIER m), decodeOfEncodeIsTheInstruction (.regWriteIDR m),
    exec_access_of_not_clk rfl hl, exec_access_of_not_clk rfl hl,
    fun hk => writeStep_of_ok hl (regWriteIER_of_clk hk m), fun hk => writeStep_of_ok hl (regWriteIDR_of_clk hk m)⟩

/-- Settles O29: `badTransfer_iff` says which values are refused; the others enable and disable. -/
theorem transferControlWriteEnablesAndDisables : Obligations.TransferControlWriteEnablesAndDisables := by
  refine fun v s hl => ⟨decodeOfEncodeIsTheInstruction (.regWritePTCR v), exec_access_of_not_clk rfl hl,
    fun hk bad => ?_, fun hk named noRx noTx => ?_⟩
  · exact writeStep_of_error hl (regWritePTCR_of_bad hk ((badTransfer_iff v).mpr bad))
  · have legal := mt (badTransfer_iff v).mp (not_or.mpr ⟨not_not_intro named, not_or.mpr ⟨noRx, noTx⟩⟩)
    exact writeStep_of_ok hl (regWritePTCR_of_legal hk legal)

end Sys2Proof.Machine
end

section
/-! PROOFS. The register interface family (40_register_interface.md), the registers' owners (R93, R123, R171, R173):
which step may change a register, a flag, an enable, a list of bytes or the port, and to what. The effects of a step are
gone through once, each said to change what it writes and nothing else. -/

namespace Sys2Proof.Machine

/-! ### Which step a turn takes -/

/-- The turn is micro-operation `n` of the command whose opcode is `op`: `State.takesStep` for the turn taken. -/
abbrev TakesStep (turn : Turn) (u : State) (op : Opcode) (n : BitVec 4) : Prop :=
  turn = .fg ∧ u.ctx = .fg ∧ u.seqOp = op ∧ u.seqStep = n

/-- The turn is micro-operation `n` of CONFIGURE or of TPINIT: `State.takesConfiguration` for the turn taken. -/
abbrev TakesConfiguration (turn : Turn) (u : State) (n : BitVec 4) : Prop :=
  TakesStep turn u 0x01#8 n ∨ TakesStep turn u 0x04#8 n

/-- The turn is step `n` of the handler: `State.takesHandler` for the turn taken. -/
abbrev TakesHandler (turn : Turn) (u : State) (n : BitVec 2) : Prop := turn = .irq ∧ u.ctx = .irq ∧ u.istep = n

theorem TakesConfiguration.of_seqOp {u : State} {n : BitVec 4} (hc : u.ctx = .fg)
    (ho : u.seqOp = 0x01#8 ∨ u.seqOp = 0x04#8) (hs : u.seqStep = n) : TakesConfiguration .fg u n :=
  ho.imp (fun ho => ⟨rfl, hc, ho, hs⟩) (fun ho => ⟨rfl, hc, ho, hs⟩)

/-! ### What a turn may change -/

/-- Each register, flag, enable, list of bytes and the port changes only where the spec lets the turn change it, and to
the value it gives. A field that an effect does not write has its proof by default: nothing changed. -/
structure NamedChanges (turn : Turn) (u t : State) : Prop where
  clk : t.clk ≠ u.clk → TakesConfiguration turn u 1#4 ∧ t.clk = true := by exact fun h => (h rfl).elim
  pins : t.pins ≠ u.pins →
    TakesConfiguration turn u 0#4 ∧ t.pins = .peripheral u.cfg.pinMask .peripheralInputNoPullUp := by
      exact fun h => (h rfl).elim
  lineEn : t.lineEn ≠ u.lineEn →
    TakesStep turn u 0x01#8 8#4 ∧ t.lineEn = true ∨ TakesStep turn u 0x02#8 1#4 ∧ t.lineEn = false := by
      exact fun h => (h rfl).elim
  imrRxrdy : t.imrRxrdy ≠ u.imrRxrdy →
    TakesStep turn u 0x01#8 7#4 ∧ t.imrRxrdy = true ∨ TakesStep turn u 0x02#8 0#4 ∧ t.imrRxrdy = false := by
      exact fun h => (h rfl).elim
  rxen : t.rxen ≠ u.rxen →
    TakesConfiguration turn u 2#4 ∧ t.rxen = false ∨ TakesConfiguration turn u 6#4 ∧ t.rxen = true := by
      exact fun h => (h rfl).elim
  txen : t.txen ≠ u.txen →
    TakesConfiguration turn u 2#4 ∧ t.txen = false ∨ TakesConfiguration turn u 6#4 ∧ t.txen = true := by
      exact fun h => (h rfl).elim
  mr : t.mr ≠ u.mr → TakesConfiguration turn u 3#4 ∧ t.mr = some 0x00000800#32 := by exact fun h => (h rfl).elim
  brgr : t.brgr ≠ u.brgr → TakesConfiguration turn u 4#4 ∧ t.brgr = some u.readT := by exact fun h => (h rfl).elim
  pdcRxen : t.pdcRxen ≠ u.pdcRxen →
    TakesConfiguration turn u 5#4 ∧ t.pdcRxen = false ∨ TakesStep turn u 0x04#8 7#4 ∧ t.pdcRxen = true := by
      exact fun h => (h rfl).elim
  pdcTxen : t.pdcTxen ≠ u.pdcTxen → TakesConfiguration turn u 5#4 ∧ t.pdcTxen = false := by
    exact fun h => (h rfl).elim
  rxrdy : t.rxrdy ≠ u.rxrdy →
    (∃ b, turn = .rxArrive b) ∧ u.clk = true ∧ u.rxen = true ∧ t.rxrdy = true ∨
    (TakesConfiguration turn u 2#4 ∨ TakesStep turn u 0x05#8 1#4 ∨ TakesHandler turn u 0#2 ∨
      turn = .pdcTake ∧ u.pdcRxen = true) ∧ t.rxrdy = false := by exact fun h => (h rfl).elim
  rhr : t.rhr ≠ u.rhr →
    (∃ b, turn = .rxArrive b ∧ t.rhr = some b) ∧ u.clk = true ∧ u.rxen = true ∨
    TakesConfiguration turn u 2#4 ∧ t.rhr = none := by exact fun h => (h rfl).elim
  txe : t.txe ≠ u.txe →
    turn = .txDrain ∧ u.clk = true ∧ u.txen = true ∧ t.txe = true ∨
    (TakesConfiguration turn u 2#4 ∨ TakesStep turn u 0x03#8 1#4) ∧ t.txe = false := by exact fun h => (h rfl).elim
  thr : t.thr ≠ u.thr → TakesStep turn u 0x03#8 1#4 ∧ t.thr = some (u.readA.setWidth 8) := by
    exact fun h => (h rfl).elim
  thrValid : t.thrValid ≠ u.thrValid →
    TakesStep turn u 0x03#8 1#4 ∧ t.thrValid = true ∨
    (TakesConfiguration turn u 2#4 ∨ turn = .txDrain) ∧ t.thrValid = false := by exact fun h => (h rfl).elim
  lineOut : t.lineOut ≠ u.lineOut →
    turn = .txDrain ∧ u.thrValid = true ∧ t.lineOut = u.lineOut ++ [u.thrByte] := by exact fun h => (h rfl).elim
  pdcSink : t.pdcSink ≠ u.pdcSink →
    turn = .pdcTake ∧ u.rxrdy = true ∧ t.pdcSink = u.pdcSink ++ [u.rhrByte] := by exact fun h => (h rfl).elim
  rxbuf : t.rxbuf ≠ u.rxbuf →
    turn = .pop ∧ u.ctx = .fg ∧ u.seqOp = 0x00#8 ∧ t.rxbuf = u.rxbuf.tail ∨
    TakesHandler turn u 1#2 ∧ u.rxbuf.length < 512 ∧ t.rxbuf = u.rxbuf ++ [u.readTI] ∨
    TakesHandler turn u 1#2 ∧ 512 ≤ u.rxbuf.length ∧ u.cfg.overflowPolicy = .overwriteOldest ∧
      t.rxbuf = u.rxbuf.tail ++ [u.readTI] := by exact fun h => (h rfl).elim
  port : t.port ≠ u.port →
    TakesStep turn u 0x01#8 8#4 ∧ t.port = .running ∨
    (TakesStep turn u 0x01#8 6#4 ∧ u.cfg.variant ≠ .interruptDriver ∨ TakesStep turn u 0x04#8 7#4) ∧
      t.port = .configuredIdle ∨
    TakesStep turn u 0x02#8 1#4 ∧ t.port = .stopped := by exact fun h => (h rfl).elim

section
variable {turn : Turn} {u t : State}

/-- The micro-operations of the commands, each with the fields it writes (R110, R120, R130, R150, R155). -/
theorem Micro.namedChanges (hc : u.ctx = .fg) (h : Micro u t) : NamedChanges .fg u t := by
  cases h
  case configureAdmit ho h0 _ => exact { pins := fun _ => ⟨.inl ⟨rfl, hc, ho, h0⟩, rfl⟩ }
  case tpinitAdmit ho h0 _ => exact { pins := fun _ => ⟨.inr ⟨rfl, hc, ho, h0⟩, rfl⟩ }
  case clockOn ho h1 => exact { clk := fun _ => ⟨.of_seqOp hc ho h1, rfl⟩ }
  case resetDisable ho h2 _ =>
    have step2 := TakesConfiguration.of_seqOp hc ho h2
    exact {
      rxrdy := fun _ => .inr ⟨.inl step2, rfl⟩
      rhr := fun _ => .inr ⟨step2, rfl⟩
      thrValid := fun _ => .inr ⟨.inl step2, rfl⟩
      txe := fun _ => .inr ⟨.inl step2, rfl⟩
      rxen := fun _ => .inl ⟨step2, rfl⟩
      txen := fun _ => .inl ⟨step2, rfl⟩ }
  case mode ho h3 _ => exact { mr := fun _ => ⟨.of_seqOp hc ho h3, rfl⟩ }
  case divisorStored ho h4 _ _ => exact { brgr := fun _ => ⟨.of_seqOp hc ho h4, rfl⟩ }
  case transfersOff ho h5 _ =>
    have step5 := TakesConfiguration.of_seqOp hc ho h5
    exact { pdcRxen := fun _ => .inl ⟨step5, rfl⟩, pdcTxen := fun _ => ⟨step5, rfl⟩ }
  case enable ho h6 _ =>
    have step6 := TakesConfiguration.of_seqOp hc (ho.imp_left And.left) h6
    exact { rxen := fun _ => .inr ⟨step6, rfl⟩, txen := fun _ => .inr ⟨step6, rfl⟩ }
  case enableDone ho hv h6 _ =>
    have step6 : TakesStep .fg u 0x01#8 6#4 := ⟨rfl, hc, ho, h6⟩
    exact {
      rxen := fun _ => .inr ⟨.inl step6, rfl⟩
      txen := fun _ => .inr ⟨.inl step6, rfl⟩
      port := fun _ => .inr (.inl ⟨.inl ⟨step6, hv⟩, rfl⟩) }
  case unmask ho _ h7 _ => exact { imrRxrdy := fun _ => .inl ⟨⟨rfl, hc, ho, h7⟩, rfl⟩ }
  case lineOn ho _ h8 =>
    have step8 : TakesStep .fg u 0x01#8 8#4 := ⟨rfl, hc, ho, h8⟩
    exact { lineEn := fun _ => .inl ⟨step8, rfl⟩, port := fun _ => .inl ⟨step8, rfl⟩ }
  case mask ho h0 _ => exact { imrRxrdy := fun _ => .inr ⟨⟨rfl, hc, ho, h0⟩, rfl⟩ }
  case lineOff ho h1 =>
    have step1 : TakesStep .fg u 0x02#8 1#4 := ⟨rfl, hc, ho, h1⟩
    exact { lineEn := fun _ => .inr ⟨step1, rfl⟩, port := fun _ => .inr (.inr ⟨step1, rfl⟩) }
  case send ho h1 _ _ =>
    have step1 : TakesStep .fg u 0x03#8 1#4 := ⟨rfl, hc, ho, h1⟩
    exact {
      thr := fun _ => ⟨step1, rfl⟩
      thrValid := fun _ => .inl ⟨step1, rfl⟩
      txe := fun _ => .inr ⟨.inr step1, rfl⟩ }
  case arm ho h7 _ =>
    have step7 : TakesStep .fg u 0x04#8 7#4 := ⟨rfl, hc, ho, h7⟩
    exact { pdcRxen := fun _ => .inr ⟨step7, rfl⟩, port := fun _ => .inr (.inl ⟨.inr step7, rfl⟩) }
  case receive ho h1 _ _ | receiveLate ho h1 _ _ =>
    exact { rxrdy := fun _ => .inr ⟨.inr (.inl ⟨rfl, hc, ho, h1⟩), rfl⟩ }
  case configureRefuse | tpinitRefuse | divisorRefused | sendRefused | poll | ready | noByte => exact {}

/-- The turns of the agents other than a harness, each with the fields it writes: command acceptance, dispatch, the
faults and the refusals write none (R59, R141, R142, R165 to R171, R182, R183, R190). -/
theorem Move.namedChanges (hh : turn.harness = false) (h : Move turn u t) : NamedChanges turn u t := by
  cases h
  case micro ht hc h => exact ht ▸ h.namedChanges hc
  case handlerRead ht hc h0 _ _ | handlerReadEmpty ht hc h0 _ _ =>
    exact { rxrdy := fun _ => .inr ⟨.inr (.inr (.inl ⟨ht, hc, h0⟩)), rfl⟩ }
  case handlerPush ht hc h1 hn => exact { rxbuf := fun _ => .inr (.inl ⟨⟨ht, hc, h1⟩, hn, rfl⟩) }
  case handlerOverwrite ht hc h1 hn hp =>
    exact { rxbuf := fun _ => .inr (.inr ⟨⟨ht, hc, h1⟩, hn, hp, congrArg (· ++ _) List.drop_one⟩) }
  case arrive b ht hk he _ =>
    exact {
      rxrdy := fun _ => .inl ⟨⟨b, ht⟩, hk, he, rfl⟩
      rhr := fun _ => .inl ⟨⟨b, ht, rfl⟩, hk, he⟩ }
  case overrun b r ht hk he _ hw =>
    exact { rhr := fun changed => .inl ⟨⟨b, ht, hw.resolve_left changed⟩, hk, he⟩ }
  case drain ht hk he _ hv =>
    exact {
      lineOut := fun _ => ⟨ht, hv, rfl⟩
      thrValid := fun _ => .inr ⟨.inr ht, rfl⟩
      txe := fun _ => .inl ⟨ht, hk, he, rfl⟩ }
  case drainReady ht hk he _ _ =>
    exact { thrValid := fun _ => .inr ⟨.inr ht, rfl⟩, txe := fun _ => .inl ⟨ht, hk, he, rfl⟩ }
  case take ht _ _ he hr =>
    exact {
      pdcSink := fun _ => ⟨ht, hr, rfl⟩
      rxrdy := fun _ => .inr ⟨.inr (.inr (.inr ⟨ht, he⟩)), rfl⟩ }
  case pop ht hc ho hb => exact { rxbuf := fun _ => .inl ⟨ht, hc, ho, by rw [hb, List.tail_cons]⟩ }
  case access ht _ _ => exact absurd (hh.symm.trans ht) Bool.false_ne_true
  case pass | unclocked | refuseWord | refuseVariant | acceptNoOp | accept | dispatch | handlerDrop | badAccess =>
    exact {}

end

/-- Settles O60: a step is a move of an agent that is no harness, from the state with its turn taken, which has the same
registers. -/
theorem onlyTheNamedStepChangesEachRegister : Obligations.OnlyTheNamedStepChangesEachRegister := by
  intro s t noHarness h
  have c := (step_moves h).2.namedChanges (nextTurn_harness noHarness)
  exact ⟨c.clk, c.pins, c.lineEn, c.imrRxrdy, c.rxen, c.txen, c.mr, c.brgr, c.pdcRxen, c.pdcTxen, c.rxrdy, c.rhr,
    c.txe, c.thr, c.thrValid, c.lineOut, c.pdcSink, c.rxbuf, c.port⟩

end Sys2Proof.Machine
end

section
/-! PROOFS. The configuration family (41_configuration.md), the safety statements: what a CONFIGURE in progress has
established stays whatever the other agents do (R50, R110, R117), and a masked interrupt mutates no buffer (R124). -/

namespace Sys2Proof.Machine

/-! ### Invariant: the progress of CONFIGURE (R110, R117) -/

section
variable {turn : Turn} {u t : State}

/-- A sequencer with no CONFIGURE in progress has nothing to keep. -/
theorem ConfigureProgress.of_other {op : Opcode} (ho : t.seqOp = op) (other : op ≠ 0x01#8) : ConfigureProgress t :=
  fun h => absurd (ho.symm.trans h) other

theorem ConfigureProgress.of_idle (ho : t.seqOp = 0x00#8) : ConfigureProgress t := .of_other ho (by decide)

/-- At step 0 only the operands are latched. -/
theorem ConfigureProgress.of_step_zero (h0 : t.seqStep = 0#4) (hA : t.latchA.isSome = true)
    (hB : t.latchB.isSome = true) : ConfigureProgress t := by
  have zero : t.seqStep.toNat = 0 := by simp [h0]
  exact fun _ => ⟨hA, hB, fun _ => by omega, fun _ => by omega, fun _ => by omega, fun _ => by omega,
    fun _ => by omega, fun _ => by omega, fun _ => by omega, fun _ => by omega, fun _ => by omega⟩

/-- Each micro-operation adds what it writes to what the earlier ones have established; a command other than CONFIGURE
keeps nothing. -/
theorem Micro.keeps_configureProgress (h : Micro u t) (inv : ConfigureProgress u) : ConfigureProgress t := by
  cases h
  case configureAdmit ho _ _ =>
    obtain ⟨hA, hB, -⟩ := inv ho
    exact fun _ => ⟨hA, hB, fun _ => ⟨rfl, rfl⟩, by simp⟩
  case clockOn h1 =>
    intro ho
    obtain ⟨hA, hB, admitted, -⟩ := inv ho
    exact ⟨hA, hB, fun _ => admitted (by simp [h1]), fun _ => rfl, by simp⟩
  case resetDisable h2 hk =>
    intro ho
    obtain ⟨hA, hB, admitted, -⟩ := inv ho
    exact ⟨hA, hB, fun _ => admitted (by simp [h2]), fun _ => hk, fun _ => rfl, fun _ _ => ⟨rfl, rfl, rfl, rfl⟩,
      by simp⟩
  case mode h3 hk =>
    intro ho
    obtain ⟨hA, hB, admitted, -, sent, quiet, -⟩ := inv ho
    exact ⟨hA, hB, fun _ => admitted (by simp [h3]), fun _ => hk, fun _ => sent (by simp [h3]),
      fun _ _ => quiet (by simp [h3]) (by simp [h3]), fun _ => rfl, by simp⟩
  case divisorStored h4 hk _ =>
    intro ho
    obtain ⟨hA, hB, admitted, -, sent, quiet, mode, -⟩ := inv ho
    obtain ⟨pins, divisor⟩ := admitted (by simp [h4])
    exact ⟨hA, hB, fun _ => ⟨pins, divisor⟩, fun _ => hk, fun _ => sent (by simp [h4]),
      fun _ _ => quiet (by simp [h4]) (by simp [h4]), fun _ => mode (by simp [h4]),
      fun _ => by simp [State.readT, divisor], by simp⟩
  case transfersOff h5 hk =>
    intro ho
    obtain ⟨hA, hB, admitted, -, sent, quiet, mode, stored, -⟩ := inv ho
    exact ⟨hA, hB, fun _ => admitted (by simp [h5]), fun _ => hk, fun _ => sent (by simp [h5]),
      fun _ _ => quiet (by simp [h5]) (by simp [h5]), fun _ => mode (by simp [h5]), fun _ => stored (by simp [h5]),
      fun _ => ⟨rfl, rfl⟩, by simp⟩
  case enable h6 hk =>
    intro ho
    obtain ⟨hA, hB, admitted, -, sent, -, mode, stored, transfers, -⟩ := inv ho
    exact ⟨hA, hB, fun _ => admitted (by simp [h6]), fun _ => hk, fun _ => sent (by simp [h6]), by simp,
      fun _ => mode (by simp [h6]), fun _ => stored (by simp [h6]), fun _ => transfers (by simp [h6]),
      fun _ => ⟨rfl, rfl⟩, by simp⟩
  case unmask h7 hk =>
    intro ho
    obtain ⟨hA, hB, admitted, -, sent, -, mode, stored, transfers, enables, -⟩ := inv ho
    exact ⟨hA, hB, fun _ => admitted (by simp [h7]), fun _ => hk, fun _ => sent (by simp [h7]), by simp,
      fun _ => mode (by simp [h7]), fun _ => stored (by simp [h7]), fun _ => transfers (by simp [h7]),
      fun _ => enables (by simp [h7]), fun _ => rfl⟩
  case configureRefuse | divisorRefused => exact inv
  case tpinitRefuse ho _ _ | tpinitAdmit ho _ _ | mask ho _ _ | poll ho _ _ | sendRefused ho _ _ _ |
      ready ho _ _ _ =>
    exact .of_other ho (by decide)
  case enableDone | lineOn | lineOff | send | arm | noByte | receive | receiveLate => exact .of_idle rfl

/-- Between the reset and the enable both directions are off, so that nothing arrives and nothing drains; the steps that
clear a flag leave it as the reset did (R165, R167). -/
theorem Move.keeps_configureProgress (hh : turn.harness = false) (h : Move turn u t) (inv : ConfigureProgress u) :
    ConfigureProgress t := by
  cases h
  case micro h => exact h.keeps_configureProgress inv
  case accept => exact .of_step_zero rfl rfl rfl
  case arrive he _ | overrun he _ _ =>
    intro ho
    obtain ⟨hA, hB, admitted, clock, sent, quiet, later⟩ := inv ho
    refine ⟨hA, hB, admitted, clock, sent, fun h3 h6 => ?_, later⟩
    obtain ⟨receiverOff, -⟩ := quiet h3 h6
    exact absurd (he.symm.trans receiverOff) Bool.noConfusion
  case drain he _ _ | drainReady he _ _ =>
    intro ho
    obtain ⟨hA, hB, admitted, clock, -, quiet, later⟩ := inv ho
    refine ⟨hA, hB, admitted, clock, fun _ => rfl, fun h3 h6 => ?_, later⟩
    obtain ⟨-, transmitterOff, -⟩ := quiet h3 h6
    exact absurd (he.symm.trans transmitterOff) Bool.noConfusion
  case take | handlerRead | handlerReadEmpty =>
    intro ho
    obtain ⟨hA, hB, admitted, clock, sent, quiet, later⟩ := inv ho
    refine ⟨hA, hB, admitted, clock, sent, fun h3 h6 => ?_, later⟩
    obtain ⟨receiverOff, transmitterOff, -, full⟩ := quiet h3 h6
    exact ⟨receiverOff, transmitterOff, rfl, full⟩
  case access ht _ _ => exact absurd (hh.symm.trans ht) Bool.false_ne_true
  case pass | unclocked | refuseWord | refuseVariant | acceptNoOp | dispatch | handlerPush | handlerDrop |
      handlerOverwrite | pop | badAccess =>
    exact inv

/-! ### The end state of CONFIGURE (R117) -/

/-- What holds where a CONFIGURE has just ended that was at `u` before its last step. -/
structure ConfigureEnd (u t : State) : Prop where
  pins : t.pins = .peripheral u.cfg.pinMask .peripheralInputNoPullUp
  clk : t.clk = true
  rxen : t.rxen = true
  txen : t.txen = true
  mr : t.mr = some 0x00000800#32
  brgr : t.brgr = some (BitVec.ofNat 32 (u.readB.toNat / (16 * u.readA.toNat)))
  pdcRxen : t.pdcRxen = false
  pdcTxen : t.pdcTxen = false
  thrValid : t.thrValid = false
  interrupt : u.cfg.variant = .interruptDriver → t.imrRxrdy = true ∧ t.lineEn = true ∧ t.port = .running
  polling : u.cfg.variant ≠ .interruptDriver → t.port = .configuredIdle

/-- Only the last step of CONFIGURE, 6 or 8, ends it, and it adds the enables or the line to its progress (R116). -/
theorem Micro.configureEnd (h : Micro u t) (inv : ConfigureProgress u) (ho : u.seqOp = 0x01#8)
    (idle : t.seqOp = 0x00#8) : ConfigureEnd u t := by
  obtain ⟨-, -, admitted, clock, sent, -, mode, stored, transfers, enables, unmasked⟩ := inv ho
  cases h
  case enableDone hv h6 hk =>
    obtain ⟨pins, divisor⟩ := admitted (by simp [h6])
    obtain ⟨pdcRxen, pdcTxen⟩ := transfers (by simp [h6])
    exact ⟨pins, hk, rfl, rfl, mode (by simp [h6]), (stored (by simp [h6])).trans divisor, pdcRxen, pdcTxen,
      sent (by simp [h6]), fun h => absurd h hv, fun _ => rfl⟩
  case lineOn hv h8 =>
    obtain ⟨pins, divisor⟩ := admitted (by simp [h8])
    obtain ⟨pdcRxen, pdcTxen⟩ := transfers (by simp [h8])
    obtain ⟨rxen, txen⟩ := enables (by simp [h8])
    exact ⟨pins, clock (by simp [h8]), rxen, txen, mode (by simp [h8]), (stored (by simp [h8])).trans divisor,
      pdcRxen, pdcTxen, sent (by simp [h8]), fun _ => ⟨unmasked (by simp [h8]), rfl, rfl⟩, fun h => absurd hv h⟩
  case lineOff other _ | send other _ _ _ | arm other _ _ | noByte other _ _ _ | receive other _ _ _ |
      receiveLate other _ _ _ =>
    exact absurd (ho.symm.trans other) (by decide)
  all_goals exact absurd (ho.symm.trans idle) (by decide)

/-- No agent but the foreground moves the sequencer, and a command is accepted where it is idle (R12, R59). -/
theorem Move.configureEnd (h : Move turn u t) (inv : ConfigureProgress u) (ho : u.seqOp = 0x01#8)
    (idle : t.seqOp = 0x00#8) : ConfigureEnd u t := by
  cases h
  case micro h => exact h.configureEnd inv ho idle
  case accept free _ _ => exact absurd (ho.symm.trans free) (by decide)
  case access h => exact absurd (ho.symm.trans (h.foregroundKept.seqOp.symm.trans idle)) (by decide)
  all_goals exact absurd (ho.symm.trans idle) (by decide)

end

/-- Settles O34: a step is a move from the state with its turn taken, which has the same registers and the same
sequencer. -/
theorem configureReachesItsEndStateUnderInterleaving : Obligations.ConfigureReachesItsEndStateUnderInterleaving := by
  intro s t noHarness inv h
  have move := (step_moves h).2
  refine ⟨move.keeps_configureProgress (nextTurn_harness noHarness) inv, fun ho idle => ?_⟩
  have e := move.configureEnd inv ho idle
  exact ⟨e.pins, e.clk, e.rxen, e.txen, e.mr, e.brgr, e.pdcRxen, e.pdcTxen, e.thrValid, e.interrupt, e.polling⟩

/-! ### The masked interrupt (R124, R185, R187) -/

section
variable {turn : Turn} {u t : State}

/-- With the source disabled or the line masked, dispatch is not enabled (R185, R187, R189). -/
theorem not_dispatchEnabled_of_masked (masked : u.imrRxrdy = false ∨ u.lineEn = false) :
    ¬ u.dispatchEnabled = true := by
  intro h
  obtain ⟨-, -, ⟨-, -, unmasked⟩, line, -⟩ := (dispatchEnabled_iff u).mp h
  rcases masked with off | off
  · exact Bool.noConfusion (off.symm.trans unmasked)
  · exact Bool.noConfusion (off.symm.trans line)

theorem Access.keeps_ctx_rxbuf (h : Access u t) : t.ctx = u.ctx ∧ t.rxbuf = u.rxbuf := by
  cases h <;> exact ⟨rfl, rfl⟩

theorem Micro.keeps_ctx_rxbuf (h : Micro u t) : t.ctx = u.ctx ∧ t.rxbuf = u.rxbuf := by
  cases h <;> exact ⟨rfl, rfl⟩

/-- Only dispatch leaves the foreground, and only the handler and the consumer mutate the buffer. -/
theorem Move.masked_buffer (h : Move turn u t) (hc : u.ctx = .fg) (masked : u.imrRxrdy = false ∨ u.lineEn = false) :
    t.ctx = .fg ∧ (t.rxbuf = u.rxbuf ∨ (u.seqOp = 0x00#8 ∧ t.rxbuf = u.rxbuf.tail)) := by
  cases h
  case dispatch hd => exact absurd hd (not_dispatchEnabled_of_masked masked)
  case handlerRead hi _ _ _ | handlerReadEmpty hi _ _ _ | handlerPush hi _ _ | handlerDrop hi _ _ _ |
      handlerOverwrite hi _ _ _ =>
    exact absurd (hc.symm.trans hi) Ctx.noConfusion
  case micro h =>
    obtain ⟨ctx, rxbuf⟩ := h.keeps_ctx_rxbuf
    exact ⟨ctx.trans hc, .inl rxbuf⟩
  case access h =>
    obtain ⟨ctx, rxbuf⟩ := h.keeps_ctx_rxbuf
    exact ⟨ctx.trans hc, .inl rxbuf⟩
  case pop ho hb => exact ⟨hc, .inr ⟨ho, by rw [hb, List.tail_cons]⟩⟩
  all_goals exact ⟨hc, .inl rfl⟩

end

/-- Settles O37: a step is a move, and with dispatch not enabled no move enters the handler or pushes. -/
theorem maskedInterruptMutatesNoBuffer : Obligations.MaskedInterruptMutatesNoBuffer :=
  fun _ _ hc masked h => (step_moves h).2.masked_buffer hc masked

end Sys2Proof.Machine
end

section
/-! PROOFS. The configuration family (41_configuration.md), the commands: the micro-operations of CONFIGURE and STOP,
one equation each (R110, R120), the admission of CONFIGURE and its divisor (R111 to R113), the whole runs of both
commands, and the accesses without the clock (R80, R122). -/

namespace Sys2Proof.Machine

/-! ### A command in progress -/

/-- The live state in the foreground in which `exec` of the command whose opcode is `op` is micro-operation `n`. -/
structure AtStep (s : State) (op : Opcode) (n : BitVec 4) : Prop where
  live : s.live
  ctx : s.ctx = .fg
  seqOp : s.seqOp = op
  seqStep : s.seqStep = n

/-- `exec` of the command in progress runs its next micro-operation, whatever its operands (R12, R59). -/
theorem AtStep.runCommand_eq {s : State} {op : Opcode} {n : BitVec 4} (h : AtStep s op n) (busy : op ≠ 0x00#8)
    (accept : State → State) (micro : State → StepResult) : runCommand op accept micro s = micro s := by
  obtain ⟨hl, hc, rfl, -⟩ := h
  rw [runCommand, whenLive_of_live _ hl.1 hl.2, hc]
  simp only [if_neg busy, if_true]

section
variable {s : State} {n : BitVec 4}

theorem AtStep.exec_configure (h : AtStep s 0x01#8 n) (b m : Word) : exec (.configure b m) s = configureMicro s :=
  h.runCommand_eq (by decide) _ configureMicro

theorem AtStep.exec_stop (h : AtStep s 0x02#8 n) : exec .stop s = stopMicro s :=
  h.runCommand_eq (by decide) _ stopMicro

theorem AtStep.exec_putc (h : AtStep s 0x03#8 n) (c : Byte) : exec (.putc c) s = putcMicro s :=
  h.runCommand_eq (by decide) _ putcMicro

theorem AtStep.exec_tprecv (h : AtStep s 0x05#8 n) : exec .tprecv s = tprecvMicro s :=
  h.runCommand_eq (by decide) _ tprecvMicro

/-! ### The first access without the clock (R80, R122, R135, R155) -/

theorem AtStep.exec_stop_of_not_clk (h : AtStep s 0x02#8 0#4) (hk : s.clk = false) :
    exec .stop s = .next (s.raiseFault (.unclockedAccess .IDR)) := by
  rw [h.exec_stop, stopMicro, h.seqStep]
  exact congrArg (thenNext · State.advance) (clocked_of_not_clk .IDR _ hk)

theorem AtStep.exec_putc_of_not_clk (h : AtStep s 0x03#8 0#4) (hk : s.clk = false) (c : Byte) :
    exec (.putc c) s = .next (s.raiseFault (.unclockedAccess .SR)) := by
  rw [h.exec_putc, putcMicro, h.seqStep]
  exact congrArg (thenNextWith · putcPolled) (clocked_of_not_clk .SR _ hk)

theorem AtStep.exec_tprecv_of_not_clk (h : AtStep s 0x05#8 0#4) (hk : s.clk = false) :
    exec .tprecv s = .next (s.raiseFault (.unclockedAccess .SR)) := by
  rw [h.exec_tprecv, tprecvMicro, h.seqStep]
  exact congrArg (thenNextWith · tprecvPolled) (clocked_of_not_clk .SR _ hk)

end

/-- Settles O21: the ten accesses meet the clock gate alike; STOP, PUTC and TPRECV meet it in their step 0. -/
theorem unclockedRegisterAccessFaults : Obligations.UnclockedRegisterAccessFaults := by
  intro s hl hk
  refine ⟨fun i r hi => exec_access_of_not_clk hi hl hk, fun hc h0 => ⟨fun ho => ?_, fun ho => ?_, fun ho => ?_⟩⟩
  · exact AtStep.exec_stop_of_not_clk ⟨hl, hc, ho, h0⟩ hk
  · exact AtStep.exec_putc_of_not_clk ⟨hl, hc, ho, h0⟩ hk
  · exact AtStep.exec_tprecv_of_not_clk ⟨hl, hc, ho, h0⟩ hk

/-! ### Admission of CONFIGURE (R113) -/

/-- Operands that CONFIGURE admits under a configuration (R113). -/
structure Admitted (c : Config) (b m : Word) : Prop where
  baud : b ≠ 0#32
  clock : m ≠ 0#32
  fits : m.toNat / (16 * b.toNat) < 2 ^ c.divisorWidth

theorem admission_of_zeroBaudrate (c : Config) {b : Word} (m : Word) (hb : b = 0#32) :
    admission c b m = .error .zeroBaudrate :=
  if_pos hb

theorem admission_of_zeroMasterClock (c : Config) {b m : Word} (hb : b ≠ 0#32) (hm : m = 0#32) :
    admission c b m = .error .zeroMasterClock :=
  (if_neg hb).trans (if_pos hm)

theorem admission_of_wide {c : Config} {b m : Word} (hb : b ≠ 0#32) (hm : m ≠ 0#32)
    (wide : 2 ^ c.divisorWidth ≤ m.toNat / (16 * b.toNat)) :
    admission c b m = .error (.divisorTooWide (m.toNat / (16 * b.toNat))) :=
  (if_neg hb).trans ((if_neg hm).trans (if_pos wide))

theorem Admitted.admission_eq {c : Config} {b m : Word} (h : Admitted c b m) :
    admission c b m = .ok (BitVec.ofNat 32 (m.toNat / (16 * b.toNat))) :=
  (if_neg h.baud).trans ((if_neg h.clock).trans (if_neg (Nat.not_le.mpr h.fits)))

section
variable {s : State} {b m : Word} (b' m' : Word)

theorem readA_of_latched (hA : s.latchA = some b) : s.readA = b := by rw [State.readA, hA, Option.getD_some]

theorem readB_of_latched (hB : s.latchB = some m) : s.readB = m := by rw [State.readB, hB, Option.getD_some]

/-- A refused admission performs no step (R113, R183). -/
theorem AtStep.exec_configure_refused {q : Refusal} (h : AtStep s 0x01#8 0#4) (hA : s.latchA = some b)
    (hB : s.latchB = some m) (refused : admission s.cfg b m = .error q) :
    exec (.configure b' m') s = .next (s.refuse q) := by
  have refusal : configureAdmit s = .error (s.refuse q) := by
    rw [configureAdmit, readA_of_latched hA, readB_of_latched hB, refused]
  rw [h.exec_configure, configureMicro, h.seqStep]
  exact congrArg (thenNext · State.advance) refusal

/-- An admission that meets no refusal latches the divisor and requests the pins (R95, R110). -/
theorem AtStep.exec_configure_admitted (h : AtStep s 0x01#8 0#4) (hA : s.latchA = some b)
    (hB : s.latchB = some m) (admitted : Admitted s.cfg b m) :
    exec (.configure b' m') s = .next { s with
      latchT := some (BitVec.ofNat 32 (m.toNat / (16 * b.toNat))), seqStep := 1#4,
      pins := .peripheral s.cfg.pinMask .peripheralInputNoPullUp,
      hist := s.hist ++ [.pinCfg s.cfg.pinMask .peripheralInputNoPullUp] } := by
  have admits : configureAdmit s =
      .ok (pinCfg { s with latchT := some (BitVec.ofNat 32 (m.toNat / (16 * b.toNat))) }) := by
    rw [configureAdmit, readA_of_latched hA, readB_of_latched hB, admitted.admission_eq]
  rw [h.exec_configure, configureMicro, h.seqStep]
  simp [admits, State.advance, pinCfg, State.emit, h.seqStep]

end

/-- Settles O30: three refusals in the order of R113, and the operands that meet none. -/
theorem configureRefusesInadmissibleOperands : Obligations.ConfigureRefusesInadmissibleOperands := by
  intro s b m b' m' hl hc ho h0 hA hB
  have h : AtStep s 0x01#8 0#4 := ⟨hl, hc, ho, h0⟩
  refine ⟨fun hb => ?_, fun hb hm => ?_, fun hb hm wide => ?_, fun hb hm fits => ?_⟩
  · exact h.exec_configure_refused b' m' hA hB (admission_of_zeroBaudrate s.cfg m hb)
  · exact h.exec_configure_refused b' m' hA hB (admission_of_zeroMasterClock s.cfg hb hm)
  · exact h.exec_configure_refused b' m' hA hB (admission_of_wide hb hm wide)
  · exact ⟨_, h.exec_configure_admitted b' m' hA hB ⟨hb, hm, fits⟩, hl.2, ho, rfl, rfl⟩

/-! ### The divisor (R111, R112) -/

/-- Settles O31: the quotient fits the latch, and is taken in the natural numbers. -/
theorem configureDivisorIsTheTruncatedQuotient : Obligations.ConfigureDivisorIsTheTruncatedQuotient := by
  intro s b m b' m' hl hc ho h0 hA hB hb hm fits
  have h : AtStep s 0x01#8 0#4 := ⟨hl, hc, ho, h0⟩
  have positive : 0 < 16 * b.toNat := Nat.mul_pos (by decide) (Nat.pos_of_ne_zero (BitVec.toNat_ne.mp hb))
  have quotient : (BitVec.ofNat 32 (m.toNat / (16 * b.toNat))).toNat = m.toNat / (16 * b.toNat) :=
    toNat_ofNat_divisor b m
  refine ⟨_, _, h.exec_configure_admitted b' m' hA hB ⟨hb, hm, fits⟩, rfl, ?_, ?_, ?_, fun small => ?_⟩
  · rw [quotient]
    exact Nat.mul_div_le _ _
  · rw [quotient]
    exact Nat.lt_mul_div_succ _ positive
  · rw [quotient, Nat.div_div_eq_div_mul, Nat.mul_comm]
  · rw [Nat.div_eq_of_lt small]

/-! ### The micro-operations of CONFIGURE after its admission (R110, R116) -/

section
variable {s : State} (b m : Word)

theorem AtStep.exec_configure_clockOn (h : AtStep s 0x01#8 1#4) : exec (.configure b m) s = .next { s with
    clk := true, seqStep := 2#4, hist := s.hist ++ [.clkEn s.cfg.clockId] } := by
  rw [h.exec_configure, configureMicro, h.seqStep]
  simp [configurationStep_1, State.advance, clkEn, State.emit, h.seqStep]

theorem AtStep.exec_configure_lineOn (h : AtStep s 0x01#8 8#4) (hv : s.cfg.variant = .interruptDriver) :
    exec (.configure b m) s = .next { s with
      lineEn := true, seqOp := 0x00#8, seqStep := 0#4, port := .running,
      hist := s.hist ++ [.lineEn s.cfg.irqLine, .done 0x01#8 none] } := by
  rw [h.exec_configure, configureMicro, h.seqStep]
  simp [Config.debug, hv, configureDone, lineEnable, State.setPort, State.complete, State.emit, Opcode.configure]

variable (hk : s.clk = true)
include hk

theorem AtStep.exec_configure_resetDisable (h : AtStep s 0x01#8 2#4) : exec (.configure b m) s = .next { s with
    rxrdy := false, rhr := none, thrValid := false, txe := false, rxen := false, txen := false,
    seqStep := 3#4, hist := s.hist ++ [.regW .CR 0x000000AC#32] } := by
  rw [h.exec_configure, configureMicro, h.seqStep]
  simp [configurationStep_2 hk, State.advance, State.emit, h.seqStep]

theorem AtStep.exec_configure_mode (h : AtStep s 0x01#8 3#4) : exec (.configure b m) s = .next { s with
    mr := some 0x00000800#32, seqStep := 4#4, hist := s.hist ++ [.regW .MR 0x00000800#32] } := by
  rw [h.exec_configure, configureMicro, h.seqStep]
  simp [configurationStep_3 hk, State.advance, State.emit, h.seqStep]

theorem AtStep.exec_configure_divisor {d : Word} (h : AtStep s 0x01#8 4#4) (hT : s.latchT = some d)
    (fits : d.toNat < 2 ^ s.cfg.divisorWidth) : exec (.configure b m) s = .next { s with
      brgr := some d, seqStep := 5#4, hist := s.hist ++ [.regW .BRGR d] } := by
  rw [h.exec_configure, configureMicro, h.seqStep]
  simp [configurationStep_4 hk hT fits, State.advance, State.emit, h.seqStep]

theorem AtStep.exec_configure_transfersOff (h : AtStep s 0x01#8 5#4) : exec (.configure b m) s = .next { s with
    pdcRxen := false, pdcTxen := false, seqStep := 6#4, hist := s.hist ++ [.regW .PTCR 0x00000202#32] } := by
  rw [h.exec_configure, configureMicro, h.seqStep]
  simp [configurationStep_5 hk, State.advance, State.emit, h.seqStep]

theorem AtStep.exec_configure_enableDone (h : AtStep s 0x01#8 6#4) (hv : s.cfg.variant ≠ .interruptDriver) :
    exec (.configure b m) s = .next { s with
      rxen := true, txen := true, seqOp := 0x00#8, seqStep := 0#4, port := .configuredIdle,
      hist := s.hist ++ [.regW .CR 0x00000050#32, .done 0x01#8 none] } := by
  rw [h.exec_configure, configureMicro, h.seqStep]
  simp [configurationStep_6 hk, Config.debug, hv, configureDone, State.setPort, State.complete, State.emit,
    Opcode.configure]

theorem AtStep.exec_configure_enable (h : AtStep s 0x01#8 6#4) (hv : s.cfg.variant = .interruptDriver) :
    exec (.configure b m) s = .next { s with
      rxen := true, txen := true, seqStep := 7#4, hist := s.hist ++ [.regW .CR 0x00000050#32] } := by
  rw [h.exec_configure, configureMicro, h.seqStep]
  simp [configurationStep_6 hk, Config.debug, hv, State.advance, State.emit, h.seqStep]

theorem AtStep.exec_configure_unmask (h : AtStep s 0x01#8 7#4) (hv : s.cfg.variant = .interruptDriver) :
    exec (.configure b m) s = .next { s with
      imrRxrdy := true, seqStep := 8#4, hist := s.hist ++ [.regW .IER 0x00000001#32] } := by
  rw [h.exec_configure, configureMicro, h.seqStep]
  simp [regWriteIER_of_clk hk, intRxrdy_eq, Config.debug, hv, State.advance, State.emit, h.seqStep]

end

/-- Settles O32: one equation for each micro-operation. -/
theorem configureMicroOperationsInOrder : Obligations.ConfigureMicroOperationsInOrder := by
  intro s b m b' m' d hl hc ho hA hB
  have atStep : ∀ {n}, s.seqStep = n → AtStep s 0x01#8 n := fun hs => ⟨hl, hc, ho, hs⟩
  refine ⟨fun h0 hb hm fits => ?_, fun h1 => ?_, fun hk => ⟨fun h2 => ?_, fun h3 => ?_, fun h4 hT fits => ?_,
    fun h5 => ?_, fun h6 hv => ?_, fun hv => ⟨fun h6 => ?_, fun h7 => ?_, fun h8 => ?_⟩⟩⟩
  · exact (atStep h0).exec_configure_admitted b' m' hA hB ⟨hb, hm, fits⟩
  · exact (atStep h1).exec_configure_clockOn b' m'
  · exact (atStep h2).exec_configure_resetDisable b' m' hk
  · exact (atStep h3).exec_configure_mode b' m' hk
  · exact (atStep h4).exec_configure_divisor b' m' hk hT fits
  · exact (atStep h5).exec_configure_transfersOff b' m' hk
  · exact (atStep h6).exec_configure_enableDone b' m' hk hv
  · exact (atStep h6).exec_configure_enable b' m' hk hv
  · exact (atStep h7).exec_configure_unmask b' m' hk hv
  · exact (atStep h8).exec_configure_lineOn b' m' hv

/-! ### Runs of one instruction -/

/-- A run is its first step and the run from there. -/
theorem execRun_cons {n : Nat} {i : Instr} {s u : State} {r : StepResult} (first : exec i s = .next u)
    (rest : execRun n i u = r) : execRun (n + 1) i s = r := by
  rw [execRun, first]
  exact rest

/-- Two runs of one instruction, the second from where the first ends. -/
theorem execRun_append {n k : Nat} {i : Instr} {s u : State} (first : execRun n i s = .next u) :
    execRun (n + k) i s = execRun k i u := by
  induction n generalizing s with
  | zero =>
    obtain rfl := Host.Outcome.next.inj first
    rw [Nat.zero_add]
  | succ n ih =>
    rw [Nat.succ_add, execRun]
    rw [execRun] at first
    split at first
    · exact ih first
    · cases first
    · cases first

/-! ### The run of STOP (R120, R121) -/

section
variable {s : State}

theorem AtStep.exec_stop_mask (h : AtStep s 0x02#8 0#4) (hk : s.clk = true) : exec .stop s = .next { s with
    imrRxrdy := false, seqStep := 1#4, hist := s.hist ++ [.regW .IDR 0x00000001#32] } := by
  rw [h.exec_stop, stopMicro, h.seqStep]
  simp [regWriteIDR_of_clk hk, intRxrdy_eq, State.advance, State.emit, h.seqStep]

theorem AtStep.exec_stop_lineOff (h : AtStep s 0x02#8 1#4) : exec .stop s = .next { s with
    lineEn := false, seqOp := 0x00#8, seqStep := 0#4, port := .stopped,
    hist := s.hist ++ [.lineDis s.cfg.irqLine, .done 0x02#8 none] } := by
  rw [h.exec_stop, stopMicro, h.seqStep]
  simp [lineDisable, State.setPort, State.complete, State.emit, Opcode.stop]

/-- STOP from an idle port: acceptance and its two micro-operations. -/
theorem execRun_stop (hl : s.live) (hc : s.ctx = .fg) (ho : s.seqOp = 0x00#8) (hv : s.cfg.variant ≠ .noOpDriver)
    (hk : s.clk = true) : execRun 3 .stop s = .next { s with
      seqOp := 0x00#8, seqStep := 0#4, latchA := some 0#32, latchB := some 0#32,
      imrRxrdy := false, lineEn := false, port := .stopped,
      hist := s.hist ++
        [.cmd 0x02#8 0#32 0#32, .regW .IDR 0x1#32, .lineDis s.cfg.irqLine, .done 0x02#8 none] } := by
  obtain ⟨-, accepted, -⟩ := (idleSequencerAcceptsTheCommand s hl hc ho).1 hv
  refine execRun_cons accepted ?_
  refine execRun_cons (AtStep.exec_stop_mask ⟨hl, hc, rfl, rfl⟩ hk) ?_
  refine execRun_cons (AtStep.exec_stop_lineOff ⟨hl, hc, rfl, rfl⟩) ?_
  simp [execRun]

end

/-- Settles O35: one equation for each micro-operation. -/
theorem stopMasksTheInterruptOnly : Obligations.StopMasksTheInterruptOnly := fun _ hl hc ho =>
  ⟨fun h0 hk => AtStep.exec_stop_mask ⟨hl, hc, ho, h0⟩ hk, fun h1 => AtStep.exec_stop_lineOff ⟨hl, hc, ho, h1⟩⟩

/-- Settles O36: the run of STOP ends in an idle port with the clock on, from which it runs again. -/
theorem stopRunsToItsEndState : Obligations.StopRunsToItsEndState := by
  intro s hl hc ho hv hk
  have once := execRun_stop hl hc ho hv hk
  exact ⟨once, (execRun_append once).trans (execRun_stop hl hc rfl hv hk)⟩

/-! ### The run of CONFIGURE (R110, R115 to R117) -/

/-- A CONFIGURE of `s` that has run without interruption up to its enable write (R110, steps 0 to 5). -/
def beforeEnable (b m d : Word) (s : State) : State := { s with
  seqOp := 0x01#8, seqStep := 6#4, latchA := some b, latchB := some m, latchT := some d,
  pins := .peripheral s.cfg.pinMask .peripheralInputNoPullUp, clk := true,
  rxen := false, txen := false, mr := some 0x800#32, brgr := some d,
  pdcRxen := false, pdcTxen := false, rxrdy := false, rhr := none, txe := false, thrValid := false
  hist := s.hist ++
    [.cmd 0x01#8 b m, .pinCfg s.cfg.pinMask .peripheralInputNoPullUp, .clkEn s.cfg.clockId,
      .regW .CR 0xAC#32, .regW .MR 0x800#32, .regW .BRGR d, .regW .PTCR 0x202#32] }

/-- Acceptance and steps 0 to 5 of CONFIGURE, the same in every variant that performs it. -/
theorem execRun_configure_beforeEnable {s : State} {b m : Word} (hl : s.live) (hc : s.ctx = .fg)
    (ho : s.seqOp = 0x00#8) (hv : s.cfg.variant ≠ .noOpDriver) (admitted : Admitted s.cfg b m) :
    execRun 7 (.configure b m) s =
      .next (beforeEnable b m (BitVec.ofNat 32 (m.toNat / (16 * b.toNat))) s) := by
  obtain ⟨accepts, -⟩ := (idleSequencerAcceptsTheCommand s hl hc ho).1 hv
  refine execRun_cons (accepts b m) ?_
  refine execRun_cons (AtStep.exec_configure_admitted b m ⟨hl, hc, rfl, rfl⟩ rfl rfl admitted) ?_
  refine execRun_cons (AtStep.exec_configure_clockOn b m ⟨hl, hc, rfl, rfl⟩) ?_
  refine execRun_cons (AtStep.exec_configure_resetDisable b m rfl ⟨hl, hc, rfl, rfl⟩) ?_
  refine execRun_cons (AtStep.exec_configure_mode b m rfl ⟨hl, hc, rfl, rfl⟩) ?_
  refine execRun_cons
    (AtStep.exec_configure_divisor b m rfl ⟨hl, hc, rfl, rfl⟩ rfl (toNat_ofNat_lt admitted.fits)) ?_
  refine execRun_cons (AtStep.exec_configure_transfersOff b m rfl ⟨hl, hc, rfl, rfl⟩) ?_
  simp [execRun, beforeEnable]

/-- Settles O33: the common part of the run, then one more step, or three where the interrupt is set up. -/
theorem configureRunsToItsEndState : Obligations.ConfigureRunsToItsEndState := by
  intro s b m hl hc ho hb hm fits d events t
  have common := fun hv => execRun_configure_beforeEnable hl hc ho hv ⟨hb, hm, fits⟩
  refine ⟨fun variant => ?_, fun variant => ?_⟩
  · have performs : s.cfg.variant ≠ .noOpDriver := by rcases variant with v | v <;> simp [v]
    have polls : s.cfg.variant ≠ .interruptDriver := by rcases variant with v | v <;> simp [v]
    refine (execRun_append (k := 1) (common performs)).trans ?_
    refine execRun_cons (AtStep.exec_configure_enableDone b m rfl ⟨hl, hc, rfl, rfl⟩ polls) ?_
    simp [execRun, beforeEnable, t, events, d]
  · refine (execRun_append (k := 3) (common (by simp [variant]))).trans ?_
    refine execRun_cons (AtStep.exec_configure_enable b m rfl ⟨hl, hc, rfl, rfl⟩ variant) ?_
    refine execRun_cons (AtStep.exec_configure_unmask b m rfl ⟨hl, hc, rfl, rfl⟩ variant) ?_
    refine execRun_cons (AtStep.exec_configure_lineOn b m ⟨hl, hc, rfl, rfl⟩ variant) ?_
    simp [execRun, beforeEnable, t, events, d]

end Sys2Proof.Machine
end

section
/-! PROOFS. The transmit family (42_transmit.md), the commands: PUTC's poll and its write, one equation each (R130 to
R132), its whole run, and its polling where nothing drains (R131, R133). -/

namespace Sys2Proof.Machine

/-! ### The micro-operations of PUTC (R130 to R132) -/

/-- The value a status read gives: the flags and the next free value (R68, R81). -/
def State.status (s : State) : Word := statusWord s.rxrdy s.txe (Config.freeWord s.draws)

theorem status_txempty (s : State) : s.status.getLsbD 9 = s.txe := srTxempty_statusWord _ _ _

theorem status_rxrdy (s : State) : s.status.getLsbD 0 = s.rxrdy := srRxrdy_statusWord _ _ _

theorem regReadSR_of_clk {s : State} (hk : s.clk = true) :
    regReadSR s = .ok (s.status, s.drawn.emit (.regR .SR s.status)) :=
  clocked_of_clk .SR _ hk

/-- The effect of PUTC's poll, tied to `exec` by `AtStep.exec_putc_poll` (R131). -/
def State.polled (s : State) : State := { s with
  latchT := some s.status, seqStep := if s.txe then 1#4 else 0#4,
  hist := s.hist ++ [.regR .SR s.status], draws := s.draws + 1 }

section
variable {s : State} (c : Byte)

theorem AtStep.exec_putc_poll (h : AtStep s 0x03#8 0#4) (hk : s.clk = true) :
    exec (.putc c) s = .next s.polled := by
  rw [h.exec_putc, putcMicro, h.seqStep]
  have branch : srTxempty s.status = s.txe := status_txempty s
  simp [regReadSR_of_clk hk, putcPolled, branch, State.polled, State.atStep, State.drawn, State.emit]

theorem AtStep.exec_putc_write {a : Word} (h : AtStep s 0x03#8 1#4) (hk : s.clk = true) (he : s.txe = true)
    (hA : s.latchA = some a) : exec (.putc c) s = .next { s with
      thr := some (a.setWidth 8), thrValid := true, txe := false, seqOp := 0x00#8, seqStep := 0#4,
      hist := s.hist ++ [.regW .THR ((a.setWidth 8).setWidth 32), .done 0x03#8 none] } := by
  have byte : s.putcByte = a.setWidth 8 := congrArg lowByte (readA_of_latched hA)
  have handed : lowByte ((a.setWidth 8).setWidth 32) = a.setWidth 8 := lowByte_toWord (a.setWidth 8)
  rw [h.exec_putc, putcMicro, h.seqStep]
  simp [regWriteTHR_of_empty hk he, byte, handed, State.holdByte, State.complete, State.emit, Opcode.putc,
    Byte.toWord]

end

/-- Settles O38: one equation for each micro-operation. -/
theorem putcPollsAndThenWritesItsByte : Obligations.PutcPollsAndThenWritesItsByte := by
  intro s c hl hc ho hk
  refine ⟨fun h0 => ?_, fun a h1 he hA => ?_⟩
  · exact ⟨s.status, status_txempty s, status_rxrdy s, AtStep.exec_putc_poll c ⟨hl, hc, ho, h0⟩ hk⟩
  · exact AtStep.exec_putc_write c ⟨hl, hc, ho, h1⟩ hk he hA

/-- Settles O39: acceptance, the poll and the write, each from where the one before it ends. -/
theorem putcRunsToItsEndState : Obligations.PutcRunsToItsEndState := by
  intro s c hl hc ho hv hk he
  obtain ⟨-, -, accepts⟩ := (idleSequencerAcceptsTheCommand s hl hc ho).1 hv
  refine ⟨s.status, (status_txempty s).trans he, ?_⟩
  refine execRun_cons (accepts c) ?_
  refine execRun_cons (AtStep.exec_putc_poll c ⟨hl, hc, rfl, rfl⟩ hk) ?_
  refine execRun_cons (AtStep.exec_putc_write c ⟨hl, hc, rfl, if_pos he⟩ hk he rfl) ?_
  simp [execRun, State.polled, State.status]

/-! ### Polling without a drain (R131, R133) -/

/-- PUTC stands at its poll in the foreground, the clock on and the transmitter not empty. -/
structure Polling (s : State) : Prop extends AtStep s 0x03#8 0#4 where
  clk : s.clk = true
  full : s.txe = false

/-- A poll that finds the transmitter not empty leads back to the poll. -/
theorem Polling.polled {s : State} (h : Polling s) : Polling s.polled :=
  ⟨⟨h.live, h.ctx, h.seqOp, if_neg (by simp [h.full])⟩, h.clk, h.full⟩

/-- Any number of polls, and one status read in the history for each. -/
theorem Polling.execRun_putc {s : State} (h : Polling s) (n : Nat) (c : Byte) :
    ∃ (t : State) (vs : List Word), execRun n (.putc c) s = .next t ∧ Polling t ∧ t.thr = s.thr ∧
      vs.length = n ∧ t.hist = s.hist ++ vs.map (Event.regR .SR) := by
  induction n generalizing s with
  | zero => exact ⟨s, [], rfl, h, rfl, rfl, (List.append_nil _).symm⟩
  | succ n ih =>
    obtain ⟨t, vs, run, polling, thr, length, hist⟩ := ih h.polled
    refine ⟨t, s.status :: vs, execRun_cons (h.exec_putc_poll c h.clk) run, polling, thr, by simp [length], ?_⟩
    rw [hist]
    simp [State.polled]

/-- The run from `s` in which the foreground has every turn and polls. -/
def pollingRun (s : State) : Nat → State
  | 0 => s
  | n + 1 => { pollingRun s n with agenda := [] }.polled

/-- What no poll touches. -/
structure PollKept (s t : State) : Prop where
  dispatchEnabled : t.dispatchEnabled = s.dispatchEnabled
  thr : t.thr = s.thr
  cmds : t.cmds = s.cmds
  lineOut : t.lineOut = s.lineOut

theorem pollingRun_kept (s : State) (n : Nat) : PollKept s (pollingRun s n) := by
  induction n with
  | zero => exact ⟨rfl, rfl, rfl, rfl⟩
  | succ n ih => exact ⟨ih.dispatchEnabled, ih.thr, ih.cmds, ih.lineOut⟩

theorem Polling.agenda {s : State} (h : Polling s) (turns : List Turn) : Polling { s with agenda := turns } :=
  ⟨⟨h.live, h.ctx, h.seqOp, h.seqStep⟩, h.clk, h.full⟩

theorem Polling.pollingRun {s : State} (h : Polling s) (n : Nat) : Polling (pollingRun s n) := by
  induction n with
  | zero => exact h
  | succ n ih => exact (ih.agenda []).polled

/-- The foreground's turn at the poll is the poll. -/
theorem Polling.step_fg {s : State} (h : Polling s) :
    step { s with agenda := [.fg] } = .next { s with agenda := [] }.polled := by
  have putc : commandInProgress { s with agenda := [] } = some (.putc s.putcByte) := by
    simp [commandInProgress, h.seqOp, Opcode.configure, Opcode.stop, Opcode.putc, State.putcByte, State.readA]
  have busy : s.seqOp ≠ 0x00#8 := by simp [h.seqOp]
  exact (step_of_busy (s := { s with agenda := [.fg] }) h.live rfl h.ctx busy putc).trans
    ((h.agenda []).exec_putc_poll s.putcByte h.clk)

/-- Settles O40: `pollingRun` has every micro-operation taken and no dispatch enabled, and stays at the poll. -/
theorem putcPollsForEverWithoutADrain : Obligations.PutcPollsForEverWithoutADrain := by
  intro s hl hc ho h0 hk he
  have start : Polling s := ⟨⟨hl, hc, ho, h0⟩, hk, he⟩
  refine ⟨fun n c => ?_, fun noDispatch => ⟨fun _ => .fg, pollingRun s, rfl, ?_⟩⟩
  · obtain ⟨t, vs, run, polling, thr, length, hist⟩ := start.execRun_putc n c
    exact ⟨t, vs, run, polling.seqOp, polling.seqStep, polling.live, polling.full, thr, length, hist⟩
  · have polling := start.pollingRun
    have kept := pollingRun_kept s
    refine ⟨fun n => (polling n).step_fg, fun _ => rfl, fun n => ⟨fun enabled => ?_, fun handling => ?_⟩,
      fun n _ => ?_, fun n => ?_⟩
    · exact ⟨n, le_rfl, enabled, rfl⟩
    · exact absurd ((polling n).ctx.symm.trans handling) Ctx.noConfusion
    · exact ⟨n, le_rfl, .inl ((kept n).dispatchEnabled.trans noDispatch)⟩
    · exact ⟨(polling n).seqOp, (polling n).seqStep, (kept n).thr, (kept n).cmds, (kept n).lineOut⟩

end Sys2Proof.Machine
end

section
/-! PROOFS. The transmit family (42_transmit.md), the wait of PUTC: no step but a drain ends it (R131, R133, R224), and
where micro-operations and drains are taken it ends (R134, R174). -/

namespace Sys2Proof.Machine

section
variable {turn : Turn} {u t : State}

/-- The micro-operations of PUTC: the poll, and the write with its refusal (R131, R132). Every other is of another
opcode. -/
theorem Micro.putc_cases (h : Micro u t) (ho : u.seqOp = 0x03#8) :
    (u.seqStep = 0#4 ∧ ∃ v, t = { u with
      latchT := some v, seqStep := if u.txe then 1#4 else 0#4, draws := u.draws + 1,
      hist := u.hist ++ [.regR .SR v] }) ∨
    (u.seqStep = 1#4 ∧ u.txe = true ∧ t = { u with
      thr := some u.putcByte, thrValid := true, txe := false, seqOp := 0x00#8, seqStep := 0#4,
      hist := u.hist ++ [.regW .THR u.putcByte.toWord, .done 0x03#8 none] }) ∨
    (u.seqStep = 1#4 ∧ u.txe = false ∧ t = u.refuse (.thrOverwrite u.putcByte.toWord)) := by
  cases h
  case poll v _ h0 _ => exact .inl ⟨h0, v, rfl⟩
  case send h1 _ he => exact .inr (.inl ⟨h1, he, rfl⟩)
  case sendRefused h1 _ he => exact .inr (.inr ⟨h1, he, rfl⟩)
  all_goals simp [ho] at *

/-! ### Only a drain ends the wait (R131, R133, R224) -/

/-- PUTC at its poll and the transmitter not empty, in whichever context. -/
structure Waiting (s : State) : Prop where
  seqOp : s.seqOp = 0x03#8
  seqStep : s.seqStep = 0#4
  full : s.txe = false

/-- PUTC waits at `t` as it did at `u`: no command was accepted and nothing popped. -/
structure StillWaiting (u t : State) : Prop extends Waiting t where
  cmds : t.cmds = u.cmds
  hist : ∃ events, t.hist = u.hist ++ events ∧ ∀ b, Event.pop b ∉ events

/-- Of the micro-operations only the poll is PUTC's step 0, and it leads back to itself. -/
theorem Micro.stillWaiting (h : Micro u t) (w : Waiting u) : StillWaiting u t := by
  obtain ⟨seqOp, seqStep, full⟩ := w
  rcases h.putc_cases seqOp with ⟨-, v, rfl⟩ | ⟨h1, -⟩ | ⟨h1, -⟩
  · exact ⟨⟨seqOp, if_neg (by simp [full]), full⟩, rfl, [.regR .SR v], rfl, by simp⟩
  · exact absurd (seqStep.symm.trans h1) (by decide)
  · exact absurd (seqStep.symm.trans h1) (by decide)

/-- No command is accepted and nothing popped at a busy sequencer; the other agents touch neither it nor
transmit-empty. -/
theorem Move.stillWaiting (hh : turn.harness = false) (h : Move turn u t) (notDrain : turn ≠ .txDrain)
    (w : Waiting u) : StillWaiting u t := by
  have busy : u.seqOp ≠ 0x00#8 := by simp [w.seqOp]
  obtain ⟨seqOp, seqStep, full⟩ := w
  cases h
  case pass => exact ⟨⟨seqOp, seqStep, full⟩, rfl, [], (List.append_nil _).symm, by simp⟩
  case micro h => exact h.stillWaiting ⟨seqOp, seqStep, full⟩
  case refuseWord ho _ _ | refuseVariant ho _ _ | acceptNoOp ho _ _ | accept ho _ _ | pop ho _ => exact absurd ho busy
  case drain ht _ _ _ _ | drainReady ht _ _ _ _ => exact absurd ht notDrain
  case handlerPush | handlerDrop | handlerOverwrite => exact ⟨⟨seqOp, seqStep, full⟩, rfl, [_, _], rfl, by simp⟩
  case access ht _ _ => exact absurd (hh.symm.trans ht) Bool.false_ne_true
  all_goals exact ⟨⟨seqOp, seqStep, full⟩, rfl, [_], rfl, by simp⟩

/-! ### The progress of PUTC (R130 to R134) -/

/-- PUTC of the byte of `a` is in progress, the clock and the transmitter on. -/
structure Sending (a : Word) (s : State) : Prop where
  seqOp : s.seqOp = 0x03#8
  clk : s.clk = true
  txen : s.txen = true
  operand : s.readA = a

/-- PUTC has just written the byte of `a`, and is done (R132). -/
structure Sent (a : Word) (s : State) : Prop where
  seqOp : s.seqOp = 0x00#8
  thr : s.thr = some (a.setWidth 8)
  hist : [.regW .THR ((a.setWidth 8).setWidth 32), .done 0x03#8 none] <:+ s.hist

/-- PUTC goes on from `u` to `t`, and what it waited for it keeps: transmit-empty, and its place at the write. -/
structure SendingOn (a : Word) (u t : State) : Prop extends Sending a t where
  empty : u.txe = true → t.txe = true
  write : u.seqStep = 1#4 → t.seqStep = 1#4

theorem Sending.turnTaken {a : Word} {s : State} (h : Sending a s) : Sending a { s with agenda := [] } :=
  ⟨h.seqOp, h.clk, h.txen, h.operand⟩

variable {a : Word}

theorem Micro.sendingOn_or_sent (h : Micro u t) (s : Sending a u) : SendingOn a u t ∨ Sent a t := by
  obtain ⟨seqOp, clk, txen, rfl⟩ := s
  rcases h.putc_cases seqOp with ⟨h0, v, rfl⟩ | ⟨-, -, rfl⟩ | ⟨-, -, rfl⟩
  · exact .inl ⟨⟨seqOp, clk, txen, rfl⟩, id, fun h1 => absurd (h0.symm.trans h1) (by decide)⟩
  · exact .inr ⟨rfl, rfl, List.suffix_append _ _⟩
  · exact .inl ⟨⟨seqOp, clk, txen, rfl⟩, id, id⟩

/-- No agent but the foreground touches what PUTC has established, and a drain only sets transmit-empty. -/
theorem Move.sendingOn_or_sent (hh : turn.harness = false) (h : Move turn u t) (s : Sending a u) :
    SendingOn a u t ∨ Sent a t := by
  have busy : u.seqOp ≠ 0x00#8 := by simp [s.seqOp]
  cases h
  case micro h => exact h.sendingOn_or_sent s
  case refuseWord ho _ _ | refuseVariant ho _ _ | acceptNoOp ho _ _ | accept ho _ _ => exact absurd ho busy
  case access ht _ _ => exact absurd (hh.symm.trans ht) Bool.false_ne_true
  case drain | drainReady => exact .inl ⟨⟨s.seqOp, s.clk, s.txen, s.operand⟩, fun _ => rfl, id⟩
  all_goals exact .inl ⟨⟨s.seqOp, s.clk, s.txen, s.operand⟩, id, id⟩

/-- With transmit-empty set the foreground's turn is the poll that leads to the write, or the write. -/
theorem Move.putc_advances (h : Move .fg u t) (hc : u.ctx = .fg) (s : Sending a u) (he : u.txe = true) :
    (u.seqStep = 0#4 ∧ t.seqStep = 1#4) ∨ Sent a t := by
  obtain ⟨seqOp, clk, txen, rfl⟩ := s
  cases h
  case pass h => simp [enabled, hc, seqOp] at h
  case unclocked hk _ => exact absurd (clk.symm.trans hk) Bool.noConfusion
  case micro h =>
    rcases h.putc_cases seqOp with ⟨h0, v, rfl⟩ | ⟨-, -, rfl⟩ | ⟨-, full, -⟩
    · exact .inl ⟨h0, if_pos he⟩
    · exact .inr ⟨rfl, rfl, List.suffix_append _ _⟩
    · exact absurd (he.symm.trans full) Bool.noConfusion
  case refuseWord ho _ _ | refuseVariant ho _ _ | acceptNoOp ho _ _ | accept ho _ _ =>
    exact absurd (seqOp.symm.trans ho) (by decide)
  case badAccess ht | access ht _ _ => exact absurd ht Bool.false_ne_true
  all_goals contradiction

/-- A drain's turn leaves the transmitter empty, whether it had a byte to send, none, or nothing to do (R167). -/
theorem Move.txe_of_txDrain (h : Move .txDrain u t) (hk : u.clk = true) (hx : u.txen = true) : t.txe = true := by
  cases h
  case pass h => simpa [enabled, hk, hx] using h
  case unclocked off _ => exact absurd (hk.symm.trans off) Bool.noConfusion
  case drain | drainReady => rfl
  case badAccess ht | access ht _ _ => exact absurd ht Bool.false_ne_true
  all_goals contradiction

/-! ### The progress of the handler (R141, R142) -/

/-- The handler's turn is its read, which leads to its second step, or its return. -/
theorem Move.handler_advances (h : Move .irq u t) (hi : u.ctx = .irq) (hk : u.clk = true) :
    (u.istep = 0#2 ∧ t.istep = 1#2) ∨ t.ctx = .fg := by
  cases h
  case pass h => simp [enabled, hi] at h
  case unclocked off _ => exact absurd (hk.symm.trans off) Bool.noConfusion
  case dispatch hc _ => exact absurd (hi.symm.trans hc) Ctx.noConfusion
  case handlerRead h0 _ _ | handlerReadEmpty h0 _ _ => exact .inl ⟨h0, rfl⟩
  case handlerPush | handlerDrop | handlerOverwrite => exact .inr rfl
  case badAccess ht | access ht _ _ => exact absurd ht Bool.false_ne_true
  all_goals contradiction

/-- No other agent moves the handler. -/
theorem Move.keeps_secondStep (hh : turn.harness = false) (h : Move turn u t) (hi : u.ctx = .irq)
    (h1 : u.istep = 1#2) : t.istep = 1#2 ∨ t.ctx = .fg := by
  cases h
  case micro hc _ | dispatch hc _ => exact absurd (hi.symm.trans hc) Ctx.noConfusion
  case handlerRead | handlerReadEmpty => exact .inl rfl
  case handlerPush | handlerDrop | handlerOverwrite => exact .inr rfl
  case access ht _ _ => exact absurd (hh.symm.trans ht) Bool.false_ne_true
  all_goals exact .inl h1

end

/-! ### Runs in which PUTC never writes -/

/-- Each step of a run is a move of the agent whose turn it is. -/
theorem IsRun.move {turns : Nat → Turn} {states : Nat → State} (run : IsRun turns states) (n : Nat) :
    Move (turns n) { states n with agenda := [] } (states (n + 1)) := by
  obtain ⟨live, -⟩ := step_next (run n)
  exact runTurn_move ((step_of_turn live rfl).symm.trans (run n))

/-- A run of the agents without a harness in which PUTC of the byte of `a` is in progress at every moment. -/
structure SendingRun (a : Word) (turns : Nat → Turn) (states : Nat → State) : Prop where
  run : IsRun turns states
  noHarness : ∀ n, (turns n).harness = false
  sending : ∀ n, Sending a (states n)

section
variable {a : Word} {turns : Nat → Turn} {states : Nat → State}

/-- A run that starts with PUTC in progress writes its byte, or PUTC stays in progress. -/
theorem IsRun.sendingRun_of_unsent (run : IsRun turns states) (noHarness : ∀ n, (turns n).harness = false)
    (start : Sending a (states 0)) (unsent : ∀ n, ¬ Sent a (states n)) : SendingRun a turns states := by
  refine ⟨run, noHarness, fun n => ?_⟩
  induction n with
  | zero => exact start
  | succ n ih =>
    have next := (run.move n).sendingOn_or_sent (noHarness n) ih.turnTaken
    exact (next.resolve_right (unsent (n + 1))).toSending

variable (r : SendingRun a turns states)
include r

theorem SendingRun.sendingOn (n : Nat) : SendingOn a (states n) (states (n + 1)) := by
  have next := (r.run.move n).sendingOn_or_sent (r.noHarness n) (r.sending n).turnTaken
  have ongoing : ¬ Sent a (states (n + 1)) := fun sent =>
    absurd ((r.sending (n + 1)).seqOp.symm.trans sent.seqOp) (by decide)
  obtain ⟨sending, empty, write⟩ := next.resolve_right ongoing
  exact ⟨sending, empty, write⟩

theorem SendingRun.empty_of_le {k n : Nat} (hkn : k ≤ n) (he : (states k).txe = true) : (states n).txe = true := by
  induction n, hkn using Nat.le_induction with
  | base => exact he
  | succ n _ ih => exact (r.sendingOn n).empty ih

theorem SendingRun.write_of_le {k n : Nat} (hkn : k ≤ n) (h1 : (states k).seqStep = 1#4) :
    (states n).seqStep = 1#4 := by
  induction n, hkn using Nat.le_induction with
  | base => exact h1
  | succ n _ ih => exact (r.sendingOn n).write ih

/-- Under F3 the transmitter is empty at some moment: until then its drain is enabled (R133, R174). -/
theorem SendingRun.eventually_empty (fair : FairDrain turns states) : ∃ n, (states n).txe = true := by
  by_contra never
  have full : ∀ n, (states n).txe = false := fun n => Bool.eq_false_iff.mpr fun he => never ⟨n, he⟩
  have drains : ∀ n, enabled .txDrain (states n) = true := fun n => by
    simp [enabled, (r.sending n).clk, (r.sending n).txen, full n]
  obtain ⟨m, -, disabled | turn⟩ := fair 0 (drains 0)
  · exact Bool.noConfusion (disabled.symm.trans (drains m))
  · have move := r.run.move m
    rw [turn] at move
    exact never ⟨m + 1, move.txe_of_txDrain (r.sending m).clk (r.sending m).txen⟩

/-- Under F1 a handler that runs returns, in two turns of its own (R140, R174). -/
theorem SendingRun.eventually_foreground (fair : FairSequencer turns states) (k : Nat) :
    ∃ m, k ≤ m ∧ (states m).ctx = .fg := by
  by_contra! never
  have handling : ∀ m, k ≤ m → (states m).ctx = .irq := fun m hm => by
    cases hc : (states m).ctx with
    | fg => exact absurd hc (never m hm)
    | irq => rfl
  have advances : ∀ m, k ≤ m → turns m = .irq → (states m).istep = 0#2 ∧ (states (m + 1)).istep = 1#2 := by
    intro m hm turn
    have move := r.run.move m
    rw [turn] at move
    exact (move.handler_advances (handling m hm) (r.sending m).clk).resolve_right (never (m + 1) (by omega))
  obtain ⟨m, hm, -, turn⟩ := (fair k).2 (handling k le_rfl)
  have second : ∀ n, m + 1 ≤ n → (states n).istep = 1#2 := fun n hn => by
    induction n, hn using Nat.le_induction with
    | base => exact (advances m hm turn).2
    | succ n hn ih =>
      exact ((r.run.move n).keeps_secondStep (r.noHarness n) (handling n (by omega)) ih).resolve_right
        (never (n + 1) (by omega))
  obtain ⟨m', hm', -, turn'⟩ := (fair (m + 1)).2 (handling (m + 1) (by omega))
  exact absurd ((advances m' (by omega) turn').1.symm.trans (second m' hm')) (by decide)

/-- Under F1 the foreground has a turn in its own context after every moment (R174). -/
theorem SendingRun.eventually_fgMove (fair : FairSequencer turns states) (k : Nat) :
    ∃ m, k ≤ m ∧ (states m).ctx = .fg ∧ Move .fg { states m with agenda := [] } (states (m + 1)) := by
  obtain ⟨j, hj, foreground⟩ := r.eventually_foreground fair k
  have enabled : (states j).microEnabled := by
    rw [State.microEnabled, (r.sending j).seqOp]
    exact ⟨foreground, by decide, by decide⟩
  obtain ⟨m, hm, ⟨hc, -⟩, turn⟩ := (fair j).1 enabled
  exact ⟨m, hj.trans hm, hc, turn ▸ r.run.move m⟩

/-- Under F1 and F3 there is no such run: after a drain one foreground turn polls at the latest, and the next writes. -/
theorem SendingRun.not_fair (sequencer : FairSequencer turns states) (drain : FairDrain turns states) : False := by
  obtain ⟨k, empty⟩ := r.eventually_empty drain
  have advances : ∀ m, k ≤ m → (states m).ctx = .fg → Move .fg { states m with agenda := [] } (states (m + 1)) →
      (states m).seqStep = 0#4 ∧ (states (m + 1)).seqStep = 1#4 := by
    intro m hm hc move
    refine (move.putc_advances hc (r.sending m).turnTaken (r.empty_of_le hm empty)).resolve_right fun sent => ?_
    exact absurd ((r.sending (m + 1)).seqOp.symm.trans sent.seqOp) (by decide)
  obtain ⟨m, hm, hc, move⟩ := r.eventually_fgMove sequencer k
  obtain ⟨-, write⟩ := advances m hm hc move
  obtain ⟨n, hn, hc, move⟩ := r.eventually_fgMove sequencer (m + 1)
  obtain ⟨poll, -⟩ := advances n (by omega) hc move
  exact absurd (poll.symm.trans (r.write_of_le hn write)) (by decide)

end

/-- Settles O41: `Move.stillWaiting` for one step; for the runs, `SendingRun.not_fair` excludes that PUTC never
writes. -/
theorem onlyADrainEndsPutcsWait : Obligations.OnlyADrainEndsPutcsWait := by
  refine ⟨fun s t noHarness ho h0 he notDrain h => ?_, fun turns states run noHarness sequencer drain ho hk hx => ?_⟩
  · have still := (step_moves h).2.stillWaiting (nextTurn_harness noHarness) notDrain ⟨ho, h0, he⟩
    obtain ⟨events, hist, noPop⟩ := still.hist
    refine ⟨still.seqOp, still.seqStep, still.full, still.cmds, fun b => ?_⟩
    rw [hist, List.drop_left]
    exact noPop b
  · by_contra never
    have unsent : ∀ n, ¬ Sent (states 0).readA (states n) := fun n sent =>
      never ⟨n, sent.seqOp, sent.thr, sent.hist⟩
    exact (run.sendingRun_of_unsent noHarness ⟨ho, hk, hx, rfl⟩ unsent).not_fair sequencer drain

end Sys2Proof.Machine
end

section
/-! PROOFS. The receive family (43_receive_interrupt.md): the two steps of the handler (R99, R141, R142, R193), that it
never faults (R144, R195), and the order of the bytes in the buffer (R27, R146, R171). -/

namespace Sys2Proof.Machine

/-! ### The two steps of the handler (R141, R142) -/

section
variable {s : State} (hl : s.live) (hc : s.ctx = .irq)
include hl hc

/-- In the interrupt context RXISR runs its own steps (R13). -/
theorem exec_rxisr_of_irq : exec .rxisr s = rxisrMicro s := by
  rw [exec, execRxisr, whenLive_of_live _ hl.1 hl.2, hc]

/-- Step 0 reads the byte that is ready, and so acknowledges it (R88, R141). -/
theorem exec_rxisr_read {b : Byte} (h0 : s.istep = 0#2) (hk : s.clk = true) (hr : s.rxrdy = true)
    (hb : s.rhr = some b) : exec .rxisr s = .next { s with
      rxrdy := false, latchTI := some b, istep := 1#2, hist := s.hist ++ [.regR .RHR (b.setWidth 32)] } := by
  have read : rxisrMicro s = thenNextWith (regReadRHR s) rxisrLatched := by simp [rxisrMicro, h0]
  rw [exec_rxisr_of_irq hl hc, read, regReadRHR_of_ready hk hr hb, thenNextWith_ok, rxisrLatched, lowByte_toWord]
  rfl

/-- Step 1 pushes the latched byte and returns (R142, R193). -/
theorem exec_rxisr_push {b : Byte} (h1 : s.istep = 1#2) (hb : s.latchTI = some b) :
    exec .rxisr s = .next (returnFromInterrupt (bufPush b s)) := by
  have latched : s.readTI = b := by rw [State.readTI, hb, Option.getD_some]
  rw [exec_rxisr_of_irq hl hc, ← latched]
  simp [rxisrMicro, h1]

end

/-! ### The push (R99) -/

section
variable {s : State} (b : Byte)

theorem bufPush_of_room (room : s.rxbuf.length < 512) :
    bufPush b s = { s with rxbuf := s.rxbuf ++ [b] }.emit (.push b true) :=
  if_pos room

theorem bufPush_of_full (full : 512 ≤ s.rxbuf.length) (hp : s.cfg.overflowPolicy = .dropNewest) :
    bufPush b s = s.emit (.push b false) := by
  have noRoom : ¬ s.rxbuf.length < rxbufCapacity := Nat.not_lt.mpr full
  rw [bufPush, if_neg noRoom, hp]

theorem bufPush_of_full_overwriting (full : 512 ≤ s.rxbuf.length) (hp : s.cfg.overflowPolicy = .overwriteOldest) :
    bufPush b s = { s with rxbuf := s.rxbuf.tail ++ [b] }.emit (.push b true) := by
  have noRoom : ¬ s.rxbuf.length < rxbufCapacity := Nat.not_lt.mpr full
  rw [bufPush, if_neg noRoom, hp, ← List.drop_one]

/-- Whatever becomes of the byte, a push sets no mark and draws no free value. -/
theorem bufPush_keeps_live_draws :
    ((bufPush b s).live ↔ s.live) ∧ (bufPush b s).draws = s.draws := by
  rcases bufPush_cases b s with ⟨-, e⟩ | ⟨-, -, e⟩ | ⟨-, -, e⟩ <;> rw [e] <;> exact ⟨.rfl, rfl⟩

end

/-- What the return adds to a push: the foreground's context and one event (R193). -/
theorem returnFromInterrupt_emit (s : State) (e : Event) : returnFromInterrupt (s.emit e) =
    { s with ctx := .fg, istep := 0#2, hist := s.hist ++ [e, .ret] } := by
  simp [returnFromInterrupt, State.emit]

/-- Settles O44: the read's equation, and the push's in each of the three cases of R99. -/
theorem handlerReadsOneByteThenPushesAndReturns : Obligations.HandlerReadsOneByteThenPushesAndReturns := by
  intro s b hl hc
  refine ⟨fun h0 hk hr hb => exec_rxisr_read hl hc h0 hk hr hb, fun h1 hb => ?_⟩
  rw [exec_rxisr_push hl hc h1 hb]
  refine ⟨fun room => ?_, fun full hp => ?_, fun full hp => ?_⟩
  · rw [bufPush_of_room b room, returnFromInterrupt_emit]
  · rw [bufPush_of_full b full hp, returnFromInterrupt_emit]
  · rw [bufPush_of_full_overwriting b full hp, returnFromInterrupt_emit]

/-- Settles O45: the invariant places the handler at step 0 with the clock on and a byte ready, or at step 1 with a byte
latched. -/
theorem handlerNeverFaults : Obligations.HandlerNeverFaults := by
  rintro s ⟨-, ⟨held, -⟩, -, -, -, ⟨-, -, handling⟩, -⟩ hl hc
  obtain ⟨-, hk, -, -, hstep, ready, latched⟩ := handling hc
  have steps : s.istep = 0#2 ∨ s.istep = 1#2 := by bv_omega
  rcases steps with h0 | h1
  · obtain ⟨b, hb⟩ := Option.isSome_iff_exists.mp (held (ready h0))
    exact ⟨_, exec_rxisr_read hl hc h0 hk (ready h0) hb, hl, rfl, fun _ => ⟨b, hb, rfl⟩⟩
  · obtain ⟨b, hb⟩ := Option.isSome_iff_exists.mp (latched h1)
    obtain ⟨live, draws⟩ := bufPush_keeps_live_draws (s := s) b
    exact ⟨_, exec_rxisr_push hl hc h1 hb, live.mpr hl, draws, fun h0 => absurd (h0.symm.trans h1) (by decide)⟩

/-! ### The order of the bytes in the buffer (R27, R146, R171) -/

theorem bytesKept_append (h events : List Event) : bytesKept (h ++ events) = bytesKept h ++ bytesKept events :=
  List.filterMap_append

theorem bytesPopped_append (h events : List Event) :
    bytesPopped (h ++ events) = bytesPopped h ++ bytesPopped events :=
  List.filterMap_append

/-- The buffer holds, in the order of their pushes, the bytes kept and not yet popped, within its capacity. -/
structure HoldsKeptBytes (s : State) : Prop where
  bytes : bytesPopped s.hist ++ s.rxbuf = bytesKept s.hist
  bound : s.rxbuf.length ≤ 512

section
variable {turn : Turn} {u t : State}

/-- Events that neither keep nor pop a byte, the buffer as it was. -/
theorem HoldsKeptBytes.extend (inv : HoldsKeptBytes u) (events : List Event) (hb : t.rxbuf = u.rxbuf)
    (hh : t.hist = u.hist ++ events) (noKept : bytesKept events = []) (noPop : bytesPopped events = []) :
    HoldsKeptBytes t := by
  refine ⟨?_, hb ▸ inv.bound⟩
  rw [hh, hb, bytesPopped_append, bytesKept_append, noKept, noPop, List.append_nil, List.append_nil, inv.bytes]

/-- A push that is kept puts its byte behind those held (R99). -/
theorem HoldsKeptBytes.push (inv : HoldsKeptBytes u) (b : Byte) (room : u.rxbuf.length < 512)
    (hb : t.rxbuf = u.rxbuf ++ [b]) (hh : t.hist = u.hist ++ [.push b true, .ret]) : HoldsKeptBytes t := by
  constructor
  · calc bytesPopped t.hist ++ t.rxbuf
      _ = bytesPopped u.hist ++ [] ++ (u.rxbuf ++ [b]) := by rw [hh, hb, bytesPopped_append]; rfl
      _ = bytesPopped u.hist ++ u.rxbuf ++ [b] := by rw [List.append_nil, List.append_assoc]
      _ = bytesKept u.hist ++ [b] := by rw [inv.bytes]
      _ = bytesKept t.hist := by rw [hh, bytesKept_append]; rfl
  · rw [hb, List.length_append]
    exact room

/-- A pop takes the oldest byte held (R171). -/
theorem HoldsKeptBytes.pop (inv : HoldsKeptBytes u) (b : Byte) (hb : u.rxbuf = b :: t.rxbuf)
    (hh : t.hist = u.hist ++ [.pop b]) : HoldsKeptBytes t := by
  constructor
  · calc bytesPopped t.hist ++ t.rxbuf
      _ = bytesPopped u.hist ++ [b] ++ t.rxbuf := by rw [hh, bytesPopped_append]; rfl
      _ = bytesPopped u.hist ++ u.rxbuf := by rw [hb, List.append_assoc, List.singleton_append]
      _ = bytesKept u.hist := inv.bytes
      _ = bytesKept u.hist ++ [] := (List.append_nil _).symm
      _ = bytesKept t.hist := by rw [hh, bytesKept_append]; rfl
  · have bound := inv.bound
    rw [hb] at bound
    exact (Nat.le_succ _).trans bound

theorem Access.keeps_heldBytes (h : Access u t) (inv : HoldsKeptBytes u) : HoldsKeptBytes t := by
  cases h <;> exact inv.extend [_] rfl rfl rfl rfl

theorem Micro.keeps_heldBytes (h : Micro u t) (inv : HoldsKeptBytes u) : HoldsKeptBytes t := by
  cases h
  case enableDone | lineOn | lineOff | send | arm | noByte | receive | receiveLate =>
    exact inv.extend [_, _] rfl rfl rfl rfl
  all_goals exact inv.extend [_] rfl rfl rfl rfl

/-- The handler pushes and the consumer pops; only the overwriting policy, which is excluded, would lose a byte that was
kept. -/
theorem Move.keeps_heldBytes (h : Move turn u t) (policy : u.cfg.overflowPolicy = .dropNewest)
    (inv : HoldsKeptBytes u) : HoldsKeptBytes t := by
  cases h
  case pass => exact inv
  case micro h => exact h.keeps_heldBytes inv
  case access h => exact h.keeps_heldBytes inv
  case handlerPush room => exact inv.push u.readTI room rfl rfl
  case handlerOverwrite hp => exact absurd (policy.symm.trans hp) OverflowPolicy.noConfusion
  case pop b bs _ _ _ hb => exact inv.pop b hb rfl
  case acceptNoOp | handlerDrop => exact inv.extend [_, _] rfl rfl rfl rfl
  all_goals exact inv.extend [_] rfl rfl rfl rfl

end

/-- Settles O47: a step is a move from the state with its turn taken, which has the same buffer and history. -/
theorem bufferHoldsTheKeptBytesInOrder : Obligations.BufferHoldsTheKeptBytesInOrder := by
  intro s t policy bytes bound h
  obtain ⟨bytes', bound'⟩ := (step_moves h).2.keeps_heldBytes policy ⟨bytes, bound⟩
  exact ⟨bytes', bound'⟩

end Sys2Proof.Machine
end

section
/-! PROOFS. The telemetry port family (44_telemetry_port.md): in which variant its commands exist (R152), the admission
and the micro-operations of TPINIT and its whole run (R150, R151, R153, R154), and TPRECV's poll, its read and its
result (R155 to R160). -/

namespace Sys2Proof.Machine

/-! ### The variant of the telemetry commands (R152) -/

/-- At an idle sequencer outside `TelemetryDriver` a telemetry command is refused (R59, R152). -/
theorem runCommand_acceptTelemetry_refused {s : State} (op : Opcode) (a b : Word) (micro : State → StepResult)
    (hl : s.live) (hc : s.ctx = .fg) (ho : s.seqOp = 0x00#8) (hv : s.cfg.variant ≠ .telemetryDriver) :
    runCommand op (acceptTelemetry op a b) micro s = .next (s.refuse (.notInVariant op)) := by
  rw [runCommand_of_idle op _ micro hl hc ho]
  rcases acceptTelemetry_cases op a b s with ⟨ht, -⟩ | ⟨-, e⟩
  · exact absurd ht hv
  · rw [e]

/-- Settles O19: both commands are accepted by `acceptTelemetry`, each with its own opcode. -/
theorem telemetryCommandsExistInTheirVariantOnly : Obligations.TelemetryCommandsExistInTheirVariantOnly := by
  intro s p hl hc ho hv
  have refused := fun op a b micro => runCommand_acceptTelemetry_refused op a b micro hl hc ho hv
  exact ⟨refused Opcode.tpinit p.toWord 0#32 tpinitMicro, refused Opcode.tprecv 0#32 0#32 tprecvMicro⟩

/-! ### Admission of TPINIT (R151) -/

section
variable {s : State}

theorem AtStep.exec_tpinit {n : BitVec 4} (h : AtStep s 0x04#8 n) (q : Byte) : exec (.tpinit q) s = tpinitMicro s :=
  h.runCommand_eq (by decide) _ tpinitMicro

/-- The protocol operand is the byte that acceptance latched (R58). -/
theorem tpinitProtocol_of_latched {p : Byte} (hA : s.latchA = some (p.setWidth 32)) : s.tpinitProtocol = p :=
  (congrArg lowByte (readA_of_latched hA)).trans (lowByte_toWord p)

theorem tpinitAdmit_of_unknown {p : Byte} (hA : s.latchA = some (p.setWidth 32))
    (unknown : s.cfg.telemetryBaud.lookup p = none) : tpinitAdmit s = .error (s.refuse (.unknownProtocol p)) := by
  rw [tpinitAdmit, tpinitProtocol_of_latched hA, telemetryBaudOf, unknown]

/-- A known protocol is refused where its baud rate and the master clock are (R151). -/
theorem tpinitAdmit_of_refused {p : Byte} {baud : Word} {refusal : Refusal} (hA : s.latchA = some (p.setWidth 32))
    (known : s.cfg.telemetryBaud.lookup p = some baud)
    (refused : admission s.cfg baud s.cfg.masterClock = .error refusal) :
    tpinitAdmit s = .error (s.refuse refusal) := by
  simp only [tpinitAdmit, tpinitProtocol_of_latched hA, telemetryBaudOf, known, refused]

/-- A known protocol is admitted where its baud rate and the master clock are (R151). -/
theorem tpinitAdmit_of_admitted {p : Byte} {baud : Word} (hA : s.latchA = some (p.setWidth 32))
    (known : s.cfg.telemetryBaud.lookup p = some baud) (admitted : Admitted s.cfg baud s.cfg.masterClock) :
    tpinitAdmit s = .ok (pinCfg { s with
      latchA := some baud, latchB := some s.cfg.masterClock,
      latchT := some (BitVec.ofNat 32 (s.cfg.masterClock.toNat / (16 * baud.toNat))) }) := by
  simp only [tpinitAdmit, tpinitProtocol_of_latched hA, telemetryBaudOf, known, admitted.admission_eq]

variable (q : Byte)

/-- A refused admission performs no step (R151, R183). -/
theorem AtStep.exec_tpinit_refused {refusal : Refusal} (h : AtStep s 0x04#8 0#4)
    (refused : tpinitAdmit s = .error (s.refuse refusal)) : exec (.tpinit q) s = .next (s.refuse refusal) := by
  rw [h.exec_tpinit, tpinitMicro, h.seqStep]
  exact congrArg (thenNext · State.advance) refused

/-- An admission that meets no refusal latches the baud rate, the clock and the divisor, and requests the pins (R95,
R150). -/
theorem AtStep.exec_tpinit_admitted {p : Byte} {baud : Word} (h : AtStep s 0x04#8 0#4)
    (hA : s.latchA = some (p.setWidth 32)) (known : s.cfg.telemetryBaud.lookup p = some baud)
    (admitted : Admitted s.cfg baud s.cfg.masterClock) :
    exec (.tpinit q) s = .next { s with
      latchA := some baud, latchB := some s.cfg.masterClock,
      latchT := some (BitVec.ofNat 32 (s.cfg.masterClock.toNat / (16 * baud.toNat))), seqStep := 1#4,
      pins := .peripheral s.cfg.pinMask .peripheralInputNoPullUp,
      hist := s.hist ++ [.pinCfg s.cfg.pinMask .peripheralInputNoPullUp] } := by
  rw [h.exec_tpinit, tpinitMicro, h.seqStep]
  simp [tpinitAdmit_of_admitted hA known admitted, State.advance, pinCfg, State.emit, h.seqStep]

end

/-- Settles O48: the look-up fails, or the divisor of the baud rate it finds is too wide. -/
theorem tpinitRefusesInadmissibleProtocols : Obligations.TpinitRefusesInadmissibleProtocols := by
  intro s p q hl hc ho h0 hA
  have h : AtStep s 0x04#8 0#4 := ⟨hl, hc, ho, h0⟩
  refine ⟨fun unknown => ?_, fun baud known hb hm wide => ?_⟩
  · exact h.exec_tpinit_refused q (tpinitAdmit_of_unknown hA unknown)
  · exact h.exec_tpinit_refused q (tpinitAdmit_of_refused hA known (admission_of_wide hb hm wide))

/-! ### The micro-operations of TPINIT after its admission (R150, R153, R154) -/

section
variable {s : State} (q : Byte)

/-- Steps 1 to 6 are those of CONFIGURE, each followed by the advance of the sequencer (R110, R150). -/
theorem tpinitMicro_of_configuration (first : 1 ≤ s.seqStep.toNat) (last : s.seqStep.toNat ≤ 6) :
    tpinitMicro s = thenNext (configurationStep s.seqStep.toNat s) State.advance := by
  unfold tpinitMicro
  generalize s.seqStep.toNat = n at first last
  interval_cases n <;> rfl

/-- A step of TPINIT that CONFIGURE has too goes on to the next step, with the effect it has there. -/
theorem AtStep.exec_tpinit_configuration {n : BitVec 4} {t : State} (h : AtStep s 0x04#8 n) (first : 1 ≤ n.toNat)
    (last : n.toNat ≤ 6) (effect : configurationStep n.toNat s = .ok t) (same : t.seqStep = s.seqStep) :
    exec (.tpinit q) s = .next (t.atStep (n + 1)) := by
  obtain rfl := h.seqStep
  rw [h.exec_tpinit, tpinitMicro_of_configuration first last, effect, thenNext_ok, State.advance, same, State.atStep]

theorem AtStep.exec_tpinit_clockOn (h : AtStep s 0x04#8 1#4) : exec (.tpinit q) s = .next { s with
    clk := true, seqStep := 2#4, hist := s.hist ++ [.clkEn s.cfg.clockId] } :=
  h.exec_tpinit_configuration q (by decide) (by decide) (configurationStep_1 s) rfl

variable (hk : s.clk = true)
include hk

theorem AtStep.exec_tpinit_resetDisable (h : AtStep s 0x04#8 2#4) : exec (.tpinit q) s = .next { s with
    rxrdy := false, rhr := none, thrValid := false, txe := false, rxen := false, txen := false,
    seqStep := 3#4, hist := s.hist ++ [.regW .CR 0x000000AC#32] } :=
  h.exec_tpinit_configuration q (by decide) (by decide) (configurationStep_2 hk) rfl

theorem AtStep.exec_tpinit_mode (h : AtStep s 0x04#8 3#4) : exec (.tpinit q) s = .next { s with
    mr := some 0x00000800#32, seqStep := 4#4, hist := s.hist ++ [.regW .MR 0x00000800#32] } :=
  h.exec_tpinit_configuration q (by decide) (by decide) (configurationStep_3 hk) rfl

theorem AtStep.exec_tpinit_divisor {d : Word} (h : AtStep s 0x04#8 4#4) (hT : s.latchT = some d)
    (fits : d.toNat < 2 ^ s.cfg.divisorWidth) : exec (.tpinit q) s = .next { s with
      brgr := some d, seqStep := 5#4, hist := s.hist ++ [.regW .BRGR d] } :=
  h.exec_tpinit_configuration q (by decide) (by decide) (configurationStep_4 hk hT fits) rfl

theorem AtStep.exec_tpinit_transfersOff (h : AtStep s 0x04#8 5#4) : exec (.tpinit q) s = .next { s with
    pdcRxen := false, pdcTxen := false, seqStep := 6#4, hist := s.hist ++ [.regW .PTCR 0x00000202#32] } :=
  h.exec_tpinit_configuration q (by decide) (by decide) (configurationStep_5 hk) rfl

theorem AtStep.exec_tpinit_enable (h : AtStep s 0x04#8 6#4) : exec (.tpinit q) s = .next { s with
    rxen := true, txen := true, seqStep := 7#4, hist := s.hist ++ [.regW .CR 0x00000050#32] } :=
  h.exec_tpinit_configuration q (by decide) (by decide) (configurationStep_6 hk) rfl

/-- The last step is TPINIT's own: it arms the receive transfer and completes (R150, R153, R154). -/
theorem AtStep.exec_tpinit_armDone (h : AtStep s 0x04#8 7#4) : exec (.tpinit q) s = .next { s with
    pdcRxen := true, seqOp := 0x00#8, seqStep := 0#4, port := .configuredIdle,
    hist := s.hist ++ [.regW .PTCR 0x00000001#32, .done 0x04#8 none] } := by
  rw [h.exec_tpinit, tpinitMicro, h.seqStep]
  refine (congrArg (thenNext · tpinitDone) (regWritePTCR_armRx hk)).trans ?_
  simp [ptcrArmRx_eq, tpinitDone, State.setPort, State.complete, State.emit, Opcode.tpinit]

end

/-- Settles O49: one equation for each micro-operation. -/
theorem tpinitMicroOperationsInOrder : Obligations.TpinitMicroOperationsInOrder := by
  intro s p q baud d hl hc ho
  have atStep : ∀ {n}, s.seqStep = n → AtStep s 0x04#8 n := fun hs => ⟨hl, hc, ho, hs⟩
  refine ⟨fun h0 hA known hb hm fits => ?_, fun h1 => ?_, fun hk => ⟨fun h2 => ?_, fun h3 => ?_,
    fun h4 hT fits => ?_, fun h5 => ?_, fun h6 => ?_, fun h7 => ?_⟩⟩
  · exact (atStep h0).exec_tpinit_admitted q hA known ⟨hb, hm, fits⟩
  · exact (atStep h1).exec_tpinit_clockOn q
  · exact (atStep h2).exec_tpinit_resetDisable q hk
  · exact (atStep h3).exec_tpinit_mode q hk
  · exact (atStep h4).exec_tpinit_divisor q hk hT fits
  · exact (atStep h5).exec_tpinit_transfersOff q hk
  · exact (atStep h6).exec_tpinit_enable q hk
  · exact (atStep h7).exec_tpinit_armDone q hk

/-! ### The run of TPINIT (R150, R153, R154) -/

/-- Settles O50: acceptance and the eight micro-operations, each from where the one before it ends. -/
theorem tpinitRunsToItsEndState : Obligations.TpinitRunsToItsEndState := by
  intro s p baud hl hc ho hv known hb hm fits d
  obtain ⟨accepts, -⟩ := (idleSequencerAcceptsTheCommand s hl hc ho).2 hv
  refine execRun_cons (accepts p) ?_
  refine execRun_cons (AtStep.exec_tpinit_admitted p ⟨hl, hc, rfl, rfl⟩ rfl known ⟨hb, hm, fits⟩) ?_
  refine execRun_cons (AtStep.exec_tpinit_clockOn p ⟨hl, hc, rfl, rfl⟩) ?_
  refine execRun_cons (AtStep.exec_tpinit_resetDisable p rfl ⟨hl, hc, rfl, rfl⟩) ?_
  refine execRun_cons (AtStep.exec_tpinit_mode p rfl ⟨hl, hc, rfl, rfl⟩) ?_
  refine execRun_cons (AtStep.exec_tpinit_divisor p rfl ⟨hl, hc, rfl, rfl⟩ rfl (toNat_ofNat_lt fits)) ?_
  refine execRun_cons (AtStep.exec_tpinit_transfersOff p rfl ⟨hl, hc, rfl, rfl⟩) ?_
  refine execRun_cons (AtStep.exec_tpinit_enable p rfl ⟨hl, hc, rfl, rfl⟩) ?_
  refine execRun_cons (AtStep.exec_tpinit_armDone p rfl ⟨hl, hc, rfl, rfl⟩) ?_
  simp [execRun, d]

/-! ### The micro-operations of TPRECV (R155 to R157, R160) -/

/-- A byte widened with zeros is never the sentinel (R62, R158). -/
theorem byteResult_ne_noData (b : Byte) : b.setWidth 16 ≠ 0xFFFF#16 := by
  have := toNat_byteResult_le b
  bv_omega

section
variable {s : State} {b : Byte} (hk : s.clk = true)
include hk

/-- The poll with a byte ready goes on to the read (R156). -/
theorem AtStep.exec_tprecv_poll_ready (h : AtStep s 0x05#8 0#4) (hr : s.rxrdy = true) :
    exec .tprecv s = .next { s with
      latchT := some s.status, seqStep := 1#4, hist := s.hist ++ [.regR .SR s.status], draws := s.draws + 1 } := by
  have ready : srRxrdy s.status = true := (status_rxrdy s).trans hr
  rw [h.exec_tprecv, tprecvMicro, h.seqStep]
  simp [regReadSR_of_clk hk, tprecvPolled, ready, State.atStep, State.drawn, State.emit]

/-- The poll with no byte ready completes with the sentinel (R156). -/
theorem AtStep.exec_tprecv_poll_noByte (h : AtStep s 0x05#8 0#4) (hr : s.rxrdy = false) :
    exec .tprecv s = .next { s with
      latchT := some s.status, latchRes := some 0xFFFF#16, seqOp := 0x00#8, seqStep := 0#4,
      hist := s.hist ++ [.regR .SR s.status, .done 0x05#8 (some 0xFFFF#16)], draws := s.draws + 1 } := by
  have noByte : srRxrdy s.status = false := (status_rxrdy s).trans hr
  rw [h.exec_tprecv, tprecvMicro, h.seqStep]
  simp [regReadSR_of_clk hk, tprecvPolled, noByte, tprecvDone, noData, State.complete, State.drawn, State.emit,
    Opcode.tprecv]

/-- The read takes the byte that is ready and completes with it (R88, R157). -/
theorem AtStep.exec_tprecv_read (h : AtStep s 0x05#8 1#4) (hr : s.rxrdy = true) (hb : s.rhr = some b) :
    exec .tprecv s = .next { s with
      rxrdy := false, latchRes := some (b.setWidth 16), seqOp := 0x00#8, seqStep := 0#4,
      hist := s.hist ++ [.regR .RHR (b.setWidth 32), .done 0x05#8 (some (b.setWidth 16))] } := by
  rw [h.exec_tprecv, tprecvMicro, h.seqStep]
  simp [regReadRHR_of_ready hk hr hb, tprecvDone, resultOfByte, lowByte, Byte.toWord, State.complete,
    State.clearRxrdy, State.emit, Opcode.tprecv]

/-- Where the byte was taken meanwhile the read completes with the low byte of a free value (R88, R160). -/
theorem AtStep.exec_tprecv_readLate (h : AtStep s 0x05#8 1#4) (hr : s.rxrdy = false) :
    exec .tprecv s = .next { s with
      latchRes := some (((Config.freeWord s.draws).setWidth 8).setWidth 16), seqOp := 0x00#8, seqStep := 0#4,
      hist := s.hist ++ [.regR .RHR (Config.freeWord s.draws),
        .done 0x05#8 (some (((Config.freeWord s.draws).setWidth 8).setWidth 16))],
      draws := s.draws + 1 } := by
  rw [h.exec_tprecv, tprecvMicro, h.seqStep]
  simp [regReadRHR_of_not_ready hk hr, tprecvDone, resultOfByte, lowByte, State.complete, State.drawn, State.emit,
    Opcode.tprecv]

end

/-- Settles O51: the poll and the read, each with a byte ready and without. -/
theorem tprecvPollsOnceAndReadsAtMostOnce : Obligations.TprecvPollsOnceAndReadsAtMostOnce := by
  intro s hl hc ho hk
  have atStep : ∀ {n}, s.seqStep = n → AtStep s 0x05#8 n := fun hs => ⟨hl, hc, ho, hs⟩
  refine ⟨fun h0 => ⟨s.status, status_rxrdy s, status_txempty s, fun hr => ?_, fun hr => ?_⟩,
    fun b h1 hr hb => ?_, fun h1 hr => ⟨Config.freeWord s.draws, ?_⟩⟩
  · exact (atStep h0).exec_tprecv_poll_ready hk hr
  · exact (atStep h0).exec_tprecv_poll_noByte hk hr
  · exact (atStep h1).exec_tprecv_read hk hr hb
  · exact (atStep h1).exec_tprecv_readLate hk hr

/-! ### The runs of TPRECV (R155, R157, R158) -/

section
variable {s : State} (hl : s.live) (hc : s.ctx = .fg) (ho : s.seqOp = 0x00#8)
  (hv : s.cfg.variant = .telemetryDriver) (hk : s.clk = true)
include hl hc ho hv hk

/-- TPRECV from an idle port with a byte ready: acceptance, the poll and the read. -/
theorem execRun_tprecv_ready {b : Byte} (hr : s.rxrdy = true) (hb : s.rhr = some b) :
    execRun 3 .tprecv s = .next { s with
      seqOp := 0x00#8, seqStep := 0#4, latchA := some 0#32, latchB := some 0#32, latchT := some s.status,
      latchRes := some (b.setWidth 16), rxrdy := false, draws := s.draws + 1,
      hist := s.hist ++ [.cmd 0x05#8 0#32 0#32, .regR .SR s.status, .regR .RHR (b.setWidth 32),
        .done 0x05#8 (some (b.setWidth 16))] } := by
  obtain ⟨-, accepted⟩ := (idleSequencerAcceptsTheCommand s hl hc ho).2 hv
  refine execRun_cons accepted ?_
  refine execRun_cons (AtStep.exec_tprecv_poll_ready hk ⟨hl, hc, rfl, rfl⟩ hr) ?_
  refine execRun_cons (AtStep.exec_tprecv_read hk ⟨hl, hc, rfl, rfl⟩ hr hb) ?_
  simp [execRun, State.status]

/-- TPRECV from an idle port with no byte ready: acceptance and the poll. -/
theorem execRun_tprecv_noByte (hr : s.rxrdy = false) :
    execRun 2 .tprecv s = .next { s with
      seqOp := 0x00#8, seqStep := 0#4, latchA := some 0#32, latchB := some 0#32, latchT := some s.status,
      latchRes := some 0xFFFF#16, draws := s.draws + 1,
      hist := s.hist ++ [.cmd 0x05#8 0#32 0#32, .regR .SR s.status, .done 0x05#8 (some 0xFFFF#16)] } := by
  obtain ⟨-, accepted⟩ := (idleSequencerAcceptsTheCommand s hl hc ho).2 hv
  refine execRun_cons accepted ?_
  refine execRun_cons (AtStep.exec_tprecv_poll_noByte hk ⟨hl, hc, rfl, rfl⟩ hr) ?_
  simp [execRun, State.status]

end

/-- Settles O52: read off the end states of the two runs. -/
theorem tprecvReturnsTheByteOrTheSentinel : Obligations.TprecvReturnsTheByteOrTheSentinel := by
  intro s hl hc ho hv hk
  refine ⟨fun b hr hb => ?_, fun hr => ?_⟩
  · exact ⟨_, execRun_tprecv_ready hl hc ho hv hk hr hb, rfl, rfl,
      fun e => byteResult_ne_noData b (Option.some.inj e), rfl, rfl, rfl⟩
  · exact ⟨_, execRun_tprecv_noByte hl hc ho hv hk hr, rfl, rfl, rfl, rfl, rfl⟩

end Sys2Proof.Machine
end

section
/-! PROOFS. The environment family (45_environment.md): the steps of the external agents (R165, R166, R167, R169, R171),
the turns with and without an enabled step (R172), and the order of the bytes on the line (R135, R168). -/

namespace Sys2Proof.Machine

/-! ### The receiver (R165, R166) -/

section
variable {s : State} {b : Byte}

theorem rxArrive_of_empty (hk : s.clk = true) (he : s.rxen = true) (hr : s.rxrdy = false) :
    rxArrive b s = (s.receiveByte b).emit (.rxArrive b false) := by
  simp [rxArrive, hk, he, hr]

/-- In an overrun one of the two bytes stays (R166). -/
theorem rxArrive_of_ready (hk : s.clk = true) (he : s.rxen = true) (hr : s.rxrdy = true) :
    ∃ r, (r = s.rhr ∨ r = some b) ∧
      rxArrive b s = { s with rhr := r, draws := s.draws + 1 }.emit (.rxArrive b true) := by
  refine ⟨if Config.freeChoice s.draws then some b else s.rhr, ?_, by simp [rxArrive, hk, he, hr]⟩
  cases Config.freeChoice s.draws
  · exact .inl rfl
  · exact .inr rfl

/-! ### The transmitter (R167) -/

theorem txDrain_of_pending (hk : s.clk = true) (he : s.txen = true) (hx : s.txe = false) (hv : s.thrValid = true)
    (hb : s.thr = some b) : txDrain s = { s.reportEmpty with lineOut := s.lineOut ++ [b] }.emit (.txOut b) := by
  have pending : s.thrByte = b := by rw [State.thrByte, hb, Option.getD_some]
  simp [txDrain, hk, he, hx, hv, pending]

/-- The first report after a reset: no byte goes to the line. -/
theorem txDrain_of_not_pending (hk : s.clk = true) (he : s.txen = true) (hx : s.txe = false)
    (hv : s.thrValid = false) : txDrain s = { s with txe := true }.emit .txReady := by
  simp [txDrain, hk, he, hx, hv, State.reportEmpty]

/-! ### The block-transfer engine and the consumer (R169, R171) -/

theorem pdcTake_of_ready (ha : s.cfg.pdcRxActive = true) (hk : s.clk = true) (he : s.pdcRxen = true)
    (hr : s.rxrdy = true) (hb : s.rhr = some b) :
    pdcTake s = { s.clearRxrdy with pdcSink := s.pdcSink ++ [b] }.emit (.pdcTake b) := by
  have held : s.rhrByte = b := by rw [State.rhrByte, hb, Option.getD_some]
  simp [pdcTake, ha, hk, he, hr, held]

theorem pop_of_held {bs : List Byte} (hc : s.ctx = .fg) (ho : s.seqOp = 0x00#8) (hb : s.rxbuf = b :: bs) :
    pop s = { s with rxbuf := bs }.emit (.pop b) := by
  rw [pop, if_pos ⟨hc, ho⟩, hb]

end

/-- Settles O54: the receiver's turn with nothing ready, and its overrun. -/
theorem arrivalFillsOrOverruns : Obligations.ArrivalFillsOrOverruns := by
  intro s b rest hl ha hk he
  rw [step_of_turn hl ha]
  refine ⟨fun hr => ?_, fun hr => ?_⟩
  · exact congrArg _ (rxArrive_of_empty (s := { s with agenda := rest }) hk he hr)
  · obtain ⟨r, survivor, arrived⟩ := rxArrive_of_ready (s := { s with agenda := rest }) (b := b) hk he hr
    exact ⟨r, survivor, congrArg _ arrived⟩

/-- Settles O55: the transmitter's turn with a byte pending, and with none. -/
theorem drainSendsThePendingByte : Obligations.DrainSendsThePendingByte := by
  intro s rest hl ha hk he hx
  rw [step_of_turn hl ha]
  refine ⟨fun b hv hb => ?_, fun hv => ?_⟩
  · exact congrArg _ (txDrain_of_pending (s := { s with agenda := rest }) hk he hx hv hb)
  · exact congrArg _ (txDrain_of_not_pending (s := { s with agenda := rest }) hk he hx hv)

/-- Settles O56: the engine's turn takes the byte in `RHR`, the consumer's the oldest byte of the buffer. -/
theorem takeAndPopMoveOneByte : Obligations.TakeAndPopMoveOneByte := by
  intro s b rest hl
  refine ⟨fun ha active hk he hr hb => ?_, fun bs ha hc ho hb => ?_⟩ <;> rw [step_of_turn hl ha]
  · exact congrArg _ (pdcTake_of_ready (s := { s with agenda := rest }) active hk he hr hb)
  · exact congrArg _ (pop_of_held (s := { s with agenda := rest }) hc ho hb)

/-! ### Turns with no enabled step (R172) -/

section
variable {u : State}

/-- An opcode above those of the commands names no command in progress. -/
theorem commandInProgress_of_above (above : 5 < u.seqOp.toNat) : commandInProgress u = none := by
  have other : ∀ op : Opcode, op.toNat ≤ 5 → u.seqOp ≠ op := by
    rintro op small rfl
    omega
  simp only [commandInProgress, if_neg (other Opcode.configure (by decide)), if_neg (other Opcode.stop (by decide)),
    if_neg (other Opcode.putc (by decide)), if_neg (other Opcode.tpinit (by decide)),
    if_neg (other Opcode.tprecv (by decide))]

/-- The foreground passes while the handler runs, with no word at an idle sequencer's port, and at an opcode that is no
command's. -/
theorem fgTurn_of_not_enabled (h : enabled .fg u = false) : fgTurn u = .next u := by
  cases hc : u.ctx with
  | irq => simp only [fgTurn, hc]
  | fg =>
    by_cases ho : u.seqOp = 0x00#8
    · have noWord : u.cmds = [] := by simpa [enabled, hc, ho] using h
      simp only [fgTurn, hc, if_pos ho, noWord]
    · have above : 5 < u.seqOp.toNat := by simpa [enabled, hc, ho] using h
      simp only [fgTurn, hc, if_neg ho, commandInProgress_of_above above]

/-- The interrupt agent passes in the foreground with dispatch not enabled (R189). -/
theorem irqTurn_of_not_enabled (h : enabled .irq u = false) : irqTurn u = .next u := by
  obtain ⟨notHandling, noDispatch⟩ := Bool.or_eq_false_iff.mp h
  cases hc : u.ctx with
  | irq => simp [hc] at notHandling
  | fg => simp only [irqTurn, hc, noDispatch, Bool.false_eq_true, if_false]

/-- The consumer passes while the foreground is busy or frozen, and at an empty buffer (R171). -/
theorem pop_of_not_enabled (h : enabled .pop u = false) : pop u = u := by
  by_cases idle : u.ctx = .fg ∧ u.seqOp = 0x00#8
  · have empty : u.rxbuf = [] := by simpa [enabled, idle.1, idle.2] using h
    rw [pop, if_pos idle, empty]
  · exact if_neg idle

theorem runTurn_of_not_enabled {turn : Turn} (h : enabled turn u = false) : runTurn turn u = .next u := by
  cases turn with
  | fg => exact fgTurn_of_not_enabled h
  | irq => exact irqTurn_of_not_enabled h
  | rxArrive b => exact congrArg _ (if_neg (ne_true_of_eq_false h))
  | txDrain => exact congrArg _ (if_neg (ne_true_of_eq_false h))
  | pdcTake => exact congrArg _ (if_neg (ne_true_of_eq_false h))
  | pop => exact congrArg _ (pop_of_not_enabled h)
  | bus header size data => exact absurd h Bool.noConfusion
  | mem we addr size data => exact absurd h Bool.noConfusion

end

/-- Settles O14: the step is the turn's, and the turn passes. -/
theorem turnWithNoEnabledStepPasses : Obligations.TurnWithNoEnabledStepPasses := fun _ _ _ hl ha h =>
  (step_of_turn hl ha).trans (runTurn_of_not_enabled h)

/-! ### The machine goes on (R172, log 20) -/

/-- The outcome is a next state. -/
def GoesOn (r : StepResult) : Prop := ∃ t, r = .next t

section
variable {u : State}

theorem goesOn_next (t : State) : GoesOn (.next t) := ⟨t, rfl⟩

theorem goesOn_thenNext (r : Except State State) (k : State → State) : GoesOn (thenNext r k) := exists_thenNext r k

theorem goesOn_thenNextWith {α : Type} (r : Except State (α × State)) (k : α → State → State) :
    GoesOn (thenNextWith r k) := exists_thenNextWith r k

/-- Up to its last step, which is 8 in `InterruptDriver` and 6 in the others, CONFIGURE has a micro-operation (R110). -/
theorem configureMicro_goesOn (bound : u.seqStep.toNat ≤ lastStep u.cfg 0x01#8) : GoesOn (configureMicro u) := by
  have interrupt : 6 < u.seqStep.toNat → u.cfg.debug = true ∧ u.seqStep.toNat ≤ 8 := by
    intro later
    by_cases hv : u.cfg.variant = .interruptDriver
    · simp only [lastStep, hv, if_true] at bound
      exact ⟨by simp [Config.debug, hv], bound⟩
    · simp only [lastStep, hv, if_true, if_false] at bound
      omega
  unfold configureMicro
  split
  case h_8 h7 => rw [if_pos (interrupt (by omega)).1]; exact goesOn_thenNext _ _
  case h_9 h8 => rw [if_pos (interrupt (by omega)).1]; exact goesOn_next _
  case h_10 => grind
  all_goals exact goesOn_thenNext _ _

theorem stopMicro_goesOn (bound : u.seqStep.toNat ≤ 1) : GoesOn (stopMicro u) := by
  unfold stopMicro
  split
  · exact goesOn_thenNext _ _
  · exact goesOn_next _
  · grind

theorem putcMicro_goesOn (bound : u.seqStep.toNat ≤ 1) : GoesOn (putcMicro u) := by
  unfold putcMicro
  split
  · exact goesOn_thenNextWith _ _
  · exact goesOn_thenNext _ _
  · grind

theorem tpinitMicro_goesOn (bound : u.seqStep.toNat ≤ 7) : GoesOn (tpinitMicro u) := by
  unfold tpinitMicro
  split
  case h_9 => grind
  all_goals exact goesOn_thenNext _ _

theorem tprecvMicro_goesOn (bound : u.seqStep.toNat ≤ 1) : GoesOn (tprecvMicro u) := by
  unfold tprecvMicro
  split
  · exact goesOn_thenNextWith _ _
  · exact goesOn_thenNextWith _ _
  · grind

theorem rxisrMicro_goesOn (bound : u.istep.toNat ≤ 1) : GoesOn (rxisrMicro u) := by
  unfold rxisrMicro
  split
  · exact goesOn_thenNextWith _ _
  · exact goesOn_next _
  · grind

/-- At an idle sequencer a command is accepted or refused, and RXISR is refused (R59, R61). -/
theorem exec_command_goesOn_of_idle {i : Instr} (command : accessedRegister i = none) (hl : u.live) (hc : u.ctx = .fg)
    (ho : u.seqOp = 0x00#8) : GoesOn (exec i u) := by
  have accepted : ∀ op accept micro, GoesOn (runCommand op accept micro u) := fun op accept micro =>
    ⟨accept u, runCommand_of_idle op accept micro hl hc ho⟩
  cases i <;> simp only [accessedRegister, reduceCtorEq] at command
  case rxisr => exact ⟨_, exec_rxisr_of_fg hl hc⟩
  all_goals exact accepted _ _ _

theorem presentWord_goesOn (cw : CmdWord) (hl : u.live) (hc : u.ctx = .fg) (ho : u.seqOp = 0x00#8) :
    GoesOn (presentWord cw u) := by
  cases hd : decode (.cmd cw) with
  | ok i => rw [presentWord_of_ok u hd]; exact exec_command_goesOn_of_idle (decodeCmd_command hd) hl hc ho
  | error e => exact ⟨_, presentWord_of_error u hd⟩

/-- The opcodes up to 5 are those of an idle sequencer and of the five commands (R56). -/
theorem opcode_of_le_five {op : Opcode} (small : op.toNat ≤ 5) :
    op = 0x00#8 ∨ op = 0x01#8 ∨ op = 0x02#8 ∨ op = 0x03#8 ∨ op = 0x04#8 ∨ op = 0x05#8 := by
  bv_omega

/-- The step number of the command in progress is one that the command has. -/
theorem fgTurn_goesOn (hl : u.live) (sequencer : SequencerInv u) : GoesOn (fgTurn u) := by
  obtain ⟨command, bound, -⟩ := sequencer
  cases hc : u.ctx with
  | irq => exact ⟨u, by simp only [fgTurn, hc]⟩
  | fg =>
    have busy : ∀ i, u.seqOp ≠ 0x00#8 → commandInProgress u = some i → GoesOn (exec i u) → GoesOn (fgTurn u) := by
      intro i ho hi goesOn
      rwa [fgTurn_of_busy hc ho hi]
    rcases opcode_of_le_five command with ho | ho | ho | ho | ho | ho
    · cases hw : u.cmds with
      | nil => exact ⟨u, by simp only [fgTurn, hc, if_pos ho, hw]⟩
      | cons cw cs => rw [fgTurn_of_presented hc ho hw]; exact presentWord_goesOn cw hl hc ho
    all_goals
      rw [ho] at bound
      have atStep : AtStep u _ u.seqStep := ⟨hl, hc, ho, rfl⟩
      refine busy _ (by simp [ho]) (by simp only [commandInProgress, ho]; rfl) ?_
    · rw [atStep.exec_configure]; exact configureMicro_goesOn bound
    · rw [atStep.exec_stop]; exact stopMicro_goesOn bound
    · rw [atStep.exec_putc]; exact putcMicro_goesOn bound
    · rw [atStep.exec_tpinit]; exact tpinitMicro_goesOn bound
    · rw [atStep.exec_tprecv]; exact tprecvMicro_goesOn bound

theorem irqTurn_goesOn (hl : u.live) (handler : HandlerInv u) : GoesOn (irqTurn u) := by
  cases hc : u.ctx with
  | irq =>
    obtain ⟨-, -, handling⟩ := handler
    obtain ⟨-, -, -, -, bound, -⟩ := handling hc
    rw [irqTurn_of_irq hc, exec_rxisr_of_irq hl hc]
    exact rxisrMicro_goesOn bound
  | fg =>
    simp only [irqTurn, hc]
    split <;> exact goesOn_next _

/-- The agents of the environment go on from every state, the sequencer and the handler from those of the invariant. -/
theorem runTurn_goesOn {turn : Turn} (hh : turn.harness = false) (hl : u.live) (sequencer : SequencerInv u)
    (handler : HandlerInv u) : GoesOn (runTurn turn u) := by
  cases turn with
  | fg => exact fgTurn_goesOn hl sequencer
  | irq => exact irqTurn_goesOn hl handler
  | rxArrive b => exact goesOn_next _
  | txDrain => exact goesOn_next _
  | pdcTake => exact goesOn_next _
  | pop => exact goesOn_next _
  | bus header size data => exact absurd hh Bool.noConfusion
  | mem we addr size data => exact absurd hh Bool.noConfusion

/-- In a live state of the invariant the step answers a next state. -/
theorem step_goesOn {s : State} (inv : BlockInv s) (hl : s.live) : GoesOn (step s) := by
  obtain ⟨noHarness, -, -, -, sequencer, handler, -⟩ := inv
  rw [step_eq hl]
  exact runTurn_goesOn (nextTurn_harness noHarness) hl sequencer handler

end

/-! ### Turns with an enabled step (R172) -/

section
variable {turn : Turn} {u t : State}

/-- At least one event was appended. -/
theorem hist_grows_of_events (e : Event) (events : List Event) (hh : t.hist = u.hist ++ e :: events) :
    u.hist.length < t.hist.length := by
  rw [hh, List.length_append, List.length_cons]
  omega

theorem Access.hist_grows (h : Access u t) : u.hist.length < t.hist.length := by
  cases h <;> exact hist_grows_of_events _ [] rfl

theorem Micro.hist_grows (h : Micro u t) : u.hist.length < t.hist.length := by
  cases h
  case enableDone | lineOn | lineOff | send | arm | noByte | receive | receiveLate =>
    exact hist_grows_of_events _ [_] rfl
  all_goals exact hist_grows_of_events _ [] rfl

/-- Every move but the passing of a turn leaves its events. -/
theorem Move.hist_grows (h : Move turn u t) (he : enabled turn u = true) : u.hist.length < t.hist.length := by
  cases h
  case pass disabled => exact absurd (he.symm.trans disabled) Bool.noConfusion
  case micro h => exact h.hist_grows
  case access h => exact h.hist_grows
  case acceptNoOp | handlerPush | handlerDrop | handlerOverwrite => exact hist_grows_of_events _ [_] rfl
  all_goals exact hist_grows_of_events _ [] rfl

end

/-- Settles O15: the machine goes on, and the move it makes is not the passing of the turn. -/
theorem turnWithAnEnabledStepIsTaken : Obligations.TurnWithAnEnabledStepIsTaken := by
  intro s turn rest inv hl ha he
  obtain ⟨t, h⟩ := step_goesOn inv hl
  have move := runTurn_move ((step_of_turn hl ha).symm.trans h)
  exact ⟨t, h, move.hist_grows he⟩

/-! ### The order of the bytes on the line (R135, R168) -/

/-- What is on the line and what is pending are writes of `THR`, in their order and each at most once. -/
def LineInOrder (s : State) : Prop := (s.lineOut ++ s.pendingOut).Sublist (thrWrites s.hist)

theorem thrWrites_append (h events : List Event) : thrWrites (h ++ events) = thrWrites h ++ thrWrites events :=
  List.filterMap_append

theorem pendingOut_of_valid {s : State} (hv : s.thrValid = true) : s.pendingOut = [s.thrByte] := if_pos hv

theorem pendingOut_of_not_valid {s : State} (hv : s.thrValid = false) : s.pendingOut = [] :=
  if_neg (ne_true_of_eq_false hv)

section
variable {turn : Turn} {u t : State}

/-- No byte is put on the line or made pending, and writes are only added. -/
theorem LineInOrder.of_sublist (inv : LineInOrder u)
    (bytes : (t.lineOut ++ t.pendingOut).Sublist (u.lineOut ++ u.pendingOut)) (hist : u.hist <+: t.hist) :
    LineInOrder t :=
  bytes.trans (inv.trans (hist.sublist.filterMap _))

theorem LineInOrder.of_same (inv : LineInOrder u) (line : t.lineOut = u.lineOut) (pending : t.pendingOut = u.pendingOut)
    (hist : u.hist <+: t.hist) : LineInOrder t :=
  inv.of_sublist (by rw [line, pending]) hist

/-- A reset of the transmitter loses the pending byte (R83). -/
theorem LineInOrder.of_reset (inv : LineInOrder u) (line : t.lineOut = u.lineOut) (lost : t.thrValid = false)
    (hist : u.hist <+: t.hist) : LineInOrder t := by
  refine inv.of_sublist ?_ hist
  rw [line, pendingOut_of_not_valid lost, List.append_nil]
  exact List.sublist_append_left _ _

/-- A write makes its byte the pending one, behind those on the line (R89). -/
theorem LineInOrder.of_write (inv : LineInOrder u) {b : Byte} {events : List Event} (line : t.lineOut = u.lineOut)
    (pending : t.pendingOut = [b]) (hist : t.hist = u.hist ++ events) (written : thrWrites events = [b]) :
    LineInOrder t := by
  have sent : u.lineOut.Sublist (thrWrites u.hist) := (List.sublist_append_left _ _).trans inv
  rw [LineInOrder, line, pending, hist, thrWrites_append, written]
  exact sent.append_right [b]

/-- A drain puts the pending byte, and no other, behind those on the line (R167, R168). -/
theorem LineInOrder.of_drain (inv : LineInOrder u) (valid : u.thrValid = true)
    (line : t.lineOut = u.lineOut ++ [u.thrByte]) (drained : t.thrValid = false) (hist : u.hist <+: t.hist) :
    LineInOrder t := by
  refine inv.of_sublist ?_ hist
  rw [line, pendingOut_of_not_valid drained, pendingOut_of_valid valid, List.append_nil]

/-- Of the accesses only those of `CR` and `THR` touch the transmitter's byte (R83, R89). -/
theorem Access.keeps_lineInOrder (h : Access u t) (inv : LineInOrder u) : LineInOrder t := by
  have hist := h.frame.hist_extends
  cases h
  case writeCR v _ =>
    cases reset : field v bitRSTTX
    · refine inv.of_same rfl ?_ hist
      simp [State.pendingOut, State.thrByte, controlEffects, flagAfterReset, reset]
    · exact inv.of_reset rfl (by simp [controlEffects, flagAfterReset, reset]) hist
  case writeTHR c _ => exact inv.of_write (b := lowByte c) rfl rfl rfl rfl
  all_goals exact inv.of_same rfl rfl hist

/-- Of the micro-operations only the reset of CONFIGURE and TPINIT and the write of PUTC touch it (R110, R132). -/
theorem Micro.keeps_lineInOrder (h : Micro u t) (inv : LineInOrder u) : LineInOrder t := by
  have hist := h.frame.hist_extends
  cases h
  case resetDisable => exact inv.of_reset rfl rfl hist
  case send => exact inv.of_write (b := u.putcByte) rfl rfl rfl (congrArg (fun b => [b]) (lowByte_toWord u.putcByte))
  all_goals exact inv.of_same rfl rfl hist

theorem Move.keeps_lineInOrder (h : Move turn u t) (inv : LineInOrder u) : LineInOrder t := by
  have hist := h.frame.hist_extends
  cases h
  case micro h => exact h.keeps_lineInOrder inv
  case access h => exact h.keeps_lineInOrder inv
  case drain valid => exact inv.of_drain valid rfl rfl hist
  case drainReady => exact inv.of_reset rfl rfl hist
  all_goals exact inv.of_same rfl rfl hist

end

/-- Settles O42: a step is a move from the state with its turn taken, which has the same line, pending byte and
history. -/
theorem lineOutKeepsTheOrderOfWrites : Obligations.LineOutKeepsTheOrderOfWrites := fun _ _ inv h =>
  (step_moves h).2.keeps_lineInOrder inv

end Sys2Proof.Machine
end

section
/-! PROOFS. The family of 60_exceptions.md: when the receive interrupt is dispatched (R185, R189, R190), and the faults
and refusals that a run no harness drives can meet (R86, R132, R182, R183, R214). -/

namespace Sys2Proof.Machine

/-! ### Dispatch (R189, R190) -/

/-- In the foreground dispatch waits only for R189's conditions on the registers and the sequencer. -/
theorem dispatchEnabled_iff_of_fg {u : State} (hc : u.ctx = .fg) : u.dispatchEnabled = true ↔
    u.cfg.variant = .interruptDriver ∧ u.clk = true ∧ u.rxrdy = true ∧ u.imrRxrdy = true ∧
      u.lineEn = true ∧ u.seqOp ≠ 0x01#8 ∧ u.seqOp ≠ 0x02#8 := by
  simp only [dispatchEnabled_iff, hc, true_and, and_assoc]

theorem irqTurn_of_dispatchEnabled {u : State} (hc : u.ctx = .fg) (hd : u.dispatchEnabled = true) :
    irqTurn u = .next { u with ctx := .irq, istep := 0#2, hist := u.hist ++ [.dispatch] } := by
  simp only [irqTurn, hc, hd, if_true]
  rfl

theorem irqTurn_of_not_dispatchEnabled {u : State} (hc : u.ctx = .fg) (hd : ¬ u.dispatchEnabled = true) :
    irqTurn u = .next u :=
  irqTurn_of_not_enabled (by simp [enabled, hc, hd])

/-- Settles O43: the turn is the interrupt agent's, from the state with its turn taken, which has the same registers. -/
theorem dispatchIsTakenExactlyWhenAllowed : Obligations.DispatchIsTakenExactlyWhenAllowed := by
  intro s rest hl hc ha
  have allowed := dispatchEnabled_iff_of_fg (u := { s with agenda := rest }) hc
  rw [step_of_turn hl ha]
  exact ⟨fun conditions => irqTurn_of_dispatchEnabled hc (allowed.mpr conditions),
    fun fails => irqTurn_of_not_dispatchEnabled hc (fails ∘ allowed.mp)⟩

/-! ### The reasons a step of the invariant marks the state (R182, R183) -/

/-- The faults a step from `u` may mark: the first access of STOP, PUTC or TPRECV, before the clock gate is on (R80,
R214). -/
def FaultReason (u : State) (f : Fault) : Prop :=
  u.clk = false ∧ u.seqStep = 0#4 ∧
    (u.seqOp = 0x02#8 ∧ f = .unclockedAccess .IDR ∨
     (u.seqOp = 0x03#8 ∨ u.seqOp = 0x05#8) ∧ f = .unclockedAccess .SR)

/-- The refusals a micro-operation from `u` may mark: those of the admission of CONFIGURE and of TPINIT (R113, R151). -/
def AdmissionRefusal (u : State) (q : Refusal) : Prop :=
  (u.seqOp = 0x01#8 ∨ u.seqOp = 0x04#8) ∧ u.seqStep = 0#4 ∧
      (q = .zeroBaudrate ∨ q = .zeroMasterClock ∨ ∃ d, q = .divisorTooWide d) ∨
    u.seqOp = 0x04#8 ∧ u.seqStep = 0#4 ∧ ∃ p, q = .unknownProtocol p

/-- The refusals a turn from `u` may mark: of a word at an idle sequencer (R60, R61, R152), or of an admission. -/
def RefusalReason (turn : Turn) (u : State) (q : Refusal) : Prop :=
  turn = .fg ∧ u.ctx = .fg ∧
    (u.seqOp = 0x00#8 ∧
        ((∃ op, q = .reservedOpcode op) ∨ (∃ cw, q = .reservedOperandBits cw) ∨ ∃ op, q = .notInVariant op) ∨
      AdmissionRefusal u q)

section
variable {turn : Turn} {u t : State}

/-- Of the accesses made with the clock off the invariant leaves the first one of STOP, PUTC and TPRECV: the handler,
and every later step of a command, finds the clock on. -/
theorem UnclockedAt.faultReason {r : RegName} (h : UnclockedAt turn u r) (hh : turn.harness = false)
    (hk : u.clk = false) (sequencer : SequencerInv u) (handler : HandlerInv u) :
    FaultReason u (.unclockedAccess r) := by
  have clockOff : ¬ u.clk = true := ne_true_of_eq_false hk
  obtain ⟨-, -, -, -, -, configurationClock, shortClock, -⟩ := sequencer
  obtain ⟨-, -, handling⟩ := handler
  rcases h with ht | ⟨hi, -⟩ | ⟨-, ⟨ho, h2⟩ | ⟨ho, h0, rfl⟩ | ⟨ho, ⟨h0, rfl⟩ | ⟨h1, -⟩⟩ | ⟨ho, ⟨h0, rfl⟩ | ⟨h1, -⟩⟩⟩
  · exact absurd (hh.symm.trans ht) Bool.false_ne_true
  · obtain ⟨-, clockOn, -⟩ := handling hi
    exact absurd clockOn clockOff
  · exact absurd (configurationClock ho h2) clockOff
  · exact ⟨hk, h0, .inl ⟨ho, rfl⟩⟩
  · exact ⟨hk, h0, .inr ⟨.inl ho, rfl⟩⟩
  · exact absurd (shortClock (.inr (.inl ho)) (by simp [h1])) clockOff
  · exact ⟨hk, h0, .inr ⟨.inr ho, rfl⟩⟩
  · exact absurd (shortClock (.inr (.inr ho)) (by simp [h1])) clockOff

/-- Faults are listed once, among the moves: a micro-operation that takes effect marks none. -/
theorem Micro.fault_eq (h : Micro u t) : t.fault = u.fault := by
  cases h <;> rfl

theorem Move.faultReason (hh : turn.harness = false) (h : Move turn u t) (sequencer : SequencerInv u)
    (handler : HandlerInv u) (unmarked : u.fault = none) {f : Fault} (hf : t.fault = some f) : FaultReason u f := by
  have marked : ¬ t.fault = u.fault := by simp [hf, unmarked]
  cases h
  case unclocked r hk hw =>
    obtain rfl : Fault.unclockedAccess r = f := Option.some.inj hf
    exact hw.faultReason hh hk sequencer handler
  case micro h => exact absurd h.fault_eq marked
  case access ht _ _ => exact absurd (hh.symm.trans ht) Bool.false_ne_true
  all_goals exact absurd rfl marked

/-- From its step 1 on CONFIGURE and TPINIT hold a divisor that was admitted (R86, R112, R113). -/
theorem SequencerInv.readT_lt (inv : SequencerInv u) (ho : u.seqOp = 0x01#8 ∨ u.seqOp = 0x04#8)
    (h1 : 1 ≤ u.seqStep.toNat) : u.readT.toNat < 2 ^ u.cfg.divisorWidth := by
  obtain ⟨-, -, -, -, admitted, -⟩ := inv
  obtain ⟨latched, fits⟩ := admitted ho h1
  obtain ⟨d, hd⟩ := Option.isSome_iff_exists.mp latched
  simpa [State.readT, hd] using fits

/-- The divisor that step 4 writes was admitted, and PUTC writes where its poll found transmit-empty set (R86, R132). -/
theorem Micro.refusalReason (h : Micro u t) (sequencer : SequencerInv u) (unmarked : u.refused = none) {q : Refusal}
    (hq : t.refused = some q) : AdmissionRefusal u q := by
  have marked : ¬ t.refused = u.refused := by simp [hq, unmarked]
  cases h
  case configureRefuse q' ho h0 reason =>
    obtain rfl : q' = q := Option.some.inj hq
    exact .inl ⟨.inl ho, h0, reason⟩
  case tpinitRefuse q' ho h0 reason =>
    obtain rfl : q' = q := Option.some.inj hq
    rcases reason with unknown | reason
    · exact .inr ⟨ho, h0, unknown⟩
    · exact .inl ⟨.inr ho, h0, reason⟩
  case divisorRefused ho h4 _ wide => exact absurd (sequencer.readT_lt ho (by simp [h4])) (Nat.not_lt.mpr wide)
  case sendRefused ho h1 _ full =>
    obtain ⟨-, -, -, -, -, -, -, empty⟩ := sequencer
    exact absurd (empty ho (by simp [h1])) (ne_true_of_eq_false full)
  all_goals exact absurd rfl marked

theorem Move.refusalReason (hh : turn.harness = false) (h : Move turn u t) (sequencer : SequencerInv u)
    (unmarked : u.refused = none) {q : Refusal} (hq : t.refused = some q) : RefusalReason turn u q := by
  have marked : ¬ t.refused = u.refused := by simp [hq, unmarked]
  cases h
  case refuseWord cw _ q' ht hc ho _ reason =>
    obtain rfl : q' = q := Option.some.inj hq
    exact ⟨ht, hc, .inl ⟨ho, reason.imp_right fun bits => .inl ⟨cw, bits⟩⟩⟩
  case refuseVariant op ht hc ho _ _ =>
    obtain rfl : Refusal.notInVariant op = q := Option.some.inj hq
    exact ⟨ht, hc, .inl ⟨ho, .inr (.inr ⟨op, rfl⟩)⟩⟩
  case micro ht hc h => exact ⟨ht, hc, .inr (h.refusalReason sequencer unmarked hq)⟩
  case badAccess ht | access ht _ _ => exact absurd (hh.symm.trans ht) Bool.false_ne_true
  all_goals exact absurd rfl marked

end

/-- Settles O59: the step goes on, and it is a move of an agent that is no harness, from the state with its turn taken,
which has the same sequencer and registers. -/
theorem invariantStatesStepAndStopForTheNamedReasons : Obligations.InvariantStatesStepAndStopForTheNamedReasons := by
  intro s inv hl
  obtain ⟨t, h⟩ := step_goesOn inv hl
  obtain ⟨noHarness, -, -, -, sequencer, handler, -⟩ := inv
  obtain ⟨noFault, notRefused⟩ := hl
  have hh := nextTurn_harness noHarness
  have move := (step_moves h).2
  exact ⟨t, h, fun _ hf => move.faultReason hh sequencer handler noFault hf,
    fun _ hq => move.refusalReason hh sequencer notRefused hq⟩

end Sys2Proof.Machine
end
